-- ==== Sys2Proof/Word.lean ====
section
/-! DEFINITION. The word types of THA412-DISP (rule R15: bit 0 is the least significant bit, every value is unsigned). -/

namespace Sys2Proof

/-- A byte: an unsigned 8-bit value (R15). -/
abbrev Byte := BitVec 8

/-- A word16: the width of the host command word, of `status` and of `baud` (R15, R21). -/
abbrev Word16 := BitVec 16

end Sys2Proof
end

