-- ==== Sys2Proof/Syntax.lean ====
section
/-! DEFINITION. The instructions: one constructor per row of spec/opcode_table.json (ten host commands of format CMD16,
rule R71; twenty-two bytes on the wire of format WIRE8, rules R76 to R79), the positions of a byte in a transaction, the
pseudo-instructions (R81) and the phase programs of the bus line engine (R113 to R118). -/

namespace Sys2Proof

/-- One constructor per row of the opcode table. Operand fields have the widths of rule R72 (host commands) and of rules
R76 and R79 (wire bytes). -/
inductive Instr where
  -- host commands, R71
  | nop
  | binit
  /-- `a` the 7-bit device address, `r` the document's `readWrite` (`true` = read); `r` must be 0 (R72, R73). -/
  | start (a : BitVec 7) (r : Bool)
  | wbyte (v : Byte)
  | stop
  | scmd (v : Byte)
  | init
  /-- `p` the row (page) 0 to 7, `c` the column 0 to 127. -/
  | setcur (p : BitVec 3) (c : BitVec 7)
  | wchar (k : Byte)
  | clrerr
  -- bytes on the wire: frame bytes, R76 and R77
  | wAddrWrite (a : BitVec 7)
  | wCtrlCmd
  | wCtrlData
  -- display opcodes, R78
  | dDisplayOff
  | dClockDivide
  | dMultiplex
  | dDisplayOffset
  | dChargePump
  | dAddressingMode
  | dSegmentRemap
  | dComScanDec
  | dContrast
  | dPrecharge
  | dVcomDeselect
  | dFollowRam
  | dNormalDisplay
  | dDisplayOn
  -- computed display opcodes, R79
  | dStartLine (l : BitVec 6)
  | dPageAddr (p : BitVec 3)
  | dColLow (n : BitVec 4)
  | dColHigh (h : BitVec 3)
  -- third and later bytes of a data transaction, R161
  | wDataByte (d : Byte)
  deriving DecidableEq, Repr

/-- Where in a transaction a wire byte stands: its meaning depends on its position (R74, R75). -/
inductive WirePos where
  /-- first byte after a start condition (R76) -/
  | addr
  /-- control byte of a command transaction (R77) -/
  | ctrlCmd
  /-- control byte of a data transaction (R77) -/
  | ctrlData
  /-- payload byte of a command transaction that is a display opcode (R78) -/
  | cmdPayload
  /-- payload byte of a command transaction that is a parameter of INIT's sequence (R78, R141): no row of the table -/
  | param
  /-- third or later byte of a data transaction (R132), and every byte of a host WBYTE -/
  | dataPayload
  deriving DecidableEq, Repr

/-- The pseudo-instructions of R81. -/
inductive Pseudo where
  | wstr (s : List Byte)
  | sdata (bs : List Byte)
  | text (c : BitVec 7) (p : BitVec 3) (s : List Byte)
  | boot
  deriving DecidableEq, Repr

/-- The condition a wait phase waits for (R113). -/
inductive Cond where
  | scl1
  | both1
  deriving DecidableEq, Repr

/-- The items of a phase program (R113). -/
inductive Item where
  /-- `D(c, d, n)`: for `n` quarters `scl_oe = c` and `sda_oe = d` -/
  | drive (c d : Bool) (n : Nat)
  /-- `W(c, d, cond)` -/
  | wait (c d : Bool) (cond : Cond)
  /-- `SMP` -/
  | smp
  /-- `EV(S)` -/
  | evStart
  /-- `EV(B(v, a))`, `a` from ACKL -/
  | evByte (v : Byte)
  /-- `EV(P)` -/
  | evStop
  deriving DecidableEq, Repr

/-- The phase programs: START_IDLE(ab) R115, RESTART(ab) R116, BYTE(v, 0) R117, STOP R118. -/
inductive Prog where
  | startIdle (ab : Byte)
  | restart (ab : Byte)
  | byte (v : Byte)
  | stop
  deriving DecidableEq, Repr

/-- A phase pointer that is not idle: the running program and the index of its active item (R34, R113). -/
structure Phase where
  prog : Prog
  idx  : Nat
  deriving DecidableEq, Repr

/-- CCH: which primitive of the running channel procedure is executing (R31). -/
inductive Chan where
  | start
  | ctrl
  | payload
  | stop
  deriving DecidableEq, Repr, Inhabited

/-- SEQ (R31). -/
inductive Seq where
  /-- no command running -/
  | idle
  /-- a host primitive START, WBYTE or STOP -/
  | prim
  /-- SCMD -/
  | sCmd
  /-- INIT -/
  | sInit
  /-- SETCUR -/
  | sCur
  /-- WCHAR -/
  | sChr
  deriving DecidableEq, Repr

end Sys2Proof
end

