-- ==== Sys2Proof/WellFormed.lean ====
section
/-! DEFINITION. Which instructions are well formed: every operand field but START's direction has exactly the width the
encoding gives it, so every value of it is expressible (R72); START's `r` must be 0 (R72, R73 (c), R102). -/

namespace Sys2Proof

/-- Well-formedness of an instruction (R72, R73). -/
def Instr.wellFormed : Instr → Bool
  | .start _ r => !r
  | .nop | .binit | .wbyte _ | .stop | .scmd _ | .init | .setcur _ _ | .wchar _ | .clrerr => true
  | .wAddrWrite _ | .wCtrlCmd | .wCtrlData => true
  | .dDisplayOff | .dClockDivide | .dMultiplex | .dDisplayOffset | .dChargePump | .dAddressingMode => true
  | .dSegmentRemap | .dComScanDec | .dContrast | .dPrecharge | .dVcomDeselect | .dFollowRam => true
  | .dNormalDisplay | .dDisplayOn | .dStartLine _ | .dPageAddr _ | .dColLow _ | .dColHigh _ | .wDataByte _ => true

end Sys2Proof
end

