-- ==== Sys2Proof/Decode.lean ====
section
/-! DEFINITION. Decoding and encoding. `decode` is total on every 16-bit word and rejects by name (R73, R74); `decodeWire`
reads a wire byte at its position in the transaction (R74, R75 to R79); `encode` is written from the same tables;
`decodeTableWord` reads the words of the opcode table. -/

namespace Sys2Proof

/-- Why a command word is illegal (R73). -/
inductive Illegal where
  /-- R73 (a): `op` is 0xA to 0xF -/
  | opcode
  /-- R73 (b): a bit that must be 0 is 1 -/
  | reservedBits
  /-- R73 (c): a START with `r = 1` -/
  | readDirection
  deriving DecidableEq, Repr

/-- The field `op`, bits 15:12 (R70). -/
def opField (w : Word16) : BitVec 4 := w.extractLsb' 12 4

/-- The field `hi`, bits 11:8 (R70). -/
def hiField (w : Word16) : BitVec 4 := w.extractLsb' 8 4

/-- The field `lo`, bits 7:0 (R70). -/
def loField (w : Word16) : Byte := w.extractLsb' 0 8

/-- START's `a`, bits 7:1 (R72). -/
def addrField (w : Word16) : BitVec 7 := w.extractLsb' 1 7

/-- SETCUR's `p`, bits 10:8 (R72). -/
def pageField (w : Word16) : BitVec 3 := w.extractLsb' 8 3

/-- SETCUR's `c`, bits 6:0 (R72). -/
def colField (w : Word16) : BitVec 7 := w.extractLsb' 0 7

/-- A command without operands: bits 11:0 must be 0 (R72). -/
def bare (w : Word16) (i : Instr) : Except Illegal Instr :=
  if hiField w = 0 ∧ loField w = 0 then .ok i else .error .reservedBits

/-- A command with an 8-bit operand: bits 11:8 must be 0 (R72). -/
def withLo (w : Word16) (i : Byte → Instr) : Except Illegal Instr :=
  if hiField w = 0 then .ok (i (loField w)) else .error .reservedBits

/-- START: bits 11:8 must be 0, and `r` must be 0 (R72, R73). -/
def decodeStart (w : Word16) : Except Illegal Instr :=
  if hiField w = 0 then
    if w.getLsbD 0 then .error .readDirection else .ok (.start (addrField w) false)
  else .error .reservedBits

/-- SETCUR: bits 11 and 7 must be 0 (R72). -/
def decodeSetcur (w : Word16) : Except Illegal Instr :=
  if w.getLsbD 11 || w.getLsbD 7 then .error .reservedBits else .ok (.setcur (pageField w) (colField w))

/-- `decode` of R74: the command a 16-bit word stands for, or why it is illegal. -/
def decode (w : Word16) : Except Illegal Instr :=
  match (opField w).toNat with
  | 0 => bare w .nop
  | 1 => bare w .binit
  | 2 => decodeStart w
  | 3 => withLo w .wbyte
  | 4 => bare w .stop
  | 5 => withLo w .scmd
  | 6 => bare w .init
  | 7 => decodeSetcur w
  | 8 => withLo w .wchar
  | 9 => bare w .clrerr
  | _ => .error .opcode

/-- The address byte `{address[6:0], rw}` (R76). -/
def addrByte (a : BitVec 7) (r : Bool) : Byte := a ++ BitVec.ofBool r

/-- `CTRL_CMD` (R9, R77). -/
def ctrlCmdByte : Byte := 0x00

/-- `CTRL_DATA` (R9, R77). -/
def ctrlDataByte : Byte := 0x40

/-- `page_byte = 0xB0 | p` (R79). -/
def pageByte (p : BitVec 3) : Byte := 0xB0 ||| p.setWidth 8

/-- `0x00 | n`, `n` the low nibble of the column (R79). -/
def colLowByte (n : BitVec 4) : Byte := 0x00 ||| n.setWidth 8

/-- `0x10 | h`, `h` bits 6:4 of the column (R79). -/
def colHighByte (h : BitVec 3) : Byte := 0x10 ||| h.setWidth 8

/-- `start_line_byte = 0x40 | l` (R79). -/
def startLineByte (l : BitVec 6) : Byte := 0x40 ||| l.setWidth 8

/-- The display opcode that a payload byte of a command transaction is (R78, R79), if it is one of the table's. -/
def decodeOpcode (b : Byte) : Option Instr :=
  match b.toNat with
  | 0xAE => some .dDisplayOff
  | 0xD5 => some .dClockDivide
  | 0xA8 => some .dMultiplex
  | 0xD3 => some .dDisplayOffset
  | 0x8D => some .dChargePump
  | 0x20 => some .dAddressingMode
  | 0xA1 => some .dSegmentRemap
  | 0xC8 => some .dComScanDec
  | 0x81 => some .dContrast
  | 0xD9 => some .dPrecharge
  | 0xDB => some .dVcomDeselect
  | 0xA4 => some .dFollowRam
  | 0xA6 => some .dNormalDisplay
  | 0xAF => some .dDisplayOn
  | _ =>
    if b &&& 0xF8 = 0xB0 then some (.dPageAddr (b.extractLsb' 0 3))
    else if b &&& 0xF8 = 0x10 then some (.dColHigh (b.extractLsb' 0 3))
    else if b &&& 0xF0 = 0x00 then some (.dColLow (b.extractLsb' 0 4))
    else if b &&& 0xC0 = 0x40 then some (.dStartLine (b.extractLsb' 0 6))
    else none

/-- The table row that a byte at a position of a transaction is (R74 to R79), if any. -/
def decodeWire (pos : WirePos) (b : Byte) : Option Instr :=
  match pos with
  | .addr => if b.getLsbD 0 then none else some (.wAddrWrite (b.extractLsb' 1 7))
  | .ctrlCmd => if b = ctrlCmdByte then some .wCtrlCmd else none
  | .ctrlData => if b = ctrlDataByte then some .wCtrlData else none
  | .cmdPayload => decodeOpcode b
  | .param => none
  | .dataPayload => some (.wDataByte b)

/-- The code of an instruction: a command word, or a byte at a position on the wire. -/
inductive Code where
  | cmd16 (w : Word16)
  | wire8 (pos : WirePos) (b : Byte)
  deriving DecidableEq, Repr

/-- A command word from its three fields (R70). -/
def cmdWord (op hi : BitVec 4) (lo : Byte) : Word16 := op ++ hi ++ lo

/-- The code of an instruction (R71, R72, R76 to R79, R80). An ill-formed START has the illegal word of R80. -/
def encode : Instr → Code
  | .nop => .cmd16 (cmdWord 0x0 0 0)
  | .binit => .cmd16 (cmdWord 0x1 0 0)
  | .start a r => .cmd16 (cmdWord 0x2 0 (addrByte a r))
  | .wbyte v => .cmd16 (cmdWord 0x3 0 v)
  | .stop => .cmd16 (cmdWord 0x4 0 0)
  | .scmd v => .cmd16 (cmdWord 0x5 0 v)
  | .init => .cmd16 (cmdWord 0x6 0 0)
  | .setcur p c => .cmd16 (cmdWord 0x7 (p.setWidth 4) (c.setWidth 8))
  | .wchar k => .cmd16 (cmdWord 0x8 0 k)
  | .clrerr => .cmd16 (cmdWord 0x9 0 0)
  | .wAddrWrite a => .wire8 .addr (addrByte a false)
  | .wCtrlCmd => .wire8 .ctrlCmd ctrlCmdByte
  | .wCtrlData => .wire8 .ctrlData ctrlDataByte
  | .dDisplayOff => .wire8 .cmdPayload 0xAE
  | .dClockDivide => .wire8 .cmdPayload 0xD5
  | .dMultiplex => .wire8 .cmdPayload 0xA8
  | .dDisplayOffset => .wire8 .cmdPayload 0xD3
  | .dChargePump => .wire8 .cmdPayload 0x8D
  | .dAddressingMode => .wire8 .cmdPayload 0x20
  | .dSegmentRemap => .wire8 .cmdPayload 0xA1
  | .dComScanDec => .wire8 .cmdPayload 0xC8
  | .dContrast => .wire8 .cmdPayload 0x81
  | .dPrecharge => .wire8 .cmdPayload 0xD9
  | .dVcomDeselect => .wire8 .cmdPayload 0xDB
  | .dFollowRam => .wire8 .cmdPayload 0xA4
  | .dNormalDisplay => .wire8 .cmdPayload 0xA6
  | .dDisplayOn => .wire8 .cmdPayload 0xAF
  | .dStartLine l => .wire8 .cmdPayload (startLineByte l)
  | .dPageAddr p => .wire8 .cmdPayload (pageByte p)
  | .dColLow n => .wire8 .cmdPayload (colLowByte n)
  | .dColHigh h => .wire8 .cmdPayload (colHighByte h)
  | .wDataByte d => .wire8 .dataPayload d

/-- The instruction of a code. -/
def decodeCode : Code → Option Instr
  | .cmd16 w => (decode w).toOption
  | .wire8 pos b => decodeWire pos b

/-- The table row of a byte whose position is not given: the rows overlap (R74), and the one with the most fixed bits
answers (log entry 11). -/
def decodeByteRow (b : Byte) : Option Instr :=
  if b = ctrlCmdByte then some .wCtrlCmd
  else if b = ctrlDataByte then some .wCtrlData
  else match decodeOpcode b with
    | some i => some i
    | none => if b.getLsbD 0 then some (.wDataByte b) else some (.wAddrWrite (b.extractLsb' 1 7))

/-- The instruction the decoder reads from the `nbits` bits `w` of a row of the opcode table. -/
def decodeTableWord (nbits w : Nat) : Option Instr :=
  if nbits = 16 then
    if w < 65536 then (decode (BitVec.ofNat 16 w)).toOption else none
  else if nbits = 8 then
    if w < 256 then decodeByteRow (BitVec.ofNat 8 w) else none
  else none

end Sys2Proof
end

