-- ==== Sys2Proof/Config.lean ====
section
/-! DEFINITION. What an instance fixes (the parameters of rules R8 to R13), the answers of the environment (R91, R110),
and the free values: opaque constants of which nothing can be proved. -/

namespace Sys2Proof

/-- `NACK_POLICY` (R13, R99). -/
inductive NackPolicy where
  | report
  | ignore
  deriving DecidableEq, Repr, Inhabited

/-- The parameters of one instance (R8, R11, R12, R13), well formed or not: the fields' defaults only show that a well-formed
set exists (Machine/Params.lean), and no instance takes them unless it says so. -/
structure Params where
  /-- `F_CLK_HZ`, OPEN (R8) -/
  fClkHz : Nat := 400000
  /-- `F_SCL_HZ`, default 100000 (R8) -/
  fSclHz : Nat := 100000
  /-- `INIT_CLKDIV` (R11) -/
  initClkdiv : Byte := 0x80
  /-- `INIT_OFFSET`, OPEN (R11) -/
  initOffset : Byte := 0x00
  /-- `INIT_STARTLINE`, 6 bits, OPEN (R11) -/
  initStartline : BitVec 6 := 0
  /-- `INIT_CONTRAST`, OPEN (R11) -/
  initContrast : Byte := 0xCF
  /-- `INIT_PRECHARGE`, OPEN (R11) -/
  initPrecharge : Byte := 0xF1
  /-- `INIT_VCOMH`, OPEN (R11) -/
  initVcomh : Byte := 0x40
  /-- `GLYPH_ROM`, 130 bytes, OPEN but for row 16 (R12, R153, R154) -/
  glyphRom : List Byte := List.replicate 130 0x00
  /-- `TIMEOUT_LIMIT`, OPEN (R13) -/
  timeoutLimit : Nat := 1
  /-- `NACK_POLICY` (R13) -/
  nackPolicy : NackPolicy := .report
  deriving DecidableEq, Repr, Inhabited

/-- The answer of the environment to a start (R91). -/
inductive StartOutcome where
  | free
  | expired
  deriving DecidableEq, Repr, Inhabited

/-- The answer of the environment to a byte (R91). -/
inductive ByteOutcome where
  | acked
  | nacked
  | expired
  deriving DecidableEq, Repr, Inhabited

/-- The answer of the environment to a stop (R91). -/
inductive StopOutcome where
  | done
  | expired
  deriving DecidableEq, Repr, Inhabited

/-- `env_scl_low(n)` and `env_sda_low(n)` of one cycle: `true` = the environment pulls the line low (R110). -/
structure Pull where
  sclLow : Bool
  sdaLow : Bool
  deriving DecidableEq, Repr, Inhabited

/-- The host inputs at one rising edge (R21). -/
structure PortIn where
  rst      : Bool
  cmdValid : Bool
  cmdData  : Word16
  deriving DecidableEq, Repr

/-- An edge at which the host neither resets nor presents a word: nothing happens (R172). -/
def PortIn.quiet : PortIn := ⟨false, false, 0⟩

/-- What the registers of U9 hold after a command has ended: any value in the ranges of R31, R32 and R34. -/
structure Leftover where
  ipc  : Fin 23
  cch  : Chan
  dix  : Fin 6
  pb   : Byte
  gidx : Fin 26
  shr  : Byte
  bitc : Fin 9
  php  : Option Phase
  qcnt : Fin 131071
  tmo  : Nat
  deriving DecidableEq, Repr, Inhabited

/-- The `n`-th free draw of a start (R91: a free input under no law; log entry 4). -/
opaque Config.startOutcome : Nat → StartOutcome

/-- The `n`-th free draw of a byte (R91; log entry 4). -/
opaque Config.byteOutcome : Nat → ByteOutcome

/-- The `n`-th free draw of a stop (R91; log entry 4). -/
opaque Config.stopOutcome : Nat → StopOutcome

/-- The environment's pulls in cycle `n` where none are listed (R110; log entry 5). -/
opaque Config.linePull : Nat → Pull

/-- What the registers of U9 hold after the `n`-th bus command has ended (R31, U9; log entry 7). -/
opaque Config.leftover : Nat → Leftover

/-- The bit shifted into SHR at the edge of cycle `n`: never used (R177; log entry 8). -/
opaque Config.shiftIn : Nat → Bool

end Sys2Proof
end

