-- ==== Sys2Proof/Machine/Params.lean ====
section
/-! DEFINITION. The well-formed parameter sets (R14), the only ones an instance can have: what they must satisfy, their type,
and the parameter set of the instance, of which nothing else is known. -/

namespace Sys2Proof.Machine

/-- `ceil(a / b)` for positive integers: the least `n` with `n * b >= a` (R15). -/
def ceilDiv (a b : Nat) : Nat := (a + b - 1) / b

/-- `QDIV = ceil(F_CLK_HZ / (4 * F_SCL_HZ))` (R8). -/
def qdiv (p : Params) : Nat := ceilDiv p.fClkHz (4 * p.fSclHz)

/-- `GLYPH_W` and `GLYPH_N`: columns of a glyph, rows of the glyph ROM (R12). -/
def glyphW : Nat := 5
def glyphN : Nat := 26

/-- A well-formed parameter set (R14); INIT_STARTLINE <= 63 by its type, F_SCL_HZ positive as a divisor (R8). -/
def paramsValid (p : Params) : Bool :=
  decide (0 < p.fSclHz) && decide (4 * p.fSclHz ≤ p.fClkHz) && decide (1 ≤ qdiv p) && decide (qdiv p ≤ 65535) &&
    decide (1 ≤ p.timeoutLimit) && decide (p.glyphRom.length = glyphN * glyphW)

set_option maxRecDepth 2000 in
/-- The parameter set of an instance (R14): an ill-formed one is refused before reset, so no state has one (log entry 3). -/
structure ValidParams extends Params where
  valid : paramsValid toParams = true := by decide
  deriving DecidableEq, Repr, Inhabited

end Sys2Proof.Machine

namespace Sys2Proof

/-- The parameter set of the instance (log entry 2): OPEN, so nothing is known of it but that it is well formed (R14). -/
opaque Config.params : Machine.ValidParams

end Sys2Proof
end

