-- ==== Sys2Proof/Machine/State.lean ====
section
/-! DEFINITION. The state of THA412-DISP (rules R22 to R34), with the arguments of the step relation that a step reads
(R35), the state after reset (R37), and the reasons a step can stop. Plain data. -/

namespace Sys2Proof.Machine

/-- An event of the bus trace (R33). -/
inductive Event where
  /-- `S`: a start condition was issued -/
  | start
  /-- `B(v, a)`: byte `v` was transmitted completely; `acked` is `true` for `A`, `false` for `N` -/
  | byte (v : Byte) (acked : Bool)
  /-- `P`: a stop condition was issued -/
  | stop
  /-- `T`: a primitive was abandoned by timeout -/
  | timeout
  deriving DecidableEq, Repr

/-- How much of the block's work one step covers (log entry 1; the model's own). -/
inductive Grain where
  /-- a whole host command, the big-step rules of files 40 and 42 to 46 -/
  | command
  /-- one primitive at the sequencer pointer (R31) -/
  | primitive
  /-- one rising edge of `clk` (file 41) -/
  | cycle
  deriving DecidableEq, Repr

/-- The state. The comments name the rule that gives each field. -/
structure State where
  /-- CMD (R22) -/
  cmd : Word16
  /-- EN (R24) -/
  en : Bool
  /-- OPEN (R25) -/
  opn : Bool
  /-- READY (R26) -/
  ready : Bool
  /-- BUSY (R27) -/
  busy : Bool
  /-- LAST (R28) -/
  last : BitVec 3
  /-- E_TIMEOUT (R29) -/
  eTimeout : Bool
  /-- E_NACK (R29) -/
  eNack : Bool
  /-- E_INIT (R29) -/
  eInit : Bool
  /-- E_GLYPH (R29) -/
  eGlyph : Bool
  /-- E_CMD (R29) -/
  eCmd : Bool
  /-- BAUD (R30) -/
  baud : Word16
  /-- SEQ (R31) -/
  seq : Seq
  /-- IPC (R31) -/
  ipc : BitVec 5
  /-- CCH (R31) -/
  cch : Chan
  /-- DIX (R31) -/
  dix : BitVec 3
  /-- PB (R32) -/
  pb : Byte
  /-- GIDX (R32) -/
  gidx : BitVec 5
  /-- SHR (R32) -/
  shr : Byte
  /-- BITC (R32) -/
  bitc : BitVec 4
  /-- ACKL (R32): `true` = 1 = not acknowledged -/
  ackl : Bool
  /-- the bus trace, oldest event first (R33) -/
  trace : List Event
  /-- PHP: `none` = idle, else the running phase program and the index of its active item (R34, R113) -/
  php : Option Phase
  /-- QCNT (R34) -/
  qcnt : BitVec 17
  /-- TMO (R34) -/
  tmo : Nat
  /-- `scl_oe` (R34) -/
  sclOe : Bool
  /-- `sda_oe` (R34) -/
  sdaOe : Bool
  /-- argument of the step relation (R35): the parameter set, well formed (R8 to R14); no step changes it -/
  par : ValidParams
  /-- argument: the host inputs of the coming edges, next first (R21); an empty list is a quiet host (log entry 6) -/
  port : List PortIn
  /-- argument: the coming draws of starts (R91); an empty list leaves them free (log entry 4) -/
  starts : List StartOutcome
  /-- argument: the coming draws of bytes (R91) -/
  bytes : List ByteOutcome
  /-- argument: the coming draws of stops (R91) -/
  stops : List StopOutcome
  /-- argument: the environment's pulls in the coming cycles (R110); an empty list leaves them free (log entry 5) -/
  pulls : List Pull
  /-- the model's own: the grain of a step; no step changes it (log entry 1) -/
  grain : Grain
  /-- the model's own: free draws taken so far (log entry 18) -/
  draws : Nat
  /-- the model's own: clock edges taken so far at cycle grain (log entry 18) -/
  cycle : Nat
  /-- the model's own: bus commands ended so far (log entry 18) -/
  ends : Nat
  deriving DecidableEq, Repr

/-- Why the machine stops with a fault. -/
inductive Fault where
  /-- Raised by a step at primitive or cycle grain whose next byte would be read from glyph ROM address `a` beyond 129:
  "addresses 130 to 255 do not exist" (R51). No run from reset reaches it (GIDX is at most 25). Safe: it stops. -/
  | noRomAddress (a : Nat)
  deriving DecidableEq, Repr

/-- Why a step or an instruction has no meaning. -/
inductive Refusal where
  /-- Raised by an arm of `exec` whose instruction has no meaning yet: none in this model. Safe. -/
  | notModelled (mnemonic : String)
  /-- Raised by the meaning of a wire-byte row where the sequencer pointer does not stand at that row's position, or the
  block has no transaction to send it in: `xmit` is "called only with EN = 1 and OPEN = 1" (R97), and a wire byte's
  meaning depends on its position (R74). No step from reset raises it. Safe: it stops. -/
  | outOfPosition (mnemonic : String)
  /-- Raised by a step with BUSY = 1 whose sequencer pointer names no primitive (SEQ = IDLE, or SEQ = PRIM with a command
  word that is no START, WBYTE or STOP): such states are excluded by R31. No step from reset raises it. Safe. -/
  | noPrimitive
  deriving DecidableEq, Repr

/-- The state after reset: every value of R37; the step's arguments and the model's own fields as log entries 2, 4, 5, 6
and 18 say. -/
def State.reset : State where
  cmd := 0x0000
  en := false
  opn := false
  ready := false
  busy := false
  last := 0
  eTimeout := false
  eNack := false
  eInit := false
  eGlyph := false
  eCmd := false
  baud := 0x0000
  seq := .idle
  ipc := 0
  cch := .start
  dix := 0
  pb := 0x00
  gidx := 0
  shr := 0x00
  bitc := 0
  ackl := true
  trace := []
  php := none
  qcnt := 0
  tmo := 0
  sclOe := false
  sdaOe := false
  par := Config.params
  port := []
  starts := []
  bytes := []
  stops := []
  pulls := []
  grain := .command
  draws := 0
  cycle := 0
  ends := 0

end Sys2Proof.Machine
end

