-- ==== Sys2Proof/Machine/Operands.lean ====
section
/-! DEFINITION. Every operand form: the constants and derived parameters (R8 to R14), the two ROMs (R51, R52, R141), the
glyph lookup (R150), the bytes SETCUR computes (R79, R160), and the operands held in CMD (R72). -/

namespace Sys2Proof.Machine

/-- QDIV as the 16-bit BAUD register holds it: of a well-formed set it fits (R14, R30). -/
def qdivWord (p : Params) : Word16 := BitVec.ofNat 16 (qdiv p)

/-- `DEV_ADDR` (R9). -/
def devAddr : BitVec 7 := 0x3C

/-- The address byte of every macro command, `{0x3C, 0} = 0x78` (R76). -/
def devAddrByte : Byte := addrByte devAddr false

/-- `WIDTH`, `PAGES`, `HEIGHT` (R10). -/
def displayWidth : Nat := 128
def displayPages : Nat := 8
def displayHeight : Nat := 8 * displayPages

/-- The multiplex-ratio parameter byte `HEIGHT - 1 = 0x3F` (R10). -/
def multiplexByte : Byte := BitVec.ofNat 8 (displayHeight - 1)

/-- `GLYPH_BASE` and `CELL_W` (R12); `GLYPH_W` and `GLYPH_N` stand in Params.lean. -/
def glyphBase : Nat := 32
def cellW : Nat := 6

/-- `GLYPH_VALID`: `{0, 1, 16, ..., 25}` (R12). -/
def glyphValid (idx : Nat) : Bool := idx == 0 || idx == 1 || (16 ≤ idx && idx ≤ 25)

/-- The initialisation ROM, index 0 to 22 (R52, R141). -/
def irom (p : Params) : List Byte :=
  [0xAE, 0xD5, p.initClkdiv, 0xA8, multiplexByte, 0xD3, p.initOffset, startLineByte p.initStartline,
   0x8D, 0x14, 0x20, 0x00, 0xA1, 0xC8, 0x81, p.initContrast, 0xD9, p.initPrecharge,
   0xDB, p.initVcomh, 0xA4, 0xA6, 0xAF]

/-- `INIT_LEN` (R52). -/
def initLen : Nat := 23

/-- `IROM[i]`, formed for `i <= 22` only (R52, R177 (d)). -/
def iromAt (p : Params) (i : Nat) : Byte := (irom p).getD i 0

/-- The steps of INIT whose byte is the parameter of the opcode before it (R78, R141). -/
def isParamStep (i : Nat) : Bool :=
  i == 2 || i == 4 || i == 6 || i == 9 || i == 11 || i == 15 || i == 17 || i == 19

/-- `GROM[a]` for `a` 0 to 129, row 16 pinned by R153, the rest the parameter GLYPH_ROM (R51, R154). -/
def gromAt (p : Params) (a : Nat) : Byte :=
  match a with
  | 80 => 0x7C
  | 81 => 0x12
  | 82 => 0x11
  | 83 => 0x12
  | 84 => 0x7C
  | _ => p.glyphRom.getD a 0

/-- The address of column `k` of glyph row `idx` (R51). -/
def gromAddr (idx k : Nat) : Nat := 5 * idx + k

/-- The first address of the glyph ROM space that does not exist (R51). -/
def gromSize : Nat := glyphN * glyphW

/-- The five column bytes of glyph row `idx`, column 0 first (R51, R150). -/
def glyphColumns (p : Params) (idx : Nat) : List Byte :=
  [gromAt p (gromAddr idx 0), gromAt p (gromAddr idx 1), gromAt p (gromAddr idx 2), gromAt p (gromAddr idx 3),
   gromAt p (gromAddr idx 4)]

/-- The range check and the valid bit of `glyph(c)`: the row index, or `none` for UnsupportedGlyph (R150). No ROM byte is
read on a failing path (R156). -/
def glyphIndex (c : Byte) : Option Nat :=
  if c.toNat < glyphBase ∨ glyphBase + glyphN ≤ c.toNat then none
  else if glyphValid (c.toNat - glyphBase) then some (c.toNat - glyphBase)
  else none

/-- `glyph(c)`: the five bytes, or `none` for UnsupportedGlyph (R150). -/
def glyph (p : Params) (c : Byte) : Option (List Byte) :=
  (glyphIndex c).map (glyphColumns p)

/-- The blank separator column (R161). -/
def separator : Byte := 0x00

/-- The data bytes of WCHAR: five glyph columns and the separator (R161). -/
def cellBytes (p : Params) (idx : Nat) : List Byte := glyphColumns p idx ++ [separator]

/-- The low nibble of the column, `c[3:0]` (R79). -/
def colLow (c : BitVec 7) : BitVec 4 := c.extractLsb' 0 4

/-- `c[6:4]` (R79). -/
def colHigh (c : BitVec 7) : BitVec 3 := c.extractLsb' 4 3

/-- The three addressing bytes of SETCUR: page, low nibble, high nibble (R160). -/
def cursorBytes (p : BitVec 3) (c : BitVec 7) : List Byte :=
  [pageByte p, colLowByte (colLow c), colHighByte (colHigh c)]

/-- The addressing byte of SETCUR's step `i`, with the operands as CMD holds them (R160). -/
def cursorByteAt (cmd : Word16) (i : Nat) : Byte := (cursorBytes (pageField cmd) (colField cmd)).getD i 0

end Sys2Proof.Machine
end

