-- ==== Sys2Proof/Machine/Flags.lean ====
section
/-! DEFINITION. Results, result codes, sticky flags and the status word (R17, R23, R28, R29, R180). -/

namespace Sys2Proof.Machine

/-- The result of a primitive or of a channel procedure (R17). -/
inductive Result where
  | ok
  | timeout
  | nack
  deriving DecidableEq, Repr

/-- The result codes of R180. -/
inductive ResultCode where
  | ok
  | busTimeout
  | busNack
  | initFailure
  | unsupportedGlyph
  | cmdRefused
  deriving DecidableEq, Repr

/-- The 3-bit value of a result code (R180). -/
def codeBits : ResultCode → BitVec 3
  | .ok => 0
  | .busTimeout => 1
  | .busNack => 2
  | .initFailure => 3
  | .unsupportedGlyph => 4
  | .cmdRefused => 5

/-- `code(r)`: the code of a primitive's result (R90). -/
def resultCode : Result → ResultCode
  | .ok => .ok
  | .timeout => .busTimeout
  | .nack => .busNack

/-- Sets the sticky flag of a result code (R29, R180). -/
def setSticky (c : ResultCode) (s : State) : State :=
  match c with
  | .ok => s
  | .busTimeout => { s with eTimeout := true }
  | .busNack => { s with eNack := true }
  | .initFailure => { s with eInit := true }
  | .unsupportedGlyph => { s with eGlyph := true }
  | .cmdRefused => { s with eCmd := true }

/-- `LAST <- c` (R28). -/
def setLast (c : ResultCode) (s : State) : State := { s with last := codeBits c }

/-- Clears the five sticky flags (R171). -/
def clearSticky (s : State) : State :=
  { s with eTimeout := false, eNack := false, eInit := false, eGlyph := false, eCmd := false }

/-- `refuse()` (R173): `E_CMD <- 1`, `LAST <- 5`, nothing else. -/
def refuse (s : State) : State := setLast .cmdRefused (setSticky .cmdRefused s)

/-- The status word `status[15:0]` (R23, R175). -/
def status (s : State) : Word16 :=
  (0 : BitVec 3) ++ BitVec.ofBool s.eCmd ++ BitVec.ofBool s.eGlyph ++ BitVec.ofBool s.eInit ++ BitVec.ofBool s.eNack ++
    BitVec.ofBool s.eTimeout ++ (0 : BitVec 1) ++ s.last ++ BitVec.ofBool s.ready ++ BitVec.ofBool s.opn ++
    BitVec.ofBool s.en ++ BitVec.ofBool s.busy

/-- When a legal command is refused in a state (R174); an ill-formed START is illegal (R73 (c)). The rows that are no host
commands are not accepted at the port and never refused here. -/
def stateRefuses (i : Instr) (s : State) : Bool :=
  match i with
  | .nop | .clrerr => false
  | .binit => s.en
  | .start _ r => r || !s.en
  | .wbyte _ | .stop => !s.en || !s.opn
  | .scmd _ => !s.en || s.opn
  | .init => !s.en || s.opn || s.ready
  | .setcur _ _ | .wchar _ => !s.en || s.opn || !s.ready
  | .wAddrWrite _ | .wCtrlCmd | .wCtrlData => false
  | .dDisplayOff | .dClockDivide | .dMultiplex | .dDisplayOffset | .dChargePump | .dAddressingMode => false
  | .dSegmentRemap | .dComScanDec | .dContrast | .dPrecharge | .dVcomDeselect | .dFollowRam => false
  | .dNormalDisplay | .dDisplayOn | .dStartLine _ | .dPageAddr _ | .dColLow _ | .dColHigh _ | .wDataByte _ => false

end Sys2Proof.Machine
end

