-- ==== Sys2Proof/Machine/Ops.lean ====
section
/-! DEFINITION. The shared operations: draws from the environment (R91), the lines at rest (R114), the trace (R33), the end
of a command and the entry into an error (R186, R190), the three bus primitives (R93 to R98), the channel procedures
(R131 to R133) and the lists of commands that INIT and SETCUR send. -/

namespace Sys2Proof.Machine

/-- `trace += e` (R33). -/
def logEvent (e : Event) (s : State) : State := { s with trace := s.trace ++ [e] }

/-- The outputs at hold: SCL kept low, SDA released (R114). -/
def toHold (s : State) : State := { s with sclOe := true, sdaOe := false }

/-- The outputs at idle: both lines released (R114). -/
def toIdle (s : State) : State := { s with sclOe := false, sdaOe := false }

/-- The bus is closed: `OPEN <- 0` (R25). -/
def closeBus (s : State) : State := { s with opn := false }

/-- `CCH <- c` (R31). -/
def atChan (c : Chan) (s : State) : State := { s with cch := c }

/-- `DIX <- j` in its three bits (R31). For `j` of 8 and more R132 does not say what DIX then holds: the model keeps `j` modulo
8, its own choice (DESIGN CHOICE, log entry 24), and no command sends so many bytes. -/
def loadDix (j : Nat) (s : State) : State := { s with dix := BitVec.ofNat 3 j }

/-- `PB <- v` (R32). -/
def loadPb (v : Byte) (s : State) : State := { s with pb := v }

/-- `SHR <- v` (R32, R177). -/
def loadShr (v : Byte) (s : State) : State := { s with shr := v }

/-- `ACKL <- a` (R32). -/
def setAckl (a : Bool) (s : State) : State := { s with ackl := a }

/-- `IPC <- 0` (R31, R140, R160). -/
def clearIpc (s : State) : State := { s with ipc := 0 }

/-- `GIDX <- i` (R32, R161). -/
def loadGidx (i : Nat) (s : State) : State := { s with gidx := BitVec.ofNat 5 i }

/-- `BUSY <- 1 ; SEQ <- q`: a command that uses the bus runs (R27, R31). -/
def runs (q : Seq) (s : State) : State := { s with busy := true, seq := q }

/-- `IPC <- IPC + 1` (R31). -/
def advanceIpc (s : State) : State := { s with ipc := s.ipc + 1 }

/-- `READY <- 1` (R26). -/
def setReady (s : State) : State := { s with ready := true }

/-- The resting outputs where no primitive is running (R114). -/
def restLines (s : State) : State := if s.opn then toHold s else toIdle s

/-- `draw StartOutcome` (R91): the next listed draw, else a free one. -/
def drawStart (s : State) : StartOutcome × State :=
  match s.starts with
  | o :: rest => (o, { s with starts := rest })
  | [] => (Config.startOutcome s.draws, { s with draws := s.draws + 1 })

/-- `draw ByteOutcome` (R91). -/
def drawByte (s : State) : ByteOutcome × State :=
  match s.bytes with
  | o :: rest => (o, { s with bytes := rest })
  | [] => (Config.byteOutcome s.draws, { s with draws := s.draws + 1 })

/-- `draw StopOutcome` (R91). -/
def drawStop (s : State) : StopOutcome × State :=
  match s.stops with
  | o :: rest => (o, { s with stops := rest })
  | [] => (Config.stopOutcome s.draws, { s with draws := s.draws + 1 })

/-- What a bus command leaves in the registers of U9: free values in the registers' ranges (R31, R32, R34; log entry 7). -/
def forget (s : State) : State :=
  let x := Config.leftover s.ends
  { s with
    ipc := BitVec.ofNat 5 x.ipc.val, cch := x.cch, dix := BitVec.ofNat 3 x.dix.val, pb := x.pb,
    gidx := BitVec.ofNat 5 x.gidx.val, shr := x.shr, bitc := BitVec.ofNat 4 x.bitc.val, php := x.php,
    qcnt := BitVec.ofNat 17 x.qcnt.val, tmo := min x.tmo s.par.timeoutLimit, ends := s.ends + 1 }

/-- The end of a bus command with result code `c`: `LAST <- c`, `SEQ <- IDLE`, `BUSY <- 0` (R27, R28, R31, R186). -/
def endCommand (c : ResultCode) (s : State) : State :=
  let s := forget (setLast c s)
  { s with seq := .idle, busy := false }

/-- `fail(E)`, the entry into an error that ends the running command: its sticky flag is set, its code recorded, the
command ends, and the block waits for the next command (R16, R186, R190). There is no return from it: the host's next
command is simply the next (R192). -/
def fail (c : ResultCode) (s : State) : State := endCommand c (setSticky c s)

/-- `timeout_abort()` (R98, R119). -/
def timeoutAbort (s : State) : State :=
  logEvent .timeout (setSticky .busTimeout (closeBus (toIdle s)))

/-- The result of a byte whose acknowledge bit is in ACKL, under the acknowledge policy (R97, R99). -/
def byteResult (s : State) : Result × State :=
  if s.ackl && s.par.nackPolicy == .report then (.nack, setSticky .busNack s) else (.ok, s)

/-- The end of a byte: its acknowledge bit in ACKL and in the trace, the lines at hold (R97, R114). -/
def byteDone (v : Byte) (acked : Bool) (s : State) : Result × State :=
  byteResult (logEvent (.byte v acked) (toHold (setAckl (!acked) s)))

/-- `xmit(v)` (R97). -/
def xmit (v : Byte) (s : State) : Result × State :=
  match drawByte (loadShr v s) with
  | (.expired, s) => (.timeout, timeoutAbort s)
  | (.acked, s) => byteDone v true s
  | (.nacked, s) => byteDone v false s

/-- The start condition: `trace += S ; OPEN <- 1` (R93). -/
def startDone (s : State) : State :=
  let s := logEvent .start s
  { s with opn := true }

/-- `prim_START(ab)`, first or repeated (R93, R94). -/
def primStart (ab : Byte) (s : State) : Result × State :=
  match drawStart s with
  | (.expired, s) => (.timeout, timeoutAbort s)
  | (.free, s) => xmit ab (startDone s)

/-- The stop condition: `trace += P ; OPEN <- 0`, the lines released (R96, R114). -/
def stopDone (s : State) : State :=
  logEvent .stop (closeBus (toIdle s))

/-- `prim_STOP()` (R96). -/
def primStop (s : State) : Result × State :=
  match drawStop s with
  | (.expired, s) => (.timeout, timeoutAbort s)
  | (.done, s) => (.ok, stopDone s)

/-- `abandon(r)`: after a Nack the transaction is closed by a stop whose result is discarded; the first error is the
result (R133). -/
def abandon (r : Result) (s : State) : Result × State :=
  match r with
  | .nack => (.nack, (primStop (atChan .stop s)).2)
  | .ok => (.ok, s)
  | .timeout => (.timeout, s)

/-- One primitive of a procedure: the rest follows if it returned Ok, else the procedure is abandoned (R131, R132). -/
def andThen (x : Result × State) (k : State → Result × State) : Result × State :=
  match x.1 with
  | .ok => k x.2
  | .nack => abandon .nack x.2
  | .timeout => abandon .timeout x.2

/-- Procedure `sendCommand(op)` (R131). -/
def sendCommand (op : Byte) (s : State) : Result × State :=
  andThen (primStart devAddrByte (atChan .start (loadPb op s))) fun s =>
  andThen (xmit ctrlCmdByte (atChan .ctrl s)) fun s =>
  andThen (xmit s.pb (atChan .payload s)) fun s =>
  primStop (atChan .stop s)

/-- The payload bytes of `sendDataBytes`, from index `j` (R132). -/
def sendPayload (j : Nat) (bs : List Byte) (s : State) : Result × State :=
  match bs with
  | [] => primStop (atChan .stop s)
  | b :: rest => andThen (xmit b (loadDix j s)) (sendPayload (j + 1) rest)

/-- Procedure `sendDataBytes(bs)` (R132). -/
def sendDataBytes (bs : List Byte) (s : State) : Result × State :=
  andThen (primStart devAddrByte (atChan .start s)) fun s =>
  andThen (xmit ctrlDataByte (atChan .ctrl s)) fun s =>
  sendPayload 0 bs (atChan .payload s)

/-- The loop of INIT and SETCUR: one `sendCommand` per byte in order, IPC advanced after each that returned Ok and is not
the last, the loop left at the first that did not (R31, R140, R160). -/
def sendCommands (bs : List Byte) (s : State) : Result × State :=
  match bs with
  | [] => (.ok, s)
  | [b] => sendCommand b s
  | b :: c :: rest =>
    match sendCommand b s with
    | (.ok, s) => sendCommands (c :: rest) (advanceIpc s)
    | (.nack, s) => (.nack, s)
    | (.timeout, s) => (.timeout, s)

/-- A command that is refused in a state that forbids it (R173, R174), and has its effect otherwise. -/
def unlessRefused (i : Instr) (s : State) (effect : State) : Host.Outcome State Fault Refusal :=
  .next (if stateRefuses i s then refuse s else effect)

/-- A host primitive or a macro command that ends with the code of its result (R93, R95, R96, R130, R160, R161). -/
def endWithResult (x : Result × State) : State := endCommand (resultCode x.1) x.2

end Sys2Proof.Machine
end

