-- ==== Sys2Proof/Machine/System.lean ====
section
/-! DEFINITION. The commands of a system kind: NOP (R170), CLRERR (R171), BINIT (R92). -/

namespace Sys2Proof.Machine

/-- NOP (R170): `LAST <- 0`, accepted in every state. -/
def execNop (s : State) : Host.Outcome State Fault Refusal := .next (setLast .ok s)

/-- CLRERR (R171): the five sticky flags and LAST to 0, nothing else. -/
def execClrerr (s : State) : Host.Outcome State Fault Refusal := .next (setLast .ok (clearSticky s))

/-- BINIT (R92): `BAUD <- QDIV ; EN <- 1 ; LAST <- 0`, refused where EN is already 1. -/
def execBinit (s : State) : Host.Outcome State Fault Refusal :=
  unlessRefused .binit s (setLast .ok { s with baud := qdivWord s.par.toParams, en := true })

end Sys2Proof.Machine
end

