-- ==== Sys2Proof/Machine/Bus.lean ====
section
/-! DEFINITION. The host's bus primitives: START (R93, R94), WBYTE (R95), STOP (R96). -/

namespace Sys2Proof.Machine

/-- START (R93; with the bus open a repeated start, R94). `r = 1` is illegal and refused (R73, R102). -/
def execStart (a : BitVec 7) (r : Bool) (s : State) : Host.Outcome State Fault Refusal :=
  unlessRefused (.start a r) s (endWithResult (primStart (addrByte a r) (runs .prim s)))

/-- WBYTE (R95). -/
def execWbyte (v : Byte) (s : State) : Host.Outcome State Fault Refusal :=
  unlessRefused (.wbyte v) s (endWithResult (xmit v (runs .prim s)))

/-- STOP (R96). -/
def execStop (s : State) : Host.Outcome State Fault Refusal :=
  unlessRefused .stop s (endWithResult (primStop (runs .prim s)))

end Sys2Proof.Machine
end

