-- ==== Sys2Proof/Machine/Macro.lean ====
section
/-! DEFINITION. The macro commands: SCMD (R130), INIT (R140), SETCUR (R160), WCHAR (R161). -/

namespace Sys2Proof.Machine

/-- SCMD (R130). -/
def execScmd (v : Byte) (s : State) : Host.Outcome State Fault Refusal :=
  unlessRefused (.scmd v) s (endWithResult (sendCommand v (runs .sCmd s)))

/-- The end of INIT: READY after a complete success, else `E_INIT` and code 3 whatever the cause (R140, R143, R183). -/
def endInit (x : Result × State) : State :=
  match x.1 with
  | .ok => endCommand .ok (setReady x.2)
  | .nack | .timeout => fail .initFailure x.2

/-- INIT (R140). -/
def execInit (s : State) : Host.Outcome State Fault Refusal :=
  unlessRefused .init s (endInit (sendCommands (irom s.par.toParams) (clearIpc (runs .sInit s))))

/-- SETCUR (R160). -/
def execSetcur (p : BitVec 3) (c : BitVec 7) (s : State) : Host.Outcome State Fault Refusal :=
  unlessRefused (.setcur p c) s
    (endWithResult (sendCommands (cursorBytes p c) (clearIpc (runs .sCur s))))

/-- WCHAR of an accepted character code (R161): an unsupported one sets `E_GLYPH` and code 4 with no bus activity and BUSY
never set (R184); a supported one is one data transaction of six bytes. -/
def renderChar (k : Byte) (s : State) : State :=
  match glyphIndex k with
  | none => setLast .unsupportedGlyph (setSticky .unsupportedGlyph s)
  | some idx =>
    endWithResult (sendDataBytes (cellBytes s.par.toParams idx) (loadGidx idx (runs .sChr s)))

/-- WCHAR (R161): the refusal conditions come first (R189). -/
def execWchar (k : Byte) (s : State) : Host.Outcome State Fault Refusal :=
  unlessRefused (.wchar k) s (renderChar k s)

end Sys2Proof.Machine
end

