-- ==== Sys2Proof/Machine/Sequencer.lean ====
section
/-! DEFINITION. The sequencer pointer (SEQ, IPC, CCH, DIX) of R31: where it stands, which primitive it names, how a command
begins, and how the pointer moves when a primitive has ended (advance, complete, exit on failure: R178). -/

namespace Sys2Proof.Machine

/-- What the sequencer pointer names (R31). -/
inductive Named where
  /-- `prim_START(ab)` -/
  | start (ab : Byte)
  /-- `xmit(v)`, `v` at a position -/
  | byte (pos : WirePos) (v : Byte)
  /-- `prim_STOP()` -/
  | stop
  /-- a byte of a glyph ROM address that does not exist -/
  | noRom (a : Nat)
  /-- nothing: no command runs -/
  | nothing
  deriving DecidableEq, Repr

/-- The data byte DIX names: `GROM[5 * GIDX + DIX]` for 0 to 4, then the separator (R66, R165). -/
def dataByteAt (s : State) : Named :=
  if s.dix.toNat < glyphW then
    if gromAddr s.gidx.toNat s.dix.toNat < gromSize then
      .byte .dataPayload (gromAt s.par.toParams (gromAddr s.gidx.toNat s.dix.toNat))
    else .noRom (gromAddr s.gidx.toNat s.dix.toNat)
  else .byte .dataPayload separator

/-- What the pointer names in a host primitive: the command word says it (R31). -/
def hostPrimitive (s : State) : Named :=
  match (opField s.cmd).toNat with
  | 2 => .start (loField s.cmd)
  | 3 => .byte .dataPayload (loField s.cmd)
  | 4 => .stop
  | _ => .nothing

/-- What the pointer names in a macro command's procedure (R131, R132). -/
def channelPrimitive (s : State) : Named :=
  match s.cch with
  | .start => .start devAddrByte
  | .ctrl => if s.seq = .sChr then .byte .ctrlData ctrlDataByte else .byte .ctrlCmd ctrlCmdByte
  | .payload =>
    if s.seq = .sChr then dataByteAt s
    else if s.seq = .sInit ∧ isParamStep s.ipc.toNat then .byte .param s.pb
    else .byte .cmdPayload s.pb
  | .stop => .stop

/-- What the sequencer pointer names (R31). -/
def named (s : State) : Named :=
  match s.seq with
  | .idle => .nothing
  | .prim => hostPrimitive s
  | .sCmd | .sInit | .sCur | .sChr => channelPrimitive s

/-- The position of the byte the sequencer pointer names, if it names one (R31, R75). A byte of a host WBYTE stands in
`dataPayload` (log entry 11). -/
def posOf (s : State) : Option WirePos :=
  match named s with
  | .start _ => some .addr
  | .byte pos _ => some pos
  | .stop | .noRom _ | .nothing => none

/-- Where a bus command begins: BUSY, SEQ, and the pointer at its first primitive (R31, R131, R132, R140, R160, R161,
R172). Immediate commands never begin. -/
def begin (i : Instr) (s : State) : State :=
  let s := { s with php := none }
  match i with
  | .start _ _ | .wbyte _ | .stop => runs .prim s
  | .scmd v => atChan .start (loadPb v (runs .sCmd s))
  | .init => atChan .start (loadPb (iromAt s.par.toParams 0) (clearIpc (runs .sInit s)))
  | .setcur p _ => atChan .start (loadPb (pageByte p) (clearIpc (runs .sCur s)))
  | .wchar k => atChan .start (loadGidx ((glyphIndex k).getD 0) (runs .sChr s))
  | .nop | .binit | .clrerr | .wAddrWrite _ | .wCtrlCmd | .wCtrlData => s
  | .dDisplayOff | .dClockDivide | .dMultiplex | .dDisplayOffset | .dChargePump | .dAddressingMode => s
  | .dSegmentRemap | .dComScanDec | .dContrast | .dPrecharge | .dVcomDeselect | .dFollowRam => s
  | .dNormalDisplay | .dDisplayOn | .dStartLine _ | .dPageAddr _ | .dColLow _ | .dColHigh _ | .wDataByte _ => s

/-- The commands that complete at the accepting edge (R172): NOP, CLRERR, BINIT, every refused command, and WCHAR of an
unsupported character. -/
def immediate (i : Instr) (s : State) : Bool :=
  stateRefuses i s ||
  match i with
  | .start _ _ | .wbyte _ | .stop | .scmd _ | .init | .setcur _ _ => false
  | .wchar k => (glyphIndex k).isNone
  | .nop | .binit | .clrerr | .wAddrWrite _ | .wCtrlCmd | .wCtrlData => true
  | .dDisplayOff | .dClockDivide | .dMultiplex | .dDisplayOffset | .dChargePump | .dAddressingMode => true
  | .dSegmentRemap | .dComScanDec | .dContrast | .dPrecharge | .dVcomDeselect | .dFollowRam => true
  | .dNormalDisplay | .dDisplayOn | .dStartLine _ | .dPageAddr _ | .dColLow _ | .dColHigh _ | .wDataByte _ => true

/-- The procedure that is closing was abandoned: the last acknowledge bit was 1 and the policy reports it (R133; log entry
13). -/
def abandoning (s : State) : Bool := s.ackl && s.par.nackPolicy == .report

/-- The command's end after a procedure that did not return Ok (R130, R140, R160, R161). -/
def procFailed (r : Result) (s : State) : State :=
  if s.seq = .sInit then fail .initFailure s else endCommand (resultCode r) s

/-- The next `sendCommand` of INIT or SETCUR: `IPC <- IPC + 1`, its payload byte in PB (R31, R140, R160). -/
def nextCommand (b : Byte) (s : State) : State :=
  atChan .start (loadPb b (advanceIpc s))

/-- What follows a procedure that returned Ok (R31, R140, R160). -/
def procOk (s : State) : State :=
  match s.seq with
  | .sInit =>
    if s.ipc.toNat < 22 then nextCommand (iromAt s.par.toParams (s.ipc.toNat + 1)) s
    else endCommand .ok (setReady s)
  | .sCur =>
    if s.ipc.toNat < 2 then nextCommand (cursorByteAt s.cmd (s.ipc.toNat + 1)) s else endCommand .ok s
  | .idle | .prim | .sCmd | .sChr => endCommand .ok s

/-- The pointer after a primitive of a procedure that returned Ok: CCH advances, and DIX within `sendDataBytes`, which alone
writes it (R31, R132, R178). -/
def nextPrimitive (s : State) : State :=
  match s.cch with
  | .start => atChan .ctrl s
  | .ctrl => if s.seq = .sChr then atChan .payload (loadDix 0 s) else atChan .payload s
  | .payload =>
    if s.seq = .sChr ∧ s.dix.toNat < glyphW then loadDix (s.dix.toNat + 1) s else atChan .stop s
  | .stop => procOk s

/-- The pointer of a macro command after a primitive that ended with `r` (R131 to R133). -/
def channelDone (r : Result) (s : State) : State :=
  if s.cch = .stop then
    if abandoning s then procFailed .nack s
    else match r with
      | .ok => procOk s
      | .nack => procFailed .nack s
      | .timeout => procFailed .timeout s
  else match r with
    | .ok => nextPrimitive s
    | .nack => atChan .stop s
    | .timeout => procFailed .timeout s

/-- The move of the sequencer pointer when the primitive it names has ended with a result (R31, R178). -/
def movePointer (x : Result × State) : State :=
  match x.2.seq with
  | .idle => x.2
  | .prim => endWithResult x
  | .sCmd | .sInit | .sCur | .sChr => channelDone x.1 x.2

/-- The block has a byte to send at position `pos`: it runs a command whose pointer stands there, the bus is enabled, and,
but for the first byte, a transaction is open (R97, R131, R132). -/
def atPos (pos : WirePos) (s : State) : Bool :=
  s.busy && s.en && (s.opn || pos == .addr) && posOf s == some pos

/-- A byte that is the first of a transaction: a start, first or repeated, and the address byte (R93, R94). -/
def sendAddress (name : String) (ab : Byte) (s : State) : Host.Outcome State Fault Refusal :=
  if atPos .addr s then .next (movePointer (primStart ab s)) else .refused (.outOfPosition name)

/-- A later byte of a transaction, sent at its position (R97). -/
def sendAt (name : String) (pos : WirePos) (v : Byte) (s : State) : Host.Outcome State Fault Refusal :=
  if atPos pos s then .next (movePointer (xmit v s)) else .refused (.outOfPosition name)

/-- The stop condition at the end of a transaction (R96). -/
def sendStop (s : State) : Host.Outcome State Fault Refusal :=
  if s.busy && s.en && s.opn then .next (movePointer (primStop s)) else .refused (.outOfPosition "STOP")

end Sys2Proof.Machine
end

