-- ==== Sys2Proof/Machine/Wire.lean ====
section
/-! DEFINITION. The bytes on the wire, one definition per row of format WIRE8: the block puts the byte on the bus at the
position its row names, and the sequencer pointer moves by the result (R31, R76 to R79, R97, R161; log entry 10). -/

namespace Sys2Proof.Machine

/-- W_ADDR_WRITE: the first byte of a transaction, after its start condition (R76). -/
def execWAddrWrite (a : BitVec 7) (s : State) : Host.Outcome State Fault Refusal :=
  sendAddress "W_ADDR_WRITE" (addrByte a false) s

/-- W_CTRL_CMD: the control byte 0x00 of a command transaction (R77). -/
def execWCtrlCmd (s : State) : Host.Outcome State Fault Refusal :=
  sendAt "W_CTRL_CMD" .ctrlCmd ctrlCmdByte s

/-- W_CTRL_DATA: the control byte 0x40 of a data transaction (R77). -/
def execWCtrlData (s : State) : Host.Outcome State Fault Refusal :=
  sendAt "W_CTRL_DATA" .ctrlData ctrlDataByte s

/-- D_DISPLAY_OFF: the display opcode 0xAE as payload of a command transaction (R78). -/
def execDDisplayOff (s : State) : Host.Outcome State Fault Refusal :=
  sendAt "D_DISPLAY_OFF" .cmdPayload 0xAE s

/-- D_CLOCK_DIVIDE: the display opcode 0xD5 as payload of a command transaction (R78). -/
def execDClockDivide (s : State) : Host.Outcome State Fault Refusal :=
  sendAt "D_CLOCK_DIVIDE" .cmdPayload 0xD5 s

/-- D_MULTIPLEX: the display opcode 0xA8 as payload of a command transaction (R78). -/
def execDMultiplex (s : State) : Host.Outcome State Fault Refusal :=
  sendAt "D_MULTIPLEX" .cmdPayload 0xA8 s

/-- D_DISPLAY_OFFSET: the display opcode 0xD3 as payload of a command transaction (R78). -/
def execDDisplayOffset (s : State) : Host.Outcome State Fault Refusal :=
  sendAt "D_DISPLAY_OFFSET" .cmdPayload 0xD3 s

/-- D_CHARGE_PUMP: the display opcode 0x8D as payload of a command transaction (R78). -/
def execDChargePump (s : State) : Host.Outcome State Fault Refusal :=
  sendAt "D_CHARGE_PUMP" .cmdPayload 0x8D s

/-- D_ADDRESSING_MODE: the display opcode 0x20 as payload of a command transaction (R78). -/
def execDAddressingMode (s : State) : Host.Outcome State Fault Refusal :=
  sendAt "D_ADDRESSING_MODE" .cmdPayload 0x20 s

/-- D_SEGMENT_REMAP: the display opcode 0xA1 as payload of a command transaction (R78). -/
def execDSegmentRemap (s : State) : Host.Outcome State Fault Refusal :=
  sendAt "D_SEGMENT_REMAP" .cmdPayload 0xA1 s

/-- D_COM_SCAN_DEC: the display opcode 0xC8 as payload of a command transaction (R78). -/
def execDComScanDec (s : State) : Host.Outcome State Fault Refusal :=
  sendAt "D_COM_SCAN_DEC" .cmdPayload 0xC8 s

/-- D_CONTRAST: the display opcode 0x81 as payload of a command transaction (R78). -/
def execDContrast (s : State) : Host.Outcome State Fault Refusal :=
  sendAt "D_CONTRAST" .cmdPayload 0x81 s

/-- D_PRECHARGE: the display opcode 0xD9 as payload of a command transaction (R78). -/
def execDPrecharge (s : State) : Host.Outcome State Fault Refusal :=
  sendAt "D_PRECHARGE" .cmdPayload 0xD9 s

/-- D_VCOM_DESELECT: the display opcode 0xDB as payload of a command transaction (R78). -/
def execDVcomDeselect (s : State) : Host.Outcome State Fault Refusal :=
  sendAt "D_VCOM_DESELECT" .cmdPayload 0xDB s

/-- D_FOLLOW_RAM: the display opcode 0xA4 as payload of a command transaction (R78). -/
def execDFollowRam (s : State) : Host.Outcome State Fault Refusal :=
  sendAt "D_FOLLOW_RAM" .cmdPayload 0xA4 s

/-- D_NORMAL_DISPLAY: the display opcode 0xA6 as payload of a command transaction (R78). -/
def execDNormalDisplay (s : State) : Host.Outcome State Fault Refusal :=
  sendAt "D_NORMAL_DISPLAY" .cmdPayload 0xA6 s

/-- D_DISPLAY_ON: the display opcode 0xAF as payload of a command transaction (R78). -/
def execDDisplayOn (s : State) : Host.Outcome State Fault Refusal :=
  sendAt "D_DISPLAY_ON" .cmdPayload 0xAF s

/-- D_START_LINE: the display opcode `startLineByte l` as payload of a command transaction (R79). -/
def execDStartLine (l : BitVec 6) (s : State) : Host.Outcome State Fault Refusal :=
  sendAt "D_START_LINE" .cmdPayload (startLineByte l) s

/-- D_PAGE_ADDR: the display opcode `pageByte p` as payload of a command transaction (R79). -/
def execDPageAddr (p : BitVec 3) (s : State) : Host.Outcome State Fault Refusal :=
  sendAt "D_PAGE_ADDR" .cmdPayload (pageByte p) s

/-- D_COL_LOW: the display opcode `colLowByte n` as payload of a command transaction (R79). -/
def execDColLow (n : BitVec 4) (s : State) : Host.Outcome State Fault Refusal :=
  sendAt "D_COL_LOW" .cmdPayload (colLowByte n) s

/-- D_COL_HIGH: the display opcode `colHighByte h` as payload of a command transaction (R79). -/
def execDColHigh (h : BitVec 3) (s : State) : Host.Outcome State Fault Refusal :=
  sendAt "D_COL_HIGH" .cmdPayload (colHighByte h) s

/-- W_DATA_BYTE: a payload byte of a data transaction (R161). -/
def execWDataByte (d : Byte) (s : State) : Host.Outcome State Fault Refusal :=
  sendAt "W_DATA_BYTE" .dataPayload d s

end Sys2Proof.Machine
end

