-- ==== Sys2Proof/Machine/Dispatch.lean ====
section
/-! DEFINITION. The dispatch: one arm per constructor of Instr, one direct call of its meaning. -/

namespace Sys2Proof.Machine

def exec (i : Instr) (s : State) : Host.Outcome State Fault Refusal :=
  match i with
  -- host commands
  | .nop => Sys2Proof.Machine.execNop s
  | .binit => Sys2Proof.Machine.execBinit s
  | .start a r => Sys2Proof.Machine.execStart a r s
  | .wbyte v => Sys2Proof.Machine.execWbyte v s
  | .stop => Sys2Proof.Machine.execStop s
  | .scmd v => Sys2Proof.Machine.execScmd v s
  | .init => Sys2Proof.Machine.execInit s
  | .setcur p c => Sys2Proof.Machine.execSetcur p c s
  | .wchar k => Sys2Proof.Machine.execWchar k s
  | .clrerr => Sys2Proof.Machine.execClrerr s
  -- bytes on the wire
  | .wAddrWrite a => Sys2Proof.Machine.execWAddrWrite a s
  | .wCtrlCmd => Sys2Proof.Machine.execWCtrlCmd s
  | .wCtrlData => Sys2Proof.Machine.execWCtrlData s
  | .dDisplayOff => Sys2Proof.Machine.execDDisplayOff s
  | .dClockDivide => Sys2Proof.Machine.execDClockDivide s
  | .dMultiplex => Sys2Proof.Machine.execDMultiplex s
  | .dDisplayOffset => Sys2Proof.Machine.execDDisplayOffset s
  | .dChargePump => Sys2Proof.Machine.execDChargePump s
  | .dAddressingMode => Sys2Proof.Machine.execDAddressingMode s
  | .dSegmentRemap => Sys2Proof.Machine.execDSegmentRemap s
  | .dComScanDec => Sys2Proof.Machine.execDComScanDec s
  | .dContrast => Sys2Proof.Machine.execDContrast s
  | .dPrecharge => Sys2Proof.Machine.execDPrecharge s
  | .dVcomDeselect => Sys2Proof.Machine.execDVcomDeselect s
  | .dFollowRam => Sys2Proof.Machine.execDFollowRam s
  | .dNormalDisplay => Sys2Proof.Machine.execDNormalDisplay s
  | .dDisplayOn => Sys2Proof.Machine.execDDisplayOn s
  | .dStartLine l => Sys2Proof.Machine.execDStartLine l s
  | .dPageAddr p => Sys2Proof.Machine.execDPageAddr p s
  | .dColLow n => Sys2Proof.Machine.execDColLow n s
  | .dColHigh h => Sys2Proof.Machine.execDColHigh h s
  | .wDataByte d => Sys2Proof.Machine.execWDataByte d s

end Sys2Proof.Machine
end

