-- ==== Sys2Proof/Machine/Line.lean ====
section
/-! DEFINITION. The bus line engine (file 41): the line values (R110, R111), the phase programs (R113 to R118), and one
rising edge of `clk` while a command runs: the quarter counter (R112), the wait counter and its timeout (R119), the
acknowledge sample, and the passage to the next primitive with no idle cycle between. -/

namespace Sys2Proof.Machine

/-- `scl(n)`, the value of SCL in a cycle, which is also `scl_i(n)` (R110, R111). -/
def sclLine (s : State) (p : Pull) : Bool := !(s.sclOe || p.sclLow)

/-- `sda(n)` and `sda_i(n)` (R110, R111). -/
def sdaLine (s : State) (p : Pull) : Bool := !(s.sdaOe || p.sdaLow)

/-- `d_i = ~v[i]`: SDA is pulled low to send 0 (R117). -/
def pullFor (v : Byte) (i : Nat) : Bool := !v.getLsbD i

/-- Data cell: SCL low with SDA unchanged, SDA takes the bit, SCL released and awaited, SCL high for two quarters (R117). -/
def dataCell (e d : Bool) : List Item :=
  [.drive true e 1, .drive true d 1, .wait false d .scl1, .drive false d 2]

/-- The acknowledge cell (R117). -/
def ackCell (v : Byte) : List Item :=
  [.drive true (pullFor v 0) 1, .drive true false 1, .wait false false .scl1, .drive false false 1, .smp,
   .drive false false 1, .evByte v]

/-- `BYTE(v, d0)` (R117). -/
def byteItems (v : Byte) (d0 : Bool) : List Item :=
  dataCell d0 (pullFor v 7) ++ dataCell (pullFor v 7) (pullFor v 6) ++ dataCell (pullFor v 6) (pullFor v 5) ++
    dataCell (pullFor v 5) (pullFor v 4) ++ dataCell (pullFor v 4) (pullFor v 3) ++ dataCell (pullFor v 3) (pullFor v 2) ++
    dataCell (pullFor v 2) (pullFor v 1) ++ dataCell (pullFor v 1) (pullFor v 0) ++ ackCell v

/-- The bus-free wait and the start condition (R115). -/
def startItems : List Item :=
  [.wait false false .both1, .drive false false 2, .evStart, .drive false true 2]

/-- The items of a phase program: START_IDLE R115, RESTART R116, BYTE from hold R117, STOP R118. -/
def items : Prog → List Item
  | .startIdle ab => startItems ++ byteItems ab true
  | .restart ab => [.drive true false 1] ++ startItems ++ byteItems ab true
  | .byte v => byteItems v false
  | .stop =>
    [.drive true false 1, .drive true true 1, .wait false true .scl1, .drive false true 2, .wait false false .both1,
     .evStop, .drive false false 2]

/-- The byte a program transmits and the index of the item with which its transmission begins. -/
def byteOf : Prog → Option (Byte × Nat)
  | .startIdle ab => some (ab, 4)
  | .restart ab => some (ab, 5)
  | .byte v => some (v, 0)
  | .stop => none

/-- SHR and BITC where the item at index `j` is entered: a byte's first cell loads SHR, and each completed data cell counts
one and shifts SHR by one (R32, R34, R177; log entry 14). -/
def markCell (g : Prog) (j : Nat) (s : State) : State :=
  match byteOf g with
  | none => s
  | some (v, base) =>
    if j = base then { s with shr := v, bitc := 0 }
    else if base < j ∧ (j - base) % 4 = 0 ∧ j - base ≤ 32 then
      { s with
        bitc := BitVec.ofNat 4 ((j - base) / 4)
        shr := s.shr.extractLsb' 0 7 ++ BitVec.ofBool (Config.shiftIn s.cycle) }
    else s

/-- The cycles of a drive phase of `n` quarters: `n * q`, `q = BAUD`, in the 17-bit counter (R112, R113, R196). -/
def quarters (n : Nat) (s : State) : BitVec 17 := BitVec.ofNat 17 (n * s.baud.toNat)

/-- Whether a wait's condition holds of the sampled inputs (R113). -/
def holds (c : Cond) (scl sda : Bool) : Bool :=
  match c with
  | .scl1 => scl
  | .both1 => scl && sda

/-- Enters the program at index `j`: the items without duration take effect, and the first drive or wait becomes the active
item, its outputs and its counter set (R113). `sda` is the value SDA had in the cycle just ended, which `SMP` takes. The
second component is `true` where the program has ended. A wait keeps QCNT and a drive phase keeps TMO as the last phase of
the other kind left it: the model's choice, since the spec gives each only in its own kind of phase (DESIGN CHOICE, log entry
14). -/
def enter (sda : Bool) (g : Prog) (j : Nat) (rest : List Item) (s : State) : State × Bool :=
  match rest with
  | [] => (s, true)
  | .drive c d n :: _ =>
    let s := markCell g j s
    ({ s with php := some ⟨g, j⟩, sclOe := c, sdaOe := d, qcnt := quarters n s }, false)
  | .wait c d _ :: _ => ({ s with php := some ⟨g, j⟩, sclOe := c, sdaOe := d, tmo := 0 }, false)
  | .smp :: rest => enter sda g (j + 1) rest (setAckl sda s)
  | .evStart :: rest => enter sda g (j + 1) rest (startDone s)
  | .evByte v :: rest => enter sda g (j + 1) rest (logEvent (.byte v (!s.ackl)) s)
  | .evStop :: rest => enter sda g (j + 1) rest (logEvent .stop (closeBus s))

/-- The result of a program that ran to its end (R117, R118, R122). -/
def progResult (g : Prog) (s : State) : Result × State :=
  match g with
  | .stop => (.ok, s)
  | .startIdle _ | .restart _ | .byte _ => byteResult s

/-- The phase program of the primitive that the pointer names (R115 to R118). -/
def progOf (s : State) : Named → Option Prog
  | .start ab => some (if s.opn then .restart ab else .startIdle ab)
  | .byte _ v => some (.byte v)
  | .stop => some .stop
  | .noRom _ | .nothing => none

/-- Loads the program of the primitive that the pointer names: its first item is active in the next cycle (R113, R172). -/
def loadProgram (s : State) : Host.Outcome State Fault Refusal :=
  match named s with
  | .noRom a => .fault (.noRomAddress a)
  | .nothing => .refused .noPrimitive
  | p =>
    match progOf s p with
    | some g => .next (enter false g 0 (items g) s).1
    | none => .refused .noPrimitive

/-- After a primitive has ended and the pointer has moved: the next primitive with no idle cycle between, or, where the
command has ended, the resting outputs (R113, R114). -/
def proceed (s : State) : Host.Outcome State Fault Refusal :=
  if s.busy then loadProgram s else .next (restLines s)

/-- The active item has ended: the rest of the program, or the end of the primitive (R113). -/
def itemDone (sda : Bool) (ph : Phase) (s : State) : Host.Outcome State Fault Refusal :=
  match enter sda ph.prog (ph.idx + 1) ((items ph.prog).drop (ph.idx + 1)) s with
  | (s, false) => .next s
  | (s, true) => proceed (movePointer (progResult ph.prog s))

/-- A wait has lasted TIMEOUT_LIMIT cycles: the rest of the program and of the running command is dropped (R119). -/
def waitExpired (s : State) : Host.Outcome State Fault Refusal := proceed (movePointer (.timeout, timeoutAbort s))

/-- One rising edge while a command runs, with the environment's pulls in the cycle that ends (R113, R119). -/
def lineEdge (p : Pull) (s : State) : Host.Outcome State Fault Refusal :=
  match s.php with
  | none => loadProgram s
  | some ph =>
    match (items ph.prog)[ph.idx]? with
    | some (.drive _ _ _) =>
      if s.qcnt.toNat ≤ 1 then itemDone (sdaLine s p) ph s else .next { s with qcnt := s.qcnt - 1 }
    | some (.wait _ _ c) =>
      if holds c (sclLine s p) (sdaLine s p) then itemDone (sdaLine s p) ph s
      else if s.par.timeoutLimit ≤ s.tmo + 1 then waitExpired s
      else .next { s with tmo := s.tmo + 1 }
    | _ => itemDone (sdaLine s p) ph s

/-- The quarters of a program's drive phases (R123). -/
def driveQuarters : List Item → Nat
  | [] => 0
  | .drive _ _ n :: rest => n + driveQuarters rest
  | .wait _ _ _ :: rest | .smp :: rest | .evStart :: rest | .evByte _ :: rest | .evStop :: rest => driveQuarters rest

/-- The number of a program's waits (R123). -/
def waitCount : List Item → Nat
  | [] => 0
  | .wait _ _ _ :: rest => waitCount rest + 1
  | .drive _ _ _ :: rest | .smp :: rest | .evStart :: rest | .evByte _ :: rest | .evStop :: rest => waitCount rest

/-- The cycles a program takes where every wait lasts `k` cycles (R123). -/
def progCycles (q k : Nat) (g : Prog) : Nat := driveQuarters (items g) * q + waitCount (items g) * k

/-- The outputs of a program cycle by cycle where every wait lasts one cycle: `(scl_oe, sda_oe)` (R113). -/
def waveform (q : Nat) : List Item → List (Bool × Bool)
  | [] => []
  | .drive c d n :: rest => List.replicate (n * q) (c, d) ++ waveform q rest
  | .wait c d _ :: rest => (c, d) :: waveform q rest
  | .smp :: rest | .evStart :: rest | .evByte _ :: rest | .evStop :: rest => waveform q rest

end Sys2Proof.Machine
end

