-- ==== Sys2Proof/Machine/Fetch.lean ====
section
/-! DEFINITION. What a step does around `exec`: the host port (R21, R172, R176, R210), the acceptance of a command, the
fetch of the byte the sequencer pointer names (R31), and the passage of a clock cycle. -/

namespace Sys2Proof.Machine

/-- The inputs at the next edge (log entry 6). -/
def portHead (s : State) : PortIn := s.port.headD .quiet

/-- The environment's pulls in the cycle that ends (R110; log entry 5). -/
def pullHead (s : State) : Pull := s.pulls.headD (Config.linePull s.cycle)

/-- The inputs of this step are used up: one entry of the port, and at cycle grain one cycle of the lines. -/
def consume (s : State) : State :=
  match s.grain with
  | .cycle => { s with port := s.port.tail, pulls := s.pulls.tail, cycle := s.cycle + 1 }
  | .command | .primitive => { s with port := s.port.tail }

/-- A rising edge with `rst = 1`: the whole state takes its reset value; the arguments of the step go on (R210, R212). -/
def resetEdge (s : State) : State :=
  { State.reset with
    par := s.par, port := s.port, starts := s.starts, bytes := s.bytes, stops := s.stops, pulls := s.pulls
    grain := s.grain, draws := s.draws, cycle := s.cycle, ends := s.ends }

/-- A word presented while BUSY = 1 is dropped: `E_CMD <- 1`, nothing else (R176). -/
def dropWord (s : State) : State := { s with eCmd := true }

/-- A bus command begins at the accepting edge; at cycle grain its first phase occupies the next cycle (R172). -/
def beginAt (i : Instr) (s : State) : Host.Outcome State Fault Refusal :=
  match s.grain with
  | .cycle => loadProgram (begin i s)
  | .command | .primitive => .next (begin i s)

/-- An accepted and legal command: at command grain it runs to its end, as do the immediate commands at every grain; else
it begins (R172; log entry 1). -/
def runAccepted (i : Instr) (s : State) : Host.Outcome State Fault Refusal :=
  if s.grain = .command ∨ immediate i s then exec i s else beginAt i s

/-- The acceptance of a word: `CMD <- cmd_data`, and the command it decodes to, or the refusal of an illegal word (R172,
R173). -/
def accept (w : Word16) (s : State) : Host.Outcome State Fault Refusal :=
  match decode w with
  | .error _ => .next (refuse { s with cmd := w })
  | .ok i => runAccepted i { s with cmd := w }

/-- One primitive at the sequencer pointer: the byte it names is fetched, decoded at its position and executed; a byte that
is no row of the table there is sent as it is (R31, R78; log entries 10, 12). -/
def primitiveStep (s : State) : Host.Outcome State Fault Refusal :=
  match named s with
  | .nothing => .refused .noPrimitive
  | .noRom a => .fault (.noRomAddress a)
  | .stop => sendStop s
  | .start ab =>
    match decodeWire .addr ab with
    | some i => exec i s
    | none => sendAddress "START" ab s
  | .byte pos v =>
    match decodeWire pos v with
    | some i => exec i s
    | none => sendAt "BYTE_OF_NO_ROW" pos v s

/-- The running command goes on: one clock cycle at cycle grain (`p` the pulls in it), else one primitive. -/
def goOn (p : Pull) (s : State) : Host.Outcome State Fault Refusal :=
  match s.grain with
  | .cycle => lineEdge p s
  | .command | .primitive => primitiveStep s

/-- A word presented at this edge or within this primitive is dropped (R176, R189). -/
def dropIf (h : PortIn) (x : Host.Outcome State Fault Refusal) : Host.Outcome State Fault Refusal :=
  match x with
  | .next s => .next (if h.cmdValid then dropWord s else s)
  | .fault f => .fault f
  | .refused r => .refused r

/-- A step with the inputs `h` and the pulls `p`, which are used up already in `s` (R172, R176, R210). -/
def edge (h : PortIn) (p : Pull) (s : State) : Host.Outcome State Fault Refusal :=
  if h.rst then .next (resetEdge s)
  else if s.busy then dropIf h (goOn p s)
  else if h.cmdValid then accept h.cmdData s
  else .next s

/-- The step of the machine. -/
def stepOf (s : State) : Host.Outcome State Fault Refusal := edge (portHead s) (pullHead s) (consume s)

/-- A command word `w` placed where the next step accepts it: presented at the host port of an idle block (log entry 15). -/
def placeWord (s : State) (w : Word16) : State :=
  { s with
    grain := .command, busy := false, seq := .idle
    port := ⟨false, true, w⟩ :: s.port }

/-- A byte placed where the sequencer fetches it at a position: a command runs whose pointer stands there, with the byte in
the register the pointer reads it from (log entry 15). -/
def placeByte (s : State) (pos : WirePos) (b : Byte) : State :=
  let s := { s with grain := .primitive, busy := true, en := true, port := .quiet :: s.port }
  match pos with
  | .addr => { s with seq := .prim, cmd := cmdWord 0x2 0 b }
  | .ctrlCmd => { s with seq := .sCmd, cch := .ctrl, opn := true }
  | .ctrlData => { s with seq := .sChr, cch := .ctrl, opn := true }
  | .cmdPayload => { s with seq := .sCmd, cch := .payload, pb := b, opn := true }
  | .param => { s with seq := .sInit, cch := .payload, ipc := 2, pb := b, opn := true }
  | .dataPayload => { s with seq := .prim, cmd := cmdWord 0x3 0 b, opn := true }

/-- The instruction of a row of the opcode table placed where the next step fetches it. A word that is no instruction, or
is an illegal command word, is presented at the port. -/
def placeTableWord (s : State) (nbits w : Nat) : State :=
  match decodeTableWord nbits w with
  | none => placeWord s (BitVec.ofNat 16 w)
  | some i =>
    match encode i with
    | .cmd16 c => placeWord s c
    | .wire8 pos b => placeByte s pos b

end Sys2Proof.Machine
end

