-- ==== Sys2Proof/Machine/Step.lean ====
section
/-! DEFINITION. The step of the machine, and the placing of one instruction where the next step fetches it. -/

namespace Sys2Proof.Machine

/-- One step: a host command, a primitive, or a clock edge, as the grain says (Machine/Fetch.lean). -/
def step (s : State) : Host.Outcome State Fault Refusal := stepOf s

/-- The state with the instruction of an opcode-table row placed where the next step fetches it. -/
def State.withFetchWord (s : State) (nbits w : Nat) : State := placeTableWord s nbits w

end Sys2Proof.Machine
end

