-- ==== Sys2Proof/Machine/Memory.lean ====
section
/-! DEFINITION. A memory of known bytes as a list of (address, byte) pairs in one canonical form: addresses strictly rising.
An unlisted address holds no known value. The block has no memory of its own (R50): the environment's display memory is
held so (R55, R56). -/

namespace Sys2Proof.Machine

/-- Known bytes by address. -/
abbrev Memory := List Host.Cell

/-- Every address listed is above `lo`, and the addresses rise strictly. -/
def risingFrom (lo : Nat) : Memory → Bool
  | [] => true
  | (a, _) :: rest => decide (lo ≤ a) && risingFrom (a + 1) rest

/-- The canonical form. -/
def memoryWf (m : Memory) : Bool := risingFrom 0 m

/-- The byte known at an address: none where nothing is listed. -/
def readMem (m : Memory) (a : Nat) : Option Byte :=
  match m with
  | [] => none
  | (b, v) :: rest => if a = b then some v else readMem rest a

/-- The memory with byte `v` known at address `a`. -/
def writeMem (m : Memory) (a : Nat) (v : Byte) : Memory :=
  match m with
  | [] => [(a, v)]
  | (b, w) :: rest =>
    if a < b then (a, v) :: (b, w) :: rest
    else if a = b then (a, v) :: rest
    else (b, w) :: writeMem rest a v

/-- The memory with nothing known at address `a`. -/
def eraseMem (m : Memory) (a : Nat) : Memory :=
  match m with
  | [] => []
  | (b, w) :: rest => if a = b then eraseMem rest a else (b, w) :: eraseMem rest a

end Sys2Proof.Machine
end

