-- ==== Sys2Proof/Machine/Trace.lean ====
section
/-! DEFINITION. Readings of what is on the bus: the transactions of a bus trace (R33, R75), the document's mock transport
(R103), and the observer of the two lines (R121). None of it is state; no step reads it. -/

namespace Sys2Proof.Machine

/-- Collects the transactions of a trace: `cur` holds the bytes of the open transaction, newest last, and a transaction is
complete at its stop (R33). A repeated start stays within the run. -/
def transactionsFrom (cur : Option (List Byte)) : List Event → List (List Byte)
  | [] => []
  | .start :: rest => transactionsFrom (some (cur.getD [])) rest
  | .byte v _ :: rest => transactionsFrom (cur.map (· ++ [v])) rest
  | .stop :: rest =>
    match cur with
    | some bs => bs :: transactionsFrom none rest
    | none => transactionsFrom none rest
  | .timeout :: rest => transactionsFrom none rest

/-- The complete transactions of a trace, each as its bytes in order (R33). -/
def transactions (t : List Event) : List (List Byte) := transactionsFrom none t

/-- A command transaction: its first two bytes are `0x78, 0x00` (R33). -/
def isCommandTransaction (bs : List Byte) : Bool := bs.take 2 == [0x78, 0x00]

/-- A data transaction: its first two bytes are `0x78, 0x40` (R33). -/
def isDataTransaction (bs : List Byte) : Bool := bs.take 2 == [0x78, 0x40]

/-- A call recorded by the document's mock bus transport (R103). -/
inductive MockCall where
  | beginTransaction (addressByte : Byte)
  | writeByte (v : Byte)
  | endTransaction
  deriving DecidableEq, Repr

/-- What the mock transport records: each `S` together with its address byte is a `beginTransaction`, each further byte a
`writeByte`, each `P` an `endTransaction` (R103). `fresh` says that the next byte is an address byte. -/
def mockCallsFrom (fresh : Bool) : List Event → List MockCall
  | [] => []
  | .start :: rest => mockCallsFrom true rest
  | .byte v _ :: rest => (if fresh then .beginTransaction v else .writeByte v) :: mockCallsFrom false rest
  | .stop :: rest => .endTransaction :: mockCallsFrom false rest
  | .timeout :: rest => mockCallsFrom false rest

/-- The calls the mock transport records over a trace (R103). -/
def mockCalls (t : List Event) : List MockCall := mockCallsFrom false t

/-- The state of the line observer: the lines of the cycle before, and the bits of the current group of nine, first
received first; `none` outside a transaction (R121; log entry 20). -/
structure Observer where
  scl  : Bool
  sda  : Bool
  bits : Option (List Bool)
  deriving DecidableEq, Repr

/-- The byte of the first eight bits of a group, first received in bit 7 (R121). -/
def byteOfBits (bits : List Bool) : Byte :=
  bits.foldl (fun b x => (b.extractLsb' 0 7 ++ BitVec.ofBool x : Byte)) 0

/-- One cycle of the observer (R121): what it decodes from the line values `scl`, `sda` of the next cycle. -/
def observeCycle (o : Observer) (scl sda : Bool) : Observer × List Event :=
  if o.scl && scl && o.sda && !sda then (⟨scl, sda, some []⟩, [.start])
  else if o.scl && scl && !o.sda && sda then (⟨scl, sda, none⟩, [.stop])
  else if !o.scl && scl then
    match o.bits with
    | none => (⟨scl, sda, none⟩, [])
    | some bits =>
      if bits.length < 8 then (⟨scl, sda, some (bits ++ [sda])⟩, [])
      else (⟨scl, sda, some []⟩, [.byte (byteOfBits bits) (!sda)])
  else (⟨scl, sda, o.bits⟩, [])

/-- What the observer decodes from the lines cycle by cycle, `(scl, sda)` (R121). -/
def observe (o : Observer) : List (Bool × Bool) → List Event
  | [] => []
  | (scl, sda) :: rest => (observeCycle o scl sda).2 ++ observe (observeCycle o scl sda).1 rest

/-- The observer of a released bus: both lines high, outside a transaction. -/
def Observer.onIdle : Observer := ⟨true, true, none⟩

/-- The lines of outputs that nobody else pulls: a line is high where it is released (R110). -/
def linesOf (outs : List (Bool × Bool)) : List (Bool × Bool) := outs.map fun x => (!x.1, !x.2)

end Sys2Proof.Machine
end

