-- ==== Sys2Proof/Machine/Display.lean ====
section
/-! DEFINITION. The display as the ENVIRONMENT ASSUMPTION of R56 has it, computed from the bus trace: its page and column
pointers and the bytes of its memory that are known. It is no part of the block and never in State (R6, R35, R36). What the
spec does not say is unknown: `none`, a receiver of which nothing is known, a byte of memory that is not listed (log entry
19). -/

namespace Sys2Proof.Machine

/-- Where the block stands in the transaction it sends, as the trace tells it (R33, R75). -/
inductive Place where
  /-- no transaction -/
  | nothing
  /-- after a start condition -/
  | address
  /-- after the display's address byte -/
  | control
  /-- in a command transaction of the display -/
  | commands
  /-- in a data transaction of the display -/
  | datas
  /-- in a transaction that is neither -/
  | other
  deriving DecidableEq, Repr

/-- How many of SETCUR's three bytes were delivered last, one after another (R56 (a), R160). -/
inductive Cursor where
  | nothing
  /-- the page byte -/
  | page (p : BitVec 3)
  /-- the page byte and the low nibble of the column -/
  | pageLow (p : BitVec 3) (n : BitVec 4)
  deriving DecidableEq, Repr

/-- The display: its pointers, its known memory, the transaction sent to it, and the SETCUR it is being sent. -/
structure Display where
  page   : Option (BitVec 3)
  column : Option (BitVec 7)
  mem    : Memory
  place  : Place
  /-- the receiver has followed the transaction so far; `false`: nothing is known of it until the next start condition, as
  after a timeout (U8), a byte not acknowledged, or the one payload byte of a command transaction (R75) -/
  heard  : Bool
  cursor : Cursor
  deriving DecidableEq, Repr

/-- Nothing is known of the display (R37, R219, N32, U8). -/
def Display.unknown : Display := ⟨none, none, [], .nothing, false, .nothing⟩

/-- The address of column `c` of page `p` in the known memory: 8 pages of 128 columns (R55). -/
def displayAddr (p : BitVec 3) (c : BitVec 7) : Nat := p.toNat * displayWidth + c.toNat

/-- The pointers are undefined to the host (R36, R219); `k` is what was delivered of a SETCUR. -/
def losePointers (k : Cursor) (d : Display) : Display := { d with page := none, column := none, cursor := k }

/-- The last byte of a SETCUR: where the two before it were its page and its low nibble, the pointers are those it asks for,
whatever the display had received before (R56 (a)); alone it says nothing of the pointers. -/
def cursorDone (h : BitVec 3) (d : Display) : Display :=
  match d.cursor with
  | .pageLow p n => { d with page := some p, column := some (h ++ n), cursor := .nothing }
  | .nothing | .page _ => losePointers .nothing d

/-- The display gets the payload byte of a command transaction. R56 (a) speaks of the three bytes of SETCUR and of no other
opcode, so any other byte, and SETCUR's before the third, leave the pointers unknown. The memory holds what it held: it is
reached only by the data bytes of a data transaction (R55, R214). -/
def displayCommand (b : Byte) (d : Display) : Display :=
  match decodeOpcode b with
  | some (.dPageAddr p) => losePointers (.page p) d
  | some (.dColLow n) =>
    match d.cursor with
    | .page p => losePointers (.pageLow p n) d
    | .nothing | .pageLow _ _ => losePointers .nothing d
  | some (.dColHigh h) => cursorDone h d
  | _ => losePointers .nothing d

/-- The pointers after a data byte at column `c`: the column is one more, the page the same (R56 (b), (c)). What they are after
a data byte at column 127 the spec leaves unspecified (N14, U3): both are unknown. -/
def advanceColumn (c : BitVec 7) (d : Display) : Display :=
  if c.toNat < displayWidth - 1 then { d with column := some (c + 1) } else losePointers d.cursor d

/-- The display gets a data byte: stored at its pointers, the column pointer one further (R56 (b), (c)). Where the pointers
are unknown the byte lands at an unknown place, so no byte of the memory is known any more. -/
def displayData (b : Byte) (d : Display) : Display :=
  match d.page, d.column with
  | some p, some c => advanceColumn c { d with mem := writeMem d.mem (displayAddr p c) b, cursor := .nothing }
  | _, _ => losePointers .nothing { d with mem := [] }

/-- The pointers and the receiver are unknown from here (R219, U2, U8). -/
def loseTrack (d : Display) : Display := losePointers .nothing { d with heard := false }

/-- The byte at the pointers may have been written, in whole or in part, or not: it is unknown (U8), and where the pointers
are unknown so is every byte. -/
def spoilCell (d : Display) : Display :=
  { d with mem := match d.page, d.column with
    | some p, some c => eraseMem d.mem (displayAddr p c)
    | _, _ => [] }

/-- The transaction is the display's or another device's (R76). -/
def afterAddress (b : Byte) (d : Display) : Display := { d with place := if b = devAddrByte then .control else .other }

/-- The transaction is one of commands or of data (R77). What another control byte does is not said, but the transaction is
then no data transaction (R33), so the memory holds what it held (R55). -/
def afterControl (b : Byte) (d : Display) : Display :=
  if b = ctrlCmdByte then { d with place := .commands }
  else if b = ctrlDataByte then { d with place := .datas, cursor := .nothing }
  else { loseTrack d with place := .other }

/-- The display gets a byte, acknowledged, of a transaction its receiver has followed (R75). The payload of a command
transaction is one byte, and the spec does not say what a second one would be. -/
def displayByte (b : Byte) (d : Display) : Display :=
  match d.place with
  | .nothing | .other => d
  | .address => afterAddress b d
  | .control => afterControl b d
  | .commands => displayCommand b { d with heard := false }
  | .datas => displayData b d

/-- A byte of which the display may have received anything, or nothing (R219, U2, U8). The memory holds what it held but for
the byte at the pointers, in a data transaction (R55, R214). -/
def missByte (b : Byte) (d : Display) : Display :=
  match d.place with
  | .nothing | .commands | .other => loseTrack d
  | .address => afterAddress b (loseTrack d)
  | .control => afterControl b (loseTrack d)
  | .datas => loseTrack (spoilCell d)

/-- A primitive was abandoned by a timeout, and the display may have received any part of it (U8): one byte at most, so the
memory holds what it held but for the byte at the pointers, in a data transaction (R55, R214). The transaction is over (R98).
-/
def missRest (d : Display) : Display :=
  { loseTrack (if d.place = .datas then spoilCell d else d) with place := .nothing }

/-- The display after one event of the bus trace. A start condition begins a transaction for every receiver. -/
def displayEvent (d : Display) (e : Event) : Display :=
  match e with
  | .start => { d with place := .address, heard := true }
  | .stop => { d with place := .nothing }
  | .byte v acked => if acked && d.heard then displayByte v d else missByte v d
  | .timeout => missRest d

/-- The display after a bus trace, from a display of which nothing is known (R37, R56). -/
def displayAfter (d : Display) (t : List Event) : Display := t.foldl displayEvent d

end Sys2Proof.Machine
end

