-- ==== Sys2Proof/Machine/Pseudo.lean ====
section
/-! DEFINITION. The pseudo-instructions and their expansions (R81, R162, R213), and the assembler syntax of the ten host
commands (R80). -/

namespace Sys2Proof.Machine

/-- `WSTR s`: one WCHAR per character in order (R81, R162). -/
def expandString (s : List Byte) : List Instr := s.map .wchar

/-- The expansion of a pseudo-instruction into host commands (R81). -/
def expand : Pseudo → List Instr
  | .wstr s => expandString s
  | .sdata bs => [.start devAddr false, .wbyte ctrlDataByte] ++ bs.map .wbyte ++ [.stop]
  | .text c p s => .setcur p c :: expandString s
  | .boot => [.binit, .init]

/-- The assembler line of a host command, numbers in decimal (R80); the bytes on the wire have none. -/
def asmLine : Instr → Option String
  | .nop => some "NOP"
  | .binit => some "BINIT"
  | .start a r => some ("START " ++ Nat.repr a.toNat ++ (if r then ", R" else ", W"))
  | .wbyte v => some ("WBYTE " ++ Nat.repr v.toNat)
  | .stop => some "STOP"
  | .scmd v => some ("SCMD " ++ Nat.repr v.toNat)
  | .init => some "INIT"
  | .setcur p c => some ("SETCUR " ++ Nat.repr c.toNat ++ ", " ++ Nat.repr p.toNat)
  | .wchar k => some ("WCHAR " ++ Nat.repr k.toNat)
  | .clrerr => some "CLRERR"
  | .wAddrWrite _ | .wCtrlCmd | .wCtrlData => none
  | .dDisplayOff | .dClockDivide | .dMultiplex | .dDisplayOffset | .dChargePump | .dAddressingMode => none
  | .dSegmentRemap | .dComScanDec | .dContrast | .dPrecharge | .dVcomDeselect | .dFollowRam => none
  | .dNormalDisplay | .dDisplayOn | .dStartLine _ | .dPageAddr _ | .dColLow _ | .dColHigh _ | .wDataByte _ => none

end Sys2Proof.Machine
end

