-- ==== Sys2Proof/Safety.lean ====
section
/-! DEFINITION. The terms in which statements are made: the invariant of the reachable states (R38 and the ranges of R31 to
R34), a well-behaved environment (R91), the events of a successful transaction (R131, R132), and what a bus command leaves
behind and leaves unchanged. -/

namespace Sys2Proof.Machine

/-- The invariant (R38; the ranges of R28, R31, R32, R34). -/
structure Inv (s : State) : Prop where
  /-- `OPEN = 1` implies `EN = 1` -/
  openEnabled : s.opn = true → s.en = true
  /-- `READY = 1` implies `EN = 1` -/
  readyEnabled : s.ready = true → s.en = true
  /-- a command that uses the bus runs only while `EN = 1` (R174) -/
  busyEnabled : s.busy = true → s.en = true
  /-- `BUSY = 0` if and only if `SEQ = IDLE` -/
  busyRuns : s.busy = false ↔ s.seq = .idle
  /-- `EN = 0` implies `scl_oe = sda_oe = 0` and `BAUD = 0` -/
  disabled : s.en = false → s.sclOe = false ∧ s.sdaOe = false ∧ s.baud = 0
  /-- `EN = 1` implies `BAUD = QDIV` -/
  programmed : s.en = true → s.baud = qdivWord s.par.toParams
  /-- `BUSY = 0 and OPEN = 0` implies `scl_oe = sda_oe = 0` -/
  idleLines : s.busy = false → s.opn = false → s.sclOe = false ∧ s.sdaOe = false
  /-- `BUSY = 0 and OPEN = 1` implies `scl_oe = 1 and sda_oe = 0` -/
  holdLines : s.busy = false → s.opn = true → s.sclOe = true ∧ s.sdaOe = false
  /-- `LAST` is one of 0 to 5 -/
  lastKnown : s.last.toNat ≤ 5
  /-- `IPC` is 0 to 22 (R31) -/
  ipcRange : s.ipc.toNat ≤ 22
  /-- `DIX` is 0 to 5 (R31) -/
  dixRange : s.dix.toNat ≤ 5
  /-- `GIDX` is 0 to 25 (R32) -/
  gidxRange : s.gidx.toNat ≤ 25
  /-- `BITC` is 0 to 8 (R32) -/
  bitcRange : s.bitc.toNat ≤ 8
  /-- `QCNT` is at most `2 * 65535` (R34) -/
  qcntRange : s.qcnt.toNat ≤ 131070
  /-- `TMO` is at most `TIMEOUT_LIMIT` (R34) -/
  tmoRange : s.tmo ≤ s.par.timeoutLimit

/-- The next `a` starts find the bus free, the next `b` bytes are acknowledged, the next `c` stops are done: a well-behaved
display for as long as a command asks (R91). -/
structure GoodDraws (a b c : Nat) (s : State) : Prop where
  starts : s.starts.take a = List.replicate a .free
  bytes : s.bytes.take b = List.replicate b .acked
  stops : s.stops.take c = List.replicate c .done

/-- What a successful `sendCommand(op)` appends to the trace (R131). -/
def commandEvents (op : Byte) : List Event :=
  [.start, .byte 0x78 true, .byte 0x00 true, .byte op true, .stop]

/-- What a successful `sendDataBytes(bs)` appends to the trace (R132). -/
def dataEvents (bs : List Byte) : List Event :=
  [.start, .byte 0x78 true, .byte 0x40 true] ++ bs.map (fun b => .byte b true) ++ [.stop]

/-- What the transaction with bytes `bs` has appended to the trace when byte `j` is the first not acknowledged: no later byte
is sent (R131 to R133). -/
def nackedAt (bs : List Byte) (j : Nat) : List Event :=
  .start :: (bs.take j).map (fun b => .byte b true) ++ ((bs.drop j).take 1).map (fun b => .byte b false)

/-- What the transaction with bytes `bs` has appended to the trace when time runs out after `j` acknowledged bytes: nothing
follows the T (R98). -/
def timedOutAt (bs : List Byte) (j : Nat) : List Event :=
  .start :: (bs.take j).map (fun b => .byte b true) ++ [.timeout]

/-- The environment's next answers are listed: the starts `a`, the bytes `b`, the stops `c` (R91). -/
structure NextDraws (a : List StartOutcome) (b : List ByteOutcome) (c : List StopOutcome) (s : State) : Prop where
  starts : a <+: s.starts
  bytes : b <+: s.bytes
  stops : c <+: s.stops

/-- A byte whose draw is `o` returns Ok, and the trace records it as `acked`: it was acknowledged, or it was not and the policy
is Ignore (R97, R99). -/
def goesOn (s : State) (o : ByteOutcome) (acked : Bool) : Prop :=
  (o = .acked ∧ acked = true) ∨ (o = .nacked ∧ s.par.nackPolicy = .ignore ∧ acked = false)

/-- The draw that a wire byte at position `pos` meets: the first byte of a transaction follows the draw of its start (R93). -/
def wireDraw (pos : WirePos) (s : State) : ByteOutcome :=
  if pos = .addr then (drawByte (drawStart s).2).1 else (drawByte s).1

/-- The start condition that comes before the first byte of a transaction (R93). -/
def wireStart (pos : WirePos) : List Event := if pos = .addr then [.start] else []

/-- What no bus command changes: CMD, EN, E_GLYPH, E_CMD, BAUD, and the step's other arguments. -/
structure BusFrame (s t : State) : Prop where
  cmd : t.cmd = s.cmd
  en : t.en = s.en
  eGlyph : t.eGlyph = s.eGlyph
  eCmd : t.eCmd = s.eCmd
  baud : t.baud = s.baud
  par : t.par = s.par
  port : t.port = s.port
  pulls : t.pulls = s.pulls
  grain : t.grain = s.grain
  cycle : t.cycle = s.cycle

/-- A bus command has ended: it appended `evs` to the trace, left OPEN at `isOpen` and the outputs at rest (R114), LAST at
`code`, set E_TIMEOUT if `timedOut` and E_NACK if `nacked`, and the block is idle; the rest is as before. -/
structure Ended (s t : State) (evs : List Event) (isOpen : Bool) (code : BitVec 3) (timedOut nacked : Bool) : Prop where
  trace : t.trace = s.trace ++ evs
  opn : t.opn = isOpen
  last : t.last = code
  eTimeout : t.eTimeout = (s.eTimeout || timedOut)
  eNack : t.eNack = (s.eNack || nacked)
  lines : t.sclOe = isOpen ∧ t.sdaOe = false
  idle : t.busy = false ∧ t.seq = .idle
  frame : BusFrame s t

/-- `Ended`, with READY and E_INIT unchanged: what every bus command but INIT leaves. -/
structure EndedPlain (s t : State) (evs : List Event) (isOpen : Bool) (code : BitVec 3) (timedOut nacked : Bool) : Prop where
  ended : Ended s t evs isOpen code timedOut nacked
  ready : t.ready = s.ready
  eInit : t.eInit = s.eInit

/-- What a byte of a macro command that returned Ok leaves unchanged when the command goes on: all but the trace, SHR, ACKL, OPEN
and the lines, which are at hold, and the pointer's CCH and DIX. BITC, PHP, QCNT and TMO are among what it leaves because a
whole byte is one step (log entry 1); at the line level the bus engine writes them (R32, R34). -/
structure ByteFrame (s t : State) : Prop where
  bus : BusFrame s t
  busy : t.busy = s.busy
  seq : t.seq = s.seq
  ready : t.ready = s.ready
  last : t.last = s.last
  eTimeout : t.eTimeout = s.eTimeout
  eNack : t.eNack = s.eNack
  eInit : t.eInit = s.eInit
  ipc : t.ipc = s.ipc
  pb : t.pb = s.pb
  gidx : t.gidx = s.gidx
  bitc : t.bitc = s.bitc
  php : t.php = s.php
  qcnt : t.qcnt = s.qcnt
  tmo : t.tmo = s.tmo
  ends : t.ends = s.ends
  hold : t.opn = true ∧ t.sclOe = true ∧ t.sdaOe = false

/-- The five sticky flags of `t` are at least those of `s` (R29). -/
structure StickyKept (s t : State) : Prop where
  eTimeout : s.eTimeout = true → t.eTimeout = true
  eNack : s.eNack = true → t.eNack = true
  eInit : s.eInit = true → t.eInit = true
  eGlyph : s.eGlyph = true → t.eGlyph = true
  eCmd : s.eCmd = true → t.eCmd = true

/-- `s` with other values in the five sticky flags. -/
def withSticky (a b c d e : Bool) (s : State) : State :=
  { s with eTimeout := a, eNack := b, eInit := c, eGlyph := d, eCmd := e }

/-- `s` with the registers of U9 as in `x`: those that no host command reads before it writes them. -/
def withScratch (x s : State) : State :=
  { s with
    ipc := x.ipc, cch := x.cch, dix := x.dix, pb := x.pb, gidx := x.gidx, shr := x.shr, bitc := x.bitc, php := x.php
    qcnt := x.qcnt, tmo := x.tmo }

/-- The host inputs of an edge at which a word `w` is presented and `rst = 0`. -/
def presents (w : Word16) : PortIn := ⟨false, true, w⟩

/-- The ten host commands (R71). -/
def isHostCommand (i : Instr) : Prop := ∃ w, encode i = .cmd16 w

/-- The macro commands SCMD, INIT, SETCUR and WCHAR (glossary). -/
def isMacro (i : Instr) : Prop :=
  (∃ v, i = .scmd v) ∨ i = .init ∨ (∃ p c, i = .setcur p c) ∨ (∃ k, i = .wchar k)

/-- The host issues commands one after another, each accepted while the block is idle (R162, R172). -/
def execAll : List Instr → State → Host.Outcome State Fault Refusal
  | [], s => .next s
  | i :: rest, s =>
    match exec i s with
    | .next t => execAll rest t
    | .fault f => .fault f
    | .refused r => .refused r

end Sys2Proof.Machine
end

