-- ==== Sys2Proof/Certificates/Slice0/Obligations.lean ====
section
/-! DEFINITION. The statements for the provers. Each docstring names the rule of spec/ the statement formalises. -/

open Sys2Proof Sys2Proof.Machine

/-! ### Encoding -/

/-- R71, R72, R74, R76 to R79: decoding the code of a well-formed instruction gives the instruction back. -/
def Obligations.DecodeEncodeRoundTrip : Prop :=
  ∀ i : Instr, i.wellFormed = true → decodeCode (encode i) = some i

/-- R72, R74: a code that decodes is the code of the instruction it decodes to, which is well formed: no bit of a legal
word is dropped, and no two words or bytes at one position are the same instruction. -/
def Obligations.EncodeDecodeRoundTrip : Prop :=
  ∀ (c : Code) (i : Instr), decodeCode c = some i → encode i = c ∧ i.wellFormed = true

/-- R74: the ten match and mask rows of format CMD16, with the operands each selects; a word that matches none is illegal. -/
def Obligations.DecodeFollowsTheTable : Prop :=
  ∀ w : Word16,
    (w &&& 0xFFFF = 0x0000 → decode w = .ok .nop) ∧
    (w &&& 0xFFFF = 0x1000 → decode w = .ok .binit) ∧
    (w &&& 0xFF01 = 0x2000 → decode w = .ok (.start (w.extractLsb' 1 7) false)) ∧
    (w &&& 0xFF00 = 0x3000 → decode w = .ok (.wbyte (w.extractLsb' 0 8))) ∧
    (w &&& 0xFFFF = 0x4000 → decode w = .ok .stop) ∧
    (w &&& 0xFF00 = 0x5000 → decode w = .ok (.scmd (w.extractLsb' 0 8))) ∧
    (w &&& 0xFFFF = 0x6000 → decode w = .ok .init) ∧
    (w &&& 0xF880 = 0x7000 → decode w = .ok (.setcur (w.extractLsb' 8 3) (w.extractLsb' 0 7))) ∧
    (w &&& 0xFF00 = 0x8000 → decode w = .ok (.wchar (w.extractLsb' 0 8))) ∧
    (w &&& 0xFFFF = 0x9000 → decode w = .ok .clrerr) ∧
    (w &&& 0xFFFF ≠ 0x0000 → w &&& 0xFFFF ≠ 0x1000 → w &&& 0xFF01 ≠ 0x2000 → w &&& 0xFF00 ≠ 0x3000 →
      w &&& 0xFFFF ≠ 0x4000 → w &&& 0xFF00 ≠ 0x5000 → w &&& 0xFFFF ≠ 0x6000 → w &&& 0xF880 ≠ 0x7000 →
      w &&& 0xFF00 ≠ 0x8000 → w &&& 0xFFFF ≠ 0x9000 → ∃ e, decode w = .error e)

/-- Sanity: words written out from the bit patterns of R71 and of the opcode table decode to their instructions. -/
def Obligations.WrittenOutWordsDecode : Prop :=
  decode 0b0010000001111000#16 = .ok (.start 0x3C false) ∧
  decode 0b0111001100100101#16 = .ok (.setcur 3 37) ∧
  decode 0b1000000000110000#16 = .ok (.wchar 0x30) ∧
  decode 0b0101000010101110#16 = .ok (.scmd 0xAE) ∧
  decode 0b0010000001111001#16 = .error .readDirection ∧
  decode 0b1010000000000000#16 = .error .opcode ∧
  decodeWire .addr 0b01111000#8 = some (.wAddrWrite 0x3C) ∧
  decodeWire .cmdPayload 0b10110011#8 = some (.dPageAddr 3) ∧
  decodeWire .cmdPayload 0b10101110#8 = some .dDisplayOff ∧
  decodeWire .dataPayload 0b10101110#8 = some (.wDataByte 0xAE)

/-- R79: the computed opcode bytes, their ranges, and that OR and addition agree. -/
def Obligations.ComputedOpcodeBytes : Prop :=
  (∀ p : BitVec 3, (pageByte p).toNat = 0xB0 + p.toNat ∧ pageByte p = 0xB0 ||| p.setWidth 8 ∧
    0xB0 ≤ (pageByte p).toNat ∧ (pageByte p).toNat ≤ 0xB7) ∧
  (∀ c : BitVec 7, (colLowByte (colLow c)).toNat = c.toNat % 16 ∧
    colLowByte (colLow c) = 0x00 ||| (c.extractLsb' 0 4).setWidth 8 ∧ (colLowByte (colLow c)).toNat ≤ 0x0F) ∧
  (∀ c : BitVec 7, (colHighByte (colHigh c)).toNat = 0x10 + c.toNat / 16 ∧
    colHighByte (colHigh c) = 0x10 ||| (c.extractLsb' 4 3).setWidth 8 ∧
    0x10 ≤ (colHighByte (colHigh c)).toNat ∧ (colHighByte (colHigh c)).toNat ≤ 0x17) ∧
  (∀ l : BitVec 6, (startLineByte l).toNat = 0x40 + l.toNat ∧ startLineByte l = 0x40 ||| l.setWidth 8 ∧
    0x40 ≤ (startLineByte l).toNat ∧ (startLineByte l).toNat ≤ 0x7F)

/-! ### The step -/

/-- R172: a step of an idle block at whose port a legal word is presented runs the decoded command: the word is in CMD, the
inputs are used up, and the command runs to its end (at command grain, and at every grain if it is immediate), or begins
(a bus command at the finer grains; at cycle grain with its first phase active); where no word is presented nothing happens.
The grains are the model's (log entry 1). -/
def Obligations.AcceptedCommandRuns : Prop :=
  (∀ (s : State) (rest : List PortIn), s.port = .quiet :: rest → s.busy = false → step s = .next (consume s)) ∧
  ∀ (s : State) (h : PortIn) (rest : List PortIn) (i : Instr),
    s.port = h :: rest → h.rst = false → h.cmdValid = true → s.busy = false → decode h.cmdData = .ok i →
    let a : State := { consume s with cmd := h.cmdData }
    (s.grain = .command → step s = exec i a) ∧
    (immediate i a = true → step s = exec i a) ∧
    (s.grain = .primitive → immediate i a = false → step s = .next (begin i a)) ∧
    (s.grain = .cycle → immediate i a = false → step s = loadProgram (begin i a))

/-- R31: at primitive grain a step of a busy block fetches the byte the sequencer pointer names, and runs the row of the
table that it is at its position. The rows as instructions of the sequencer are the model's (log entry 10). -/
def Obligations.FetchedWireByteRuns : Prop :=
  ∀ (s : State) (pos : WirePos) (v : Byte) (i : Instr),
    s.busy = true → s.grain = .primitive → (portHead s).rst = false → (portHead s).cmdValid = false →
    (named s = .byte pos v ∨ (named s = .start v ∧ pos = .addr)) → decodeWire pos v = some i →
    step s = exec i (consume s)

/-- R173, R174: an illegal word (a START with `r = 1` among them, in every state), and a command in a state of the table of
R174, sets E_CMD and LAST = 5 and changes nothing else; NOP and CLRERR are never refused. -/
def Obligations.RefusalOnlyRecords : Prop :=
  (∀ (s : State) (w : Word16) (rest : List PortIn) (e : Illegal),
    s.port = presents w :: rest → s.busy = false → decode w = .error e →
    step s = .next { consume s with cmd := w, eCmd := true, last := 5 }) ∧
  (∀ s : State, s.en = true → exec .binit s = .next { s with eCmd := true, last := 5 }) ∧
  (∀ (s : State) (a : BitVec 7), s.en = false → exec (.start a false) s = .next { s with eCmd := true, last := 5 }) ∧
  (∀ (s : State) (a : BitVec 7), exec (.start a true) s = .next { s with eCmd := true, last := 5 }) ∧
  (∀ (s : State) (v : Byte), s.en = false ∨ s.opn = false → exec (.wbyte v) s = .next { s with eCmd := true, last := 5 }) ∧
  (∀ s : State, s.en = false ∨ s.opn = false → exec .stop s = .next { s with eCmd := true, last := 5 }) ∧
  (∀ (s : State) (v : Byte), s.en = false ∨ s.opn = true → exec (.scmd v) s = .next { s with eCmd := true, last := 5 }) ∧
  (∀ s : State, s.en = false ∨ s.opn = true ∨ s.ready = true →
    exec .init s = .next { s with eCmd := true, last := 5 }) ∧
  (∀ (s : State) (p : BitVec 3) (c : BitVec 7), s.en = false ∨ s.opn = true ∨ s.ready = false →
    exec (.setcur p c) s = .next { s with eCmd := true, last := 5 }) ∧
  (∀ (s : State) (k : Byte), s.en = false ∨ s.opn = true ∨ s.ready = false →
    exec (.wchar k) s = .next { s with eCmd := true, last := 5 }) ∧
  (∀ s : State, exec .nop s = .next { s with last := 0 }) ∧
  (∀ s t : State, exec .clrerr s = .next t → t.last = 0 ∧ t.eCmd = false)

/-- R176: a word presented while BUSY = 1 is dropped: whatever the running command does in that step it does with the word
too, and E_CMD is set besides.
At primitive and command grain one entry of the port stands for a whole primitive or command (log entry 9). -/
def Obligations.WordDroppedWhileBusy : Prop :=
  ∀ (s t : State) (w : Word16) (rest : List PortIn),
    s.busy = true → step { s with port := .quiet :: rest } = .next t →
    step { s with port := presents w :: rest } = .next { t with eCmd := true }

/-- R210, R37: at an edge with `rst = 1` every register takes its reset value, whatever else that edge would have done, and
a word presented there is neither accepted nor dropped.
The model's own: the trace is emptied, where R37 lets a model keep it (log entry 17), the parameter set and the rest of the
port are kept (log entries 2 and 18), and at primitive grain the reset stands in place of a primitive (log entry 9). -/
def Obligations.ResetEdgeTakesResetValues : Prop :=
  ∀ (s : State) (h : PortIn) (rest : List PortIn), s.port = h :: rest → h.rst = true →
    ∃ t, step s = .next t ∧
      t.en = false ∧ t.opn = false ∧ t.ready = false ∧ t.busy = false ∧ t.last = 0 ∧
      t.eTimeout = false ∧ t.eNack = false ∧ t.eInit = false ∧ t.eGlyph = false ∧ t.eCmd = false ∧
      status t = 0x0000 ∧ t.baud = 0x0000 ∧ t.cmd = 0x0000 ∧ t.seq = .idle ∧
      t.ipc = 0 ∧ t.dix = 0 ∧ t.gidx = 0 ∧ t.bitc = 0 ∧ t.cch = .start ∧ t.pb = 0x00 ∧ t.shr = 0x00 ∧ t.ackl = true ∧
      t.php = none ∧ t.qcnt = 0 ∧ t.tmo = 0 ∧ t.sclOe = false ∧ t.sdaOe = false ∧ t.trace = [] ∧
      t.par = s.par ∧ t.port = rest

/-- R211: after reset `status` and `baud` are 0 and both lines released, and the block starts nothing by itself: while the
host presents nothing it stays in the reset state. -/
def Obligations.ResetStateStays : Prop :=
  status State.reset = 0x0000 ∧ State.reset.baud = 0x0000 ∧ State.reset.seq = .idle ∧
  State.reset.sclOe = false ∧ State.reset.sdaOe = false ∧
  ∀ n : Nat, Host.Core.run core n { State.reset with port := List.replicate n .quiet } = .next State.reset

/-- R38: the invariant holds after reset. -/
def Obligations.InvariantAtReset : Prop := Inv State.reset

/-- R38: every step keeps the invariant, at every grain, whatever host and environment do. -/
def Obligations.StepKeepsInvariant : Prop :=
  ∀ s t : State, Inv s → step s = .next t → Inv t

/-- R23: the layout of the status word; bits 7 and 15:13 read 0 in every state (also R38). -/
def Obligations.StatusReservedBitsZero : Prop :=
  ∀ s : State, (status s).getLsbD 7 = false ∧ (status s).extractLsb' 13 3 = 0 ∧
    (status s).getLsbD 0 = s.busy ∧ (status s).getLsbD 1 = s.en ∧ (status s).getLsbD 2 = s.opn ∧
    (status s).getLsbD 3 = s.ready ∧ (status s).extractLsb' 4 3 = s.last ∧ (status s).getLsbD 8 = s.eTimeout ∧
    (status s).getLsbD 9 = s.eNack ∧ (status s).getLsbD 10 = s.eInit ∧ (status s).getLsbD 11 = s.eGlyph ∧
    (status s).getLsbD 12 = s.eCmd

/-- R29: no step clears a sticky flag, but a reset and the acceptance of a CLRERR. -/
def Obligations.StickyFlagsStay : Prop :=
  ∀ s t : State, (portHead s).rst = false → ¬ (s.busy = false ∧ (portHead s).cmdValid = true ∧
    decode (portHead s).cmdData = .ok .clrerr) → step s = .next t → StickyKept s t

/-- R24, R26, R30: but for a reset, EN and READY are never cleared, and BAUD is written only while EN = 0. -/
def Obligations.EnableReadyBaudStay : Prop :=
  ∀ s t : State, (portHead s).rst = false → step s = .next t →
    (s.en = true → t.en = true) ∧ (s.ready = true → t.ready = true) ∧ (s.en = true → t.baud = s.baud)

/-- R26, R143: READY is set only by INIT: by a step that accepts one, or of a running one. -/
def Obligations.ReadySetOnlyByInit : Prop :=
  ∀ s t : State, step s = .next t → s.ready = false → t.ready = true →
    (s.busy = false ∧ (portHead s).cmdValid = true ∧ decode (portHead s).cmdData = .ok .init ∧ t.last = 0) ∨
    (s.busy = true ∧ s.seq = .sInit ∧ t.last = 0)

/-- R33: but for a reset, a step only appends to the bus trace. -/
def Obligations.TraceOnlyGrows : Prop :=
  ∀ s t : State, (portHead s).rst = false → step s = .next t → ∃ evs, t.trace = s.trace ++ evs

/-- 00_scope.md section 5 (a parameter is "a constant of one instance of the block, fixed before reset and never changed"): no
step changes the parameter set. That State carries it is the model's choice (log entry 2), and so is the grain, which no step
changes either (log entry 1). -/
def Obligations.ParametersNeverChange : Prop :=
  ∀ s t : State, step s = .next t → t.par = s.par ∧ t.grain = s.grain

/-! ### System commands -/

/-- R170: NOP clears LAST and changes nothing else, in every state; a word with `op` 0 and other bits set is illegal. -/
def Obligations.NopClearsLast : Prop :=
  (∀ s : State, exec .nop s = .next { s with last := 0 }) ∧ decode 0x0000 = .ok .nop ∧
  (∀ w : Word16, w.extractLsb' 12 4 = 0 → w.extractLsb' 0 12 ≠ 0 → ∃ e, decode w = .error e)

/-- R171: CLRERR clears the five sticky flags and LAST and changes nothing else, in every state; a word with `op` 9 and
other bits set is illegal. -/
def Obligations.ClrerrClearsFlags : Prop :=
  (∀ s : State, exec .clrerr s =
    .next { s with eTimeout := false, eNack := false, eInit := false, eGlyph := false, eCmd := false, last := 0 }) ∧
  decode 0x9000 = .ok .clrerr ∧
  (∀ w : Word16, w.extractLsb' 12 4 = 9 → w.extractLsb' 0 12 ≠ 0 → ∃ e, decode w = .error e)

/-- R92: BINIT is the word 0x1000; with EN = 0 it programs BAUD with QDIV, sets EN and LAST = 0 and changes nothing else; with EN = 1 it is
refused. QDIV is `ceil(F_CLK_HZ / (4 * F_SCL_HZ))` (R8), the least n with `n * 4 * F_SCL_HZ >= F_CLK_HZ`. -/
def Obligations.BinitProgramsAndEnables : Prop :=
  decode 0x1000 = .ok .binit ∧
  (∀ s : State, s.en = false →
    exec .binit s = .next { s with baud := BitVec.ofNat 16 (qdiv s.par.toParams), en := true, last := 0 }) ∧
  (∀ s : State, s.en = true → exec .binit s = .next { s with eCmd := true, last := 5 }) ∧
  (∀ p : Params, 0 < p.fSclHz → p.fClkHz ≤ qdiv p * (4 * p.fSclHz) ∧
    ∀ n : Nat, p.fClkHz ≤ n * (4 * p.fSclHz) → qdiv p ≤ n)

/-! ### Host primitives -/

/-- R93, R94 (and R97, R98, R114): START with EN = 1, the bus closed or open, for every answer of the environment. -/
def Obligations.StartIssuesStartAndAddress : Prop :=
  ∀ (a : BitVec 7) (s : State), s.en = true →
    ∃ t, exec (.start a false) s = .next t ∧
      match (drawStart s).1, (drawByte (drawStart s).2).1 with
      | .expired, _ => EndedPlain s t [.timeout] false 1 true false ∧ t.ackl = s.ackl
      | .free, .expired => EndedPlain s t [.start, .timeout] false 1 true false ∧ t.ackl = s.ackl
      | .free, .acked => EndedPlain s t [.start, .byte (a ++ 0#1) true] true 0 false false ∧ t.ackl = false
      | .free, .nacked =>
        (s.par.nackPolicy = .report → EndedPlain s t [.start, .byte (a ++ 0#1) false] true 2 false true) ∧
        (s.par.nackPolicy = .ignore → EndedPlain s t [.start, .byte (a ++ 0#1) false] true 0 false false) ∧
        t.ackl = true

/-- R95: WBYTE is the word `0x3000 | v`, illegal where bits 11:8 are not 0, refused where EN = 0 or OPEN = 0; else it sends
its byte, for every answer of the environment (the outcomes are those of R97, R98 and R114). -/
def Obligations.WbyteSendsItsByte : Prop :=
  (∀ v : Byte, decode (0x3000 ||| v.setWidth 16) = .ok (.wbyte v)) ∧
  (∀ w : Word16, w.extractLsb' 12 4 = 3 → w.extractLsb' 8 4 ≠ 0 → ∃ e, decode w = .error e) ∧
  (∀ (v : Byte) (s : State), s.en = false ∨ s.opn = false →
    exec (.wbyte v) s = .next { s with eCmd := true, last := 5 }) ∧
  ∀ (v : Byte) (s : State), s.en = true → s.opn = true →
    ∃ t, exec (.wbyte v) s = .next t ∧
      match (drawByte s).1 with
      | .expired => EndedPlain s t [.timeout] false 1 true false ∧ t.ackl = s.ackl
      | .acked => EndedPlain s t [.byte v true] true 0 false false ∧ t.ackl = false
      | .nacked =>
        (s.par.nackPolicy = .report → EndedPlain s t [.byte v false] true 2 false true) ∧
        (s.par.nackPolicy = .ignore → EndedPlain s t [.byte v false] true 0 false false) ∧
        t.ackl = true

/-- R96: STOP is the word 0x4000, illegal where other bits are set, refused where EN = 0 or OPEN = 0; else it leaves the bus
closed, for every answer of the environment (the outcomes are those of R98 and R114). -/
def Obligations.StopClosesTheBus : Prop :=
  decode 0x4000 = .ok .stop ∧
  (∀ w : Word16, w.extractLsb' 12 4 = 4 → w.extractLsb' 0 12 ≠ 0 → ∃ e, decode w = .error e) ∧
  (∀ s : State, s.en = false ∨ s.opn = false → exec .stop s = .next { s with eCmd := true, last := 5 }) ∧
  ∀ s : State, s.en = true → s.opn = true →
    ∃ t, exec .stop s = .next t ∧ t.ackl = s.ackl ∧
      match (drawStop s).1 with
      | .expired => EndedPlain s t [.timeout] false 1 true false
      | .done => EndedPlain s t [.stop] false 0 false false

/-- R98: `timeout_abort` releases both lines, clears OPEN, sets E_TIMEOUT and appends T: no stop condition is attempted; a
primitive whose draw is Expired ends so and returns Timeout. -/
def Obligations.TimeoutAbortReleases : Prop :=
  (∀ s : State, timeoutAbort s =
    { s with sclOe := false, sdaOe := false, opn := false, eTimeout := true, trace := s.trace ++ [.timeout] }) ∧
  (∀ (s : State) (v : Byte), (drawByte s).1 = .expired →
    xmit v s = (.timeout, timeoutAbort (drawByte { s with shr := v }).2)) ∧
  (∀ (s : State) (ab : Byte), (drawStart s).1 = .expired → primStart ab s = (.timeout, timeoutAbort (drawStart s).2)) ∧
  (∀ s : State, (drawStop s).1 = .expired → primStop s = (.timeout, timeoutAbort (drawStop s).2))

/-- R99: with Ignore a byte that was not acknowledged is recorded and latched in ACKL, sets none of the five flags and returns
Ok; with Report it sets E_NACK, and no other flag, and returns Nack. -/
def Obligations.AcknowledgePolicy : Prop :=
  ∀ (v : Byte) (s : State), (drawByte s).1 = .nacked →
    (s.par.nackPolicy = .ignore →
      (xmit v s).1 = .ok ∧ (xmit v s).2.trace = s.trace ++ [.byte v false] ∧ (xmit v s).2.ackl = true ∧
      (xmit v s).2.eNack = s.eNack ∧ (xmit v s).2.eTimeout = s.eTimeout ∧ (xmit v s).2.eInit = s.eInit ∧
      (xmit v s).2.eGlyph = s.eGlyph ∧ (xmit v s).2.eCmd = s.eCmd ∧ (xmit v s).2.opn = s.opn) ∧
    (s.par.nackPolicy = .report →
      (xmit v s).1 = .nack ∧ (xmit v s).2.trace = s.trace ++ [.byte v false] ∧ (xmit v s).2.ackl = true ∧
      (xmit v s).2.eNack = true ∧ (xmit v s).2.eTimeout = s.eTimeout ∧ (xmit v s).2.eInit = s.eInit ∧
      (xmit v s).2.eGlyph = s.eGlyph ∧ (xmit v s).2.eCmd = s.eCmd ∧ (xmit v s).2.opn = s.opn)

/-! ### Macro commands -/

/-- R130, R131: SCMD in a state that allows it, with a well-behaved display: one command transaction. -/
def Obligations.ScmdSendsOneCommand : Prop :=
  ∀ (v : Byte) (s : State), s.en = true → s.opn = false → GoodDraws 1 3 1 s →
    ∃ t, exec (.scmd v) s = .next t ∧ EndedPlain s t (commandEvents v) false 0 false false ∧ t.ackl = false

/-- R131, R133, R160, R161: a byte that is the first not acknowledged, under Report, in SCMD (byte `j`: 0 address, 1 control, 2
payload), in step `k` of SETCUR, and in WCHAR (0 address, 1 control, 2 to 7 payload): no later byte and no later step is sent,
the transaction is closed, and the code is that of the first error whatever the closing stop does. -/
def Obligations.ScmdAbandonsAtNack : Prop :=
  (∀ (v : Byte) (s : State) (j : Nat), j < 3 → s.en = true → s.opn = false → s.par.nackPolicy = .report →
    s.starts.take 1 = [.free] → s.bytes.take (j + 1) = List.replicate j .acked ++ [.nacked] →
    let sent : List Event := nackedAt [0x78, 0x00, v] j
    (s.stops.take 1 = [.done] →
      ∃ t, exec (.scmd v) s = .next t ∧ EndedPlain s t (sent ++ [.stop]) false 2 false true ∧ t.ackl = true) ∧
    (s.stops.take 1 = [.expired] →
      ∃ t, exec (.scmd v) s = .next t ∧ EndedPlain s t (sent ++ [.timeout]) false 2 true true ∧ t.ackl = true)) ∧
  (∀ (p : BitVec 3) (c : BitVec 7) (s : State) (k j : Nat), k < 3 → j < 3 →
    s.en = true → s.opn = false → s.ready = true → s.par.nackPolicy = .report →
    let ops : List Byte := [0xB0 ||| p.setWidth 8, (c.extractLsb' 0 4).setWidth 8, 0x10 ||| (c.extractLsb' 4 3).setWidth 8]
    let sent : List Event := (ops.take k).flatMap commandEvents ++ nackedAt [0x78, 0x00, ops.getD k 0] j
    let bytes : List ByteOutcome := List.replicate (3 * k + j) .acked ++ [.nacked]
    (NextDraws (List.replicate (k + 1) .free) bytes (List.replicate k .done ++ [.done]) s →
      ∃ t, exec (.setcur p c) s = .next t ∧ EndedPlain s t (sent ++ [.stop]) false 2 false true ∧ t.ackl = true) ∧
    (NextDraws (List.replicate (k + 1) .free) bytes (List.replicate k .done ++ [.expired]) s →
      ∃ t, exec (.setcur p c) s = .next t ∧ EndedPlain s t (sent ++ [.timeout]) false 2 true true ∧ t.ackl = true)) ∧
  (∀ (ch : Byte) (g : List Byte) (s : State) (j : Nat), j < 8 → s.en = true → s.opn = false → s.ready = true →
    s.par.nackPolicy = .report → glyph s.par.toParams ch = some g →
    let sent : List Event := nackedAt (0x78 :: 0x40 :: (g ++ [0x00])) j
    let bytes : List ByteOutcome := List.replicate j .acked ++ [.nacked]
    (NextDraws [.free] bytes [.done] s →
      ∃ t, exec (.wchar ch) s = .next t ∧ EndedPlain s t (sent ++ [.stop]) false 2 false true ∧ t.ackl = true) ∧
    (NextDraws [.free] bytes [.expired] s →
      ∃ t, exec (.wchar ch) s = .next t ∧ EndedPlain s t (sent ++ [.timeout]) false 2 true true ∧ t.ackl = true))

/-- R98, R131, R133, R160, R161: SCMD, step `k` of SETCUR, or WCHAR, whose start, whose byte number `j`, or whose stop runs out
of time: nothing follows the T, no later step is sent, and the code is 1. -/
def Obligations.ScmdEndsAtTimeout : Prop :=
  (∀ (v : Byte) (s : State), s.en = true → s.opn = false →
    (s.starts.take 1 = [.expired] →
      ∃ t, exec (.scmd v) s = .next t ∧ EndedPlain s t [.timeout] false 1 true false) ∧
    (∀ j < 3, s.starts.take 1 = [.free] → s.bytes.take (j + 1) = List.replicate j .acked ++ [.expired] →
      ∃ t, exec (.scmd v) s = .next t ∧ EndedPlain s t (timedOutAt [0x78, 0x00, v] j) false 1 true false) ∧
    (s.starts.take 1 = [.free] → s.bytes.take 3 = [.acked, .acked, .acked] → s.stops.take 1 = [.expired] →
      ∃ t, exec (.scmd v) s = .next t ∧ EndedPlain s t
        [.start, .byte 0x78 true, .byte 0x00 true, .byte v true, .timeout] false 1 true false)) ∧
  (∀ (p : BitVec 3) (c : BitVec 7) (s : State) (k : Nat), k < 3 → s.en = true → s.opn = false → s.ready = true →
    let ops : List Byte := [0xB0 ||| p.setWidth 8, (c.extractLsb' 0 4).setWidth 8, 0x10 ||| (c.extractLsb' 4 3).setWidth 8]
    let before : List Event := (ops.take k).flatMap commandEvents
    (NextDraws (List.replicate k .free ++ [.expired]) (List.replicate (3 * k) .acked) (List.replicate k .done) s →
      ∃ t, exec (.setcur p c) s = .next t ∧ EndedPlain s t (before ++ [.timeout]) false 1 true false) ∧
    (∀ j < 3, NextDraws (List.replicate (k + 1) .free) (List.replicate (3 * k + j) .acked ++ [.expired])
        (List.replicate k .done) s →
      ∃ t, exec (.setcur p c) s = .next t ∧
        EndedPlain s t (before ++ timedOutAt [0x78, 0x00, ops.getD k 0] j) false 1 true false) ∧
    (NextDraws (List.replicate (k + 1) .free) (List.replicate (3 * k + 3) .acked) (List.replicate k .done ++ [.expired]) s →
      ∃ t, exec (.setcur p c) s = .next t ∧
        EndedPlain s t (before ++ timedOutAt [0x78, 0x00, ops.getD k 0] 3) false 1 true false)) ∧
  (∀ (ch : Byte) (g : List Byte) (s : State), s.en = true → s.opn = false → s.ready = true →
    glyph s.par.toParams ch = some g →
    let bs : List Byte := 0x78 :: 0x40 :: (g ++ [0x00])
    (NextDraws [.expired] [] [] s →
      ∃ t, exec (.wchar ch) s = .next t ∧ EndedPlain s t [.timeout] false 1 true false) ∧
    (∀ j < 8, NextDraws [.free] (List.replicate j .acked ++ [.expired]) [] s →
      ∃ t, exec (.wchar ch) s = .next t ∧ EndedPlain s t (timedOutAt bs j) false 1 true false) ∧
    (NextDraws [.free] (List.replicate 8 .acked) [.expired] s →
      ∃ t, exec (.wchar ch) s = .next t ∧ EndedPlain s t (timedOutAt bs 8) false 1 true false))

/-- R132: `sendDataBytes` of any list, with a well-behaved display: one transaction with all the bytes in order. -/
def Obligations.DataBytesInOneTransaction : Prop :=
  ∀ (bs : List Byte) (s : State), GoodDraws 1 (bs.length + 2) 1 s →
    (sendDataBytes bs s).1 = .ok ∧ (sendDataBytes bs s).2.trace = s.trace ++ dataEvents bs ∧
    (sendDataBytes bs s).2.opn = false

/-- R38, R133, R190: whatever the environment answers, a macro command that is not refused leaves the bus closed and both
lines released, the block idle, and EN, BAUD and the other commands' flags unchanged. -/
def Obligations.MacroLeavesBusClosed : Prop :=
  ∀ (i : Instr) (s : State), isMacro i → stateRefuses i s = false →
    ∃ t, exec i s = .next t ∧ t.opn = false ∧ (s.busy = false → t.busy = false) ∧
      (s.sclOe = false → s.sdaOe = false → t.sclOe = false ∧ t.sdaOe = false) ∧
      t.en = s.en ∧ t.baud = s.baud ∧ t.cmd = s.cmd ∧ t.eCmd = s.eCmd ∧ t.par = s.par ∧ t.port = s.port

/-- R141: the 23 bytes of the initialisation ROM in order; with the default parameters, the bytes R141 lists. -/
def Obligations.InitRomContents : Prop :=
  (∀ p : Params, irom p =
    [0xAE, 0xD5, p.initClkdiv, 0xA8, 0x3F, 0xD3, p.initOffset, 0x40 ||| p.initStartline.setWidth 8, 0x8D, 0x14, 0x20, 0x00,
     0xA1, 0xC8, 0x81, p.initContrast, 0xD9, p.initPrecharge, 0xDB, p.initVcomh, 0xA4, 0xA6, 0xAF] ∧
    (irom p).length = 23) ∧
  (∀ p : Params, p.initClkdiv = 0x80 → p.initOffset = 0x00 → p.initStartline = 0 → p.initContrast = 0xCF →
    p.initPrecharge = 0xF1 → p.initVcomh = 0x40 → irom p =
    [0xAE, 0xD5, 0x80, 0xA8, 0x3F, 0xD3, 0x00, 0x40, 0x8D, 0x14, 0x20, 0x00, 0xA1, 0xC8, 0x81, 0xCF, 0xD9, 0xF1, 0xDB, 0x40,
     0xA4, 0xA6, 0xAF])

/-- R140, R143: INIT in a state that allows it, with a well-behaved display: 23 command transactions in index order, then
READY = 1 and LAST = 0. -/
def Obligations.InitSendsTheSequence : Prop :=
  ∀ s : State, s.en = true → s.opn = false → s.ready = false → GoodDraws 23 69 23 s →
    ∃ t, exec .init s = .next t ∧ Ended s t ((irom s.par.toParams).flatMap commandEvents) false 0 false false ∧
      t.ready = true ∧ t.eInit = s.eInit ∧ t.ackl = false

/-- R140, R142, R183: INIT whose step `k` is the first that fails, because its start, its byte number `j` or its stop runs out
of time, or because its byte `j` is not acknowledged, under Report: the steps before it were sent, nothing after the failing
step's own events, READY stays 0, E_INIT and code 3. -/
def Obligations.InitStopsAtFirstFailure : Prop :=
  (∀ (s : State) (k : Nat), k < 23 → s.en = true → s.opn = false → s.ready = false → GoodDraws k (3 * k) k s →
    s.starts[k]? = some .expired →
    ∃ t, exec .init s = .next t ∧
      Ended s t (((irom s.par.toParams).take k).flatMap commandEvents ++ [.timeout]) false 3 true false ∧
      t.ready = false ∧ t.eInit = true) ∧
  (∀ (s : State) (k : Nat), k < 23 → s.en = true → s.opn = false → s.ready = false →
    let before : List Event := ((irom s.par.toParams).take k).flatMap commandEvents
    let bs : List Byte := [0x78, 0x00, (irom s.par.toParams).getD k 0]
    (∀ j < 3, s.par.nackPolicy = .report →
      NextDraws (List.replicate (k + 1) .free) (List.replicate (3 * k + j) .acked ++ [.nacked])
        (List.replicate k .done ++ [.done]) s →
      ∃ t, exec .init s = .next t ∧ Ended s t (before ++ nackedAt bs j ++ [.stop]) false 3 false true ∧
        t.ready = false ∧ t.eInit = true) ∧
    (∀ j < 3, s.par.nackPolicy = .report →
      NextDraws (List.replicate (k + 1) .free) (List.replicate (3 * k + j) .acked ++ [.nacked])
        (List.replicate k .done ++ [.expired]) s →
      ∃ t, exec .init s = .next t ∧ Ended s t (before ++ nackedAt bs j ++ [.timeout]) false 3 true true ∧
        t.ready = false ∧ t.eInit = true) ∧
    (∀ j < 3, NextDraws (List.replicate (k + 1) .free) (List.replicate (3 * k + j) .acked ++ [.expired])
        (List.replicate k .done) s →
      ∃ t, exec .init s = .next t ∧ Ended s t (before ++ timedOutAt bs j) false 3 true false ∧
        t.ready = false ∧ t.eInit = true) ∧
    (NextDraws (List.replicate (k + 1) .free) (List.replicate (3 * k + 3) .acked) (List.replicate k .done ++ [.expired]) s →
      ∃ t, exec .init s = .next t ∧ Ended s t (before ++ timedOutAt bs 3) false 3 true false ∧
        t.ready = false ∧ t.eInit = true))

/-- R140, R143, R183, R190: INIT that is not refused ends in one of two ways, whatever the environment answers: READY = 1
and LAST = 0, or READY = 0, E_INIT = 1 and LAST = 3. -/
def Obligations.InitSucceedsOrReports : Prop :=
  ∀ s : State, s.en = true → s.opn = false → s.ready = false →
    ∃ t, exec .init s = .next t ∧ t.opn = false ∧ BusFrame s t ∧
      ((t.ready = true ∧ t.last = 0 ∧ t.eInit = s.eInit) ∨ (t.ready = false ∧ t.last = 3 ∧ t.eInit = true))

/-- R160: SETCUR in a state that allows it, with a well-behaved display: exactly three command transactions, page, low
nibble, high nibble. -/
def Obligations.SetcurSendsThreeCommands : Prop :=
  ∀ (p : BitVec 3) (c : BitVec 7) (s : State), s.en = true → s.opn = false → s.ready = true → GoodDraws 3 9 3 s →
    ∃ t, exec (.setcur p c) s = .next t ∧ EndedPlain s t
      (commandEvents (0xB0 ||| p.setWidth 8) ++ commandEvents (0x00 ||| (c.extractLsb' 0 4).setWidth 8) ++
        commandEvents (0x10 ||| (c.extractLsb' 4 3).setWidth 8)) false 0 false false ∧ t.ackl = false

/-- R150: `glyph(c)` succeeds exactly for `0x20`, `0x21` and `0x30` to `0x39`, with the five ROM bytes of row `c - 32`. -/
def Obligations.GlyphLookup : Prop :=
  ∀ (p : Params) (c : Byte),
    ((c = 0x20 ∨ c = 0x21 ∨ (0x30 ≤ c.toNat ∧ c.toNat ≤ 0x39)) →
      glyph p c = some [gromAt p (5 * (c.toNat - 32) + 0), gromAt p (5 * (c.toNat - 32) + 1),
        gromAt p (5 * (c.toNat - 32) + 2), gromAt p (5 * (c.toNat - 32) + 3), gromAt p (5 * (c.toNat - 32) + 4)]) ∧
    (¬ (c = 0x20 ∨ c = 0x21 ∨ (0x30 ≤ c.toNat ∧ c.toNat ≤ 0x39)) → glyph p c = none)

/-- R153: the row of `'0'`, whatever the parameter GLYPH_ROM holds. -/
def Obligations.ZeroGlyphRow : Prop :=
  ∀ p : Params, gromAt p 80 = 0x7C ∧ gromAt p 81 = 0x12 ∧ gromAt p 82 = 0x11 ∧ gromAt p 83 = 0x12 ∧ gromAt p 84 = 0x7C ∧
    glyph p 0x30 = some [0x7C, 0x12, 0x11, 0x12, 0x7C]

/-- R161: WCHAR of a supported character in a state that allows it, with a well-behaved display: one data transaction of the
five glyph bytes and the separator. -/
def Obligations.WcharSendsOneCell : Prop :=
  ∀ (k : Byte) (g : List Byte) (s : State), s.en = true → s.opn = false → s.ready = true → glyph s.par.toParams k = some g →
    GoodDraws 1 8 1 s →
    ∃ t, exec (.wchar k) s = .next t ∧ EndedPlain s t (dataEvents (g ++ [0x00])) false 0 false false ∧ t.ackl = false

/-- R184: WCHAR of any code other than `0x20`, `0x21`, `0x30` to `0x39` sets E_GLYPH and LAST = 4 and changes nothing else;
where the state forbids WCHAR it is refused instead (R161, R174, R189).
That the registers of U9 are no exception is the model's reading (log entry 23). -/
def Obligations.UnsupportedGlyphReported : Prop :=
  ∀ (k : Byte) (s : State), ¬ (k = 0x20 ∨ k = 0x21 ∨ (0x30 ≤ k.toNat ∧ k.toNat ≤ 0x39)) →
    (s.en = true → s.opn = false → s.ready = true → exec (.wchar k) s = .next { s with eGlyph := true, last := 4 }) ∧
    (s.en = false ∨ s.opn = true ∨ s.ready = false → exec (.wchar k) s = .next { s with eCmd := true, last := 5 })

/-- R166: SETCUR then WCHAR of a supported character, with a well-behaved display: three command transactions and then one
data transaction of six payload bytes. -/
def Obligations.CursorThenCharacter : Prop :=
  ∀ (p : BitVec 3) (c : BitVec 7) (k : Byte) (g : List Byte) (s : State),
    s.en = true → s.opn = false → s.ready = true → glyph s.par.toParams k = some g → GoodDraws 4 17 4 s →
    let evs := commandEvents (0xB0 ||| p.setWidth 8) ++ commandEvents ((c.extractLsb' 0 4).setWidth 8) ++
      commandEvents (0x10 ||| (c.extractLsb' 4 3).setWidth 8) ++ dataEvents (g ++ [0x00])
    ∃ t, execAll [.setcur p c, .wchar k] s = .next t ∧ t.trace = s.trace ++ evs ∧
      transactions evs = [[0x78, 0x00, 0xB0 ||| p.setWidth 8], [0x78, 0x00, (c.extractLsb' 0 4).setWidth 8],
        [0x78, 0x00, 0x10 ||| (c.extractLsb' 4 3).setWidth 8], 0x78 :: 0x40 :: (g ++ [0x00])] ∧
      ((transactions evs).map List.length).sum = 17 ∧ (g ++ [0x00]).length = 6 ∧ t.last = 0 ∧ t.ready = true ∧
      t.opn = false

/-- R81, R162: WSTR of n supported characters, with a well-behaved display: n data transactions of six payload bytes in
order; the empty string expands to no command. -/
def Obligations.StringOneTransactionPerCharacter : Prop :=
  expand (.wstr []) = [] ∧
  ∀ (cs : List Byte) (s : State), s.en = true → s.opn = false → s.ready = true →
    (∀ k ∈ cs, (glyph s.par.toParams k).isSome = true) → GoodDraws cs.length (8 * cs.length) cs.length s →
    ∃ t, execAll (expand (.wstr cs)) s = .next t ∧
      t.trace = s.trace ++ cs.flatMap (fun k => dataEvents ((glyph s.par.toParams k).getD [] ++ [0x00])) ∧
      (cs.flatMap (fun k => (glyph s.par.toParams k).getD [] ++ [0x00])).length = 6 * cs.length

/-! ### All commands -/

/-- R187: which command can end with which code, an illegal word only with 5; code 2 only with the policy Report. -/
def Obligations.PossibleResultCodes : Prop :=
  ∀ s t : State,
    (exec .nop s = .next t ∨ exec .clrerr s = .next t → t.last = 0) ∧
    (∀ w rest e, s.port = presents w :: rest → s.busy = false → decode w = .error e → step s = .next t → t.last = 5) ∧
    (exec .binit s = .next t → t.last = 0 ∨ t.last = 5) ∧
    (∀ a r, exec (.start a r) s = .next t → t.last = 0 ∨ t.last = 1 ∨ t.last = 2 ∨ t.last = 5) ∧
    (∀ v, exec (.wbyte v) s = .next t → t.last = 0 ∨ t.last = 1 ∨ t.last = 2 ∨ t.last = 5) ∧
    (exec .stop s = .next t → t.last = 0 ∨ t.last = 1 ∨ t.last = 5) ∧
    (∀ v, exec (.scmd v) s = .next t → t.last = 0 ∨ t.last = 1 ∨ t.last = 2 ∨ t.last = 5) ∧
    (exec .init s = .next t → t.last = 0 ∨ t.last = 3 ∨ t.last = 5) ∧
    (∀ p c, exec (.setcur p c) s = .next t → t.last = 0 ∨ t.last = 1 ∨ t.last = 2 ∨ t.last = 5) ∧
    (∀ k, exec (.wchar k) s = .next t → t.last = 0 ∨ t.last = 1 ∨ t.last = 2 ∨ t.last = 4 ∨ t.last = 5) ∧
    (∀ i, isHostCommand i → s.par.nackPolicy = .ignore → exec i s = .next t → t.last ≠ 2)

/-- R29, R192: the sticky flags block nothing and no command reads them: a host command run with other values in them does
the same but for those flags. -/
def Obligations.StickyFlagsBlockNothing : Prop :=
  ∀ (i : Instr) (s t : State) (a b c d e : Bool), isHostCommand i → exec i s = .next t →
    ∃ a' b' c' d' e', exec i (withSticky a b c d e s) = .next (withSticky a' b' c' d' e' t)

/-- R32, U9: no host command reads a register of U9 before it writes it: with other values in them it does the same; an
immediate command leaves them as they were, a bus command leaves the same values in both runs.
The values left are the model's free values (log entry 7). -/
def Obligations.ScratchRegistersNotRead : Prop :=
  ∀ (i : Instr) (s x t : State), isHostCommand i → exec i s = .next t →
    (immediate i s = true → exec i (withScratch x s) = .next (withScratch x t)) ∧
    (immediate i s = false → exec i (withScratch x s) = .next t)

/-- R31, R101, R178: the sequencer refines the big-step rules: from where a bus command begins, at most 92 primitives at the
pointer bring the block to exactly the state the command's big-step rule gives, whatever the environment answers.
The grains are the model's (log entry 1), and so are the quiet host of the empty port (log entry 6) and where the first error
is kept (log entry 13). -/
def Obligations.SequencerRefinesCommands : Prop :=
  ∀ (w : Word16) (i : Instr) (s : State), decode w = .ok i → s.cmd = w → s.grain = .primitive → s.port = [] →
    s.busy = false → immediate i s = false →
    ∃ n t, 0 < n ∧ n ≤ 92 ∧ Host.Core.run core n (begin i s) = .next t ∧ exec i s = .next t ∧ t.busy = false

/-! ### Bytes on the wire -/

/-- R76, R93, R94, R99: W_ADDR_WRITE at the first position of a transaction, the bus free and the byte acknowledged (or not,
under Ignore): the start condition and the address byte; a macro command's pointer is then at the control byte, and a host
START ends with code 0.
The rows as instructions of the sequencer are the model's reading (log entry 10), and that BITC, PHP, QCNT and TMO keep their
values is the model's grain, in which a whole byte is one step (log entry 1): at the line level R32 and R34 have them written. -/
def Obligations.AddressByteSent : Prop :=
  ∀ (a : BitVec 7) (s : State) (acked : Bool), atPos .addr s = true →
    (drawStart s).1 = .free → goesOn s (drawByte (drawStart s).2).1 acked →
    (s.seq ≠ .prim →
      ∃ t, exec (.wAddrWrite a) s = .next t ∧ t.trace = s.trace ++ [.start, .byte (a ++ 0#1) acked] ∧
        t.shr = a ++ 0#1 ∧ t.ackl = !acked ∧ t.cch = .ctrl ∧ t.dix = s.dix ∧ ByteFrame s t) ∧
    (s.seq = .prim →
      ∃ t, exec (.wAddrWrite a) s = .next t ∧ EndedPlain s t [.start, .byte (a ++ 0#1) acked] true 0 false false ∧
        t.ackl = !acked)

/-- R77, R99, R131, R132: the control bytes W_CTRL_CMD and W_CTRL_DATA at their positions, acknowledged (or not, under Ignore):
the byte is sent and the pointer is at the payload; DIX is cleared in a data transaction and in no other.
The rows as instructions of the sequencer are the model's reading (log entry 10), and that BITC, PHP, QCNT and TMO keep their
values is the model's grain, in which a whole byte is one step (log entry 1): at the line level R32 and R34 have them written. -/
def Obligations.ControlByteSent : Prop :=
  ∀ (s : State) (i : Instr) (pos : WirePos) (b : Byte) (acked : Bool),
    (i = .wCtrlCmd ∧ pos = .ctrlCmd ∧ b = 0x00) ∨ (i = .wCtrlData ∧ pos = .ctrlData ∧ b = 0x40) →
    atPos pos s = true → goesOn s (drawByte s).1 acked →
    ∃ t, exec i s = .next t ∧ t.trace = s.trace ++ [.byte b acked] ∧ t.shr = b ∧ t.ackl = !acked ∧ t.cch = .payload ∧
      (pos = .ctrlCmd → t.dix = s.dix) ∧ (pos = .ctrlData → t.dix = 0) ∧ ByteFrame s t

/-- R78, R79, R99, R131: every display opcode (D_DISPLAY_OFF, D_CLOCK_DIVIDE, D_MULTIPLEX, D_DISPLAY_OFFSET, D_CHARGE_PUMP,
D_ADDRESSING_MODE, D_SEGMENT_REMAP, D_COM_SCAN_DEC, D_CONTRAST, D_PRECHARGE, D_VCOM_DESELECT, D_FOLLOW_RAM,
D_NORMAL_DISPLAY, D_DISPLAY_ON, D_START_LINE, D_PAGE_ADDR, D_COL_LOW, D_COL_HIGH) as the payload of a command transaction,
acknowledged (or not, under Ignore): the byte is sent and the pointer is at the stop.
The rows as instructions of the sequencer are the model's reading (log entry 10), and that BITC, PHP, QCNT and TMO keep their
values is the model's grain, in which a whole byte is one step (log entry 1): at the line level R32 and R34 have them written. -/
def Obligations.DisplayOpcodeSent : Prop :=
  ∀ (s : State) (i : Instr) (b : Byte) (acked : Bool), encode i = .wire8 .cmdPayload b →
    atPos .cmdPayload s = true → goesOn s (drawByte s).1 acked →
    ∃ t, exec i s = .next t ∧ t.trace = s.trace ++ [.byte b acked] ∧ t.shr = b ∧ t.ackl = !acked ∧ t.cch = .stop ∧
      t.dix = s.dix ∧ ByteFrame s t

/-- R95, R99, R132, R161: W_DATA_BYTE, acknowledged (or not, under Ignore): the byte is sent; in the data transaction of WCHAR
the pointer is then at the next data byte, or, after the separator, at the stop, and a host WBYTE ends with code 0.
The rows as instructions of the sequencer, and the position of a host WBYTE, are the model's reading (log entries 10, 11), and
that BITC, PHP, QCNT and TMO keep their values is the model's grain, in which a whole byte is one step (log entry 1): at the
line level R32 and R34 have them written. -/
def Obligations.DataByteSent : Prop :=
  ∀ (s : State) (d : Byte) (acked : Bool), atPos .dataPayload s = true → goesOn s (drawByte s).1 acked →
    (s.seq = .sChr → s.dix.toNat ≤ 5 →
      ∃ t, exec (.wDataByte d) s = .next t ∧ t.trace = s.trace ++ [.byte d acked] ∧ t.shr = d ∧ t.ackl = !acked ∧
        (s.dix.toNat < 5 → t.dix = s.dix + 1 ∧ t.cch = .payload) ∧ (s.dix.toNat = 5 → t.dix = s.dix ∧ t.cch = .stop) ∧
        ByteFrame s t) ∧
    (s.seq = .prim →
      ∃ t, exec (.wDataByte d) s = .next t ∧ EndedPlain s t [.byte d acked] true 0 false false ∧ t.ackl = !acked)

/-- R97, R98, R133, R140, R183: a byte on the wire that fails. Not acknowledged, under Report: the procedure of a macro command
goes to its closing stop, and a host primitive ends with code 2. Out of time, the byte or the start before it: the command
ends with code 1, or 3 and E_INIT if it is INIT, and the bus is closed.
The rows as instructions of the sequencer are the model's reading (log entry 10), and that the closing stop knows the first
error from ACKL and the policy (`abandoning t`) is log entry 13. -/
def Obligations.WireByteFailureExits : Prop :=
  ∀ (s : State) (i : Instr) (pos : WirePos) (b : Byte), encode i = .wire8 pos b → atPos pos s = true →
    ((pos = .addr → (drawStart s).1 = .free) → wireDraw pos s = .nacked → s.par.nackPolicy = .report →
      (s.seq ≠ .prim →
        ∃ t, exec i s = .next t ∧ t.trace = s.trace ++ (wireStart pos ++ [.byte b false]) ∧ t.cch = .stop ∧ t.busy = true ∧
          t.opn = true ∧ t.eNack = true ∧ t.last = s.last ∧ abandoning t = true ∧ BusFrame s t) ∧
      (s.seq = .prim → ∃ t, exec i s = .next t ∧ EndedPlain s t (wireStart pos ++ [.byte b false]) true 2 false true)) ∧
    ((pos = .addr → (drawStart s).1 = .free) → wireDraw pos s = .expired →
      (s.seq ≠ .sInit → ∃ t, exec i s = .next t ∧ EndedPlain s t (wireStart pos ++ [.timeout]) false 1 true false) ∧
      (s.seq = .sInit → ∃ t, exec i s = .next t ∧ Ended s t (wireStart pos ++ [.timeout]) false 3 true false ∧
        t.ready = s.ready ∧ t.eInit = true)) ∧
    (pos = .addr → (drawStart s).1 = .expired →
      (s.seq ≠ .sInit → ∃ t, exec i s = .next t ∧ EndedPlain s t [.timeout] false 1 true false) ∧
      (s.seq = .sInit → ∃ t, exec i s = .next t ∧ Ended s t [.timeout] false 3 true false ∧
        t.ready = s.ready ∧ t.eInit = true))

/-- R74, R97: a wire-byte row where the sequencer does not stand at its position has no meaning (the model's stop, log entry
10): "Called only with EN = 1 and OPEN = 1". -/
def Obligations.WireByteOutOfPositionRefused : Prop :=
  ∀ (s : State) (i : Instr) (pos : WirePos) (b : Byte), encode i = .wire8 pos b → atPos pos s = false →
    ∃ m, exec i s = .refused (.outOfPosition m)

/-! ### The line engine -/

/-- R113, R115 to R118, R123: the drive quarters and the waits of each phase program, hence its cycles without stretching
and its upper bound. -/
def Obligations.ProgramCycleCounts : Prop :=
  ∀ (q k : Nat) (v : Byte),
    progCycles q k (.byte v) = 36 * q + 9 * k ∧ progCycles q k (.startIdle v) = 40 * q + 10 * k ∧
    progCycles q k (.restart v) = 41 * q + 10 * k ∧ progCycles q k .stop = 6 * q + 2 * k ∧
    progCycles q k (.startIdle v) + 2 * progCycles q k (.byte v) + progCycles q k .stop = 118 * q + 30 * k ∧
    ∀ n : Nat, progCycles q k (.startIdle v) + (n + 1) * progCycles q k (.byte v) + progCycles q k .stop =
      (82 + 36 * n) * q + (21 + 9 * n) * k

/-- R113, R119: a wait whose condition does not hold in a cycle counts it, and at TIMEOUT_LIMIT cycles the command is
dropped: lines released, OPEN = 0, E_TIMEOUT, T in the trace, BUSY = 0, and LAST the command's failure code.
The instant at which TMO counts is the model's reading (log entry 14), the first error the one of log entry 13. -/
def Obligations.WaitCountsAndTimesOut : Prop :=
  ∀ (s : State) (ph : Phase) (c d : Bool) (cond : Cond),
    s.grain = .cycle → s.busy = true → (portHead s).rst = false → (portHead s).cmdValid = false → s.php = some ph →
    (items ph.prog)[ph.idx]? = some (.wait c d cond) →
    holds cond (sclLine s (pullHead s)) (sdaLine s (pullHead s)) = false →
    (s.tmo + 1 < s.par.timeoutLimit → step s = .next { consume s with tmo := s.tmo + 1 }) ∧
    (s.tmo + 1 = s.par.timeoutLimit → s.seq ≠ .idle →
      ∃ t, step s = .next t ∧ t.trace = s.trace ++ [.timeout] ∧ t.opn = false ∧ t.sclOe = false ∧ t.sdaOe = false ∧
        t.eTimeout = true ∧ t.busy = false ∧ t.seq = .idle ∧ t.ready = s.ready ∧ t.en = s.en ∧ t.baud = s.baud ∧
        (s.seq = .prim → t.last = 1) ∧
        (s.seq = .sInit → t.last = 3 ∧ t.eInit = true) ∧
        (s.seq = .sCmd ∨ s.seq = .sCur ∨ s.seq = .sChr →
          t.last = if s.cch = .stop ∧ abandoning s = true then 2 else 1))

/-- R112, R113: a drive phase counts its cycles down in QCNT and changes nothing else until the last.
That QCNT counts the running cycle is the model's reading (log entry 14). -/
def Obligations.DriveCountsDown : Prop :=
  ∀ (s : State) (ph : Phase) (c d : Bool) (n : Nat),
    s.grain = .cycle → s.busy = true → (portHead s).rst = false → (portHead s).cmdValid = false → s.php = some ph →
    (items ph.prog)[ph.idx]? = some (.drive c d n) → 1 < s.qcnt.toNat →
    step s = .next { consume s with qcnt := s.qcnt - 1 }

/-- R113, R115 to R117: the acknowledge bit is SDA in the last cycle of the first quarter of the acknowledge cell's high
period, in each of the three programs that send a byte: item 35 of BYTE from hold, 39 of START_IDLE, 40 of RESTART.
The grain is the model's (log entry 1). -/
def Obligations.AcknowledgeSampledMidHigh : Prop :=
  ∀ (s : State) (v : Byte) (g : Prog) (j : Nat),
    (g = .byte v ∧ j = 35) ∨ (g = .startIdle v ∧ j = 39) ∨ (g = .restart v ∧ j = 40) →
    s.grain = .cycle → s.busy = true → (portHead s).rst = false → (portHead s).cmdValid = false →
    s.php = some ⟨g, j⟩ → s.qcnt.toNat ≤ 1 →
    ∃ t, step s = .next t ∧ t.ackl = sdaLine s (pullHead s) ∧ t.php = some ⟨g, j + 2⟩ ∧ t.trace = s.trace ∧
      t.sclOe = false ∧ t.sdaOe = false ∧ t.busy = true

/-- R117, R123, R172: a host WBYTE at cycle grain that nobody acknowledges and nobody stretches: BUSY is 1 for exactly
`36q + 9` cycles, and the block ends with the byte and N in the trace, at hold.
The grain is the model's (log entry 1), and so is the quiet host of the empty port (log entry 6). -/
def Obligations.HostByteTakesItsCycles : Prop :=
  ∀ (v : Byte) (s : State) (rest : List Pull),
    s.grain = .cycle → s.busy = false → s.en = true → s.opn = true → 0 < s.baud.toNat →
    s.port = [presents (cmdWord 0x3 0 v)] →
    s.pulls = List.replicate (36 * s.baud.toNat + 10) ⟨false, false⟩ ++ rest →
    (∀ k, 1 ≤ k → k ≤ 36 * s.baud.toNat + 9 → ∃ u, Host.Core.run core k s = .next u ∧ u.busy = true) ∧
    ∃ t, Host.Core.run core (36 * s.baud.toNat + 10) s = .next t ∧ t.busy = false ∧
      t.trace = s.trace ++ [.byte v false] ∧ t.ackl = true ∧ t.opn = true ∧ t.sclOe = true ∧ t.sdaOe = false ∧
      (s.par.nackPolicy = .report → t.last = 2 ∧ t.eNack = true) ∧
      (s.par.nackPolicy = .ignore → t.last = 0 ∧ t.eNack = s.eNack)

/-- R121, R122: the observer of the lines decodes the programs, unstretched and with nobody else pulling, as the events the
trace records, for every divisor and every byte.
Bits outside a transaction are ignored by the model's reading of R121 (log entry 20). -/
def Obligations.ObserverDecodesPrograms : Prop :=
  ∀ (q : Nat) (v : Byte), 0 < q →
    observe .onIdle (linesOf (waveform q (items (.startIdle v)))) = [.start, .byte v false] ∧
    observe ⟨false, true, some []⟩ (linesOf (waveform q (items (.restart v)))) = [.start, .byte v false] ∧
    observe ⟨false, true, some []⟩ (linesOf (waveform q (items (.byte v)))) = [.byte v false] ∧
    observe ⟨false, true, some []⟩ (linesOf (waveform q (items .stop))) = [.stop]

/-! ### The display as the environment -/

/-- R56, R163 (an ASSUMPTION about the environment, Machine/Display.lean, log entry 19): whatever the display received before,
after the transactions of SETCUR and of WCHAR that stays inside the row, its memory holds the cell at page `p` from column `c`,
every other known byte is as before, and the column pointer has advanced by six; after a cell that ends in column 127 the
pointers are unspecified (N14, U3), and nothing is known of them. -/
def Obligations.DisplayHoldsTheCell : Prop :=
  ∀ (d : Display) (par : Params) (p : BitVec 3) (c : BitVec 7) (idx : Nat),
    c.toNat + 6 ≤ 128 →
    let t := (cursorBytes p c).flatMap commandEvents ++ dataEvents (cellBytes par idx)
    let d' := displayAfter d t
    (∀ j < 6, readMem d'.mem (p.toNat * 128 + c.toNat + j) = (cellBytes par idx)[j]?) ∧
    (∀ a, (a < p.toNat * 128 + c.toNat ∨ p.toNat * 128 + c.toNat + 6 ≤ a) → readMem d'.mem a = readMem d.mem a) ∧
    (c.toNat + 6 < 128 → d'.page = some p ∧ d'.column = some (c + 6)) ∧
    (c.toNat + 6 = 128 → d'.page = none ∧ d'.column = none)
end

