-- ==== Sys2Proof/Laws/State.lean ====
section
/-! SUPPORT. One lemma per field per named update of the state, so that no proof unfolds a record update. -/

namespace Sys2Proof.Machine

@[simp] theorem logEvent_cmd (e : Event) (s : State) : (logEvent e s).cmd = s.cmd := rfl
@[simp] theorem logEvent_en (e : Event) (s : State) : (logEvent e s).en = s.en := rfl
@[simp] theorem logEvent_opn (e : Event) (s : State) : (logEvent e s).opn = s.opn := rfl
@[simp] theorem logEvent_ready (e : Event) (s : State) : (logEvent e s).ready = s.ready := rfl
@[simp] theorem logEvent_busy (e : Event) (s : State) : (logEvent e s).busy = s.busy := rfl
@[simp] theorem logEvent_last (e : Event) (s : State) : (logEvent e s).last = s.last := rfl
@[simp] theorem logEvent_eTimeout (e : Event) (s : State) : (logEvent e s).eTimeout = s.eTimeout := rfl
@[simp] theorem logEvent_eNack (e : Event) (s : State) : (logEvent e s).eNack = s.eNack := rfl
@[simp] theorem logEvent_eInit (e : Event) (s : State) : (logEvent e s).eInit = s.eInit := rfl
@[simp] theorem logEvent_eGlyph (e : Event) (s : State) : (logEvent e s).eGlyph = s.eGlyph := rfl
@[simp] theorem logEvent_eCmd (e : Event) (s : State) : (logEvent e s).eCmd = s.eCmd := rfl
@[simp] theorem logEvent_baud (e : Event) (s : State) : (logEvent e s).baud = s.baud := rfl
@[simp] theorem logEvent_seq (e : Event) (s : State) : (logEvent e s).seq = s.seq := rfl
@[simp] theorem logEvent_ipc (e : Event) (s : State) : (logEvent e s).ipc = s.ipc := rfl
@[simp] theorem logEvent_cch (e : Event) (s : State) : (logEvent e s).cch = s.cch := rfl
@[simp] theorem logEvent_dix (e : Event) (s : State) : (logEvent e s).dix = s.dix := rfl
@[simp] theorem logEvent_pb (e : Event) (s : State) : (logEvent e s).pb = s.pb := rfl
@[simp] theorem logEvent_gidx (e : Event) (s : State) : (logEvent e s).gidx = s.gidx := rfl
@[simp] theorem logEvent_shr (e : Event) (s : State) : (logEvent e s).shr = s.shr := rfl
@[simp] theorem logEvent_bitc (e : Event) (s : State) : (logEvent e s).bitc = s.bitc := rfl
@[simp] theorem logEvent_ackl (e : Event) (s : State) : (logEvent e s).ackl = s.ackl := rfl
@[simp] theorem logEvent_trace (e : Event) (s : State) : (logEvent e s).trace = s.trace ++ [e] := rfl
@[simp] theorem logEvent_php (e : Event) (s : State) : (logEvent e s).php = s.php := rfl
@[simp] theorem logEvent_qcnt (e : Event) (s : State) : (logEvent e s).qcnt = s.qcnt := rfl
@[simp] theorem logEvent_tmo (e : Event) (s : State) : (logEvent e s).tmo = s.tmo := rfl
@[simp] theorem logEvent_sclOe (e : Event) (s : State) : (logEvent e s).sclOe = s.sclOe := rfl
@[simp] theorem logEvent_sdaOe (e : Event) (s : State) : (logEvent e s).sdaOe = s.sdaOe := rfl
@[simp] theorem logEvent_par (e : Event) (s : State) : (logEvent e s).par = s.par := rfl
@[simp] theorem logEvent_port (e : Event) (s : State) : (logEvent e s).port = s.port := rfl
@[simp] theorem logEvent_starts (e : Event) (s : State) : (logEvent e s).starts = s.starts := rfl
@[simp] theorem logEvent_bytes (e : Event) (s : State) : (logEvent e s).bytes = s.bytes := rfl
@[simp] theorem logEvent_stops (e : Event) (s : State) : (logEvent e s).stops = s.stops := rfl
@[simp] theorem logEvent_pulls (e : Event) (s : State) : (logEvent e s).pulls = s.pulls := rfl
@[simp] theorem logEvent_grain (e : Event) (s : State) : (logEvent e s).grain = s.grain := rfl
@[simp] theorem logEvent_draws (e : Event) (s : State) : (logEvent e s).draws = s.draws := rfl
@[simp] theorem logEvent_cycle (e : Event) (s : State) : (logEvent e s).cycle = s.cycle := rfl
@[simp] theorem logEvent_ends (e : Event) (s : State) : (logEvent e s).ends = s.ends := rfl

@[simp] theorem toHold_cmd (s : State) : (toHold s).cmd = s.cmd := rfl
@[simp] theorem toHold_en (s : State) : (toHold s).en = s.en := rfl
@[simp] theorem toHold_opn (s : State) : (toHold s).opn = s.opn := rfl
@[simp] theorem toHold_ready (s : State) : (toHold s).ready = s.ready := rfl
@[simp] theorem toHold_busy (s : State) : (toHold s).busy = s.busy := rfl
@[simp] theorem toHold_last (s : State) : (toHold s).last = s.last := rfl
@[simp] theorem toHold_eTimeout (s : State) : (toHold s).eTimeout = s.eTimeout := rfl
@[simp] theorem toHold_eNack (s : State) : (toHold s).eNack = s.eNack := rfl
@[simp] theorem toHold_eInit (s : State) : (toHold s).eInit = s.eInit := rfl
@[simp] theorem toHold_eGlyph (s : State) : (toHold s).eGlyph = s.eGlyph := rfl
@[simp] theorem toHold_eCmd (s : State) : (toHold s).eCmd = s.eCmd := rfl
@[simp] theorem toHold_baud (s : State) : (toHold s).baud = s.baud := rfl
@[simp] theorem toHold_seq (s : State) : (toHold s).seq = s.seq := rfl
@[simp] theorem toHold_ipc (s : State) : (toHold s).ipc = s.ipc := rfl
@[simp] theorem toHold_cch (s : State) : (toHold s).cch = s.cch := rfl
@[simp] theorem toHold_dix (s : State) : (toHold s).dix = s.dix := rfl
@[simp] theorem toHold_pb (s : State) : (toHold s).pb = s.pb := rfl
@[simp] theorem toHold_gidx (s : State) : (toHold s).gidx = s.gidx := rfl
@[simp] theorem toHold_shr (s : State) : (toHold s).shr = s.shr := rfl
@[simp] theorem toHold_bitc (s : State) : (toHold s).bitc = s.bitc := rfl
@[simp] theorem toHold_ackl (s : State) : (toHold s).ackl = s.ackl := rfl
@[simp] theorem toHold_trace (s : State) : (toHold s).trace = s.trace := rfl
@[simp] theorem toHold_php (s : State) : (toHold s).php = s.php := rfl
@[simp] theorem toHold_qcnt (s : State) : (toHold s).qcnt = s.qcnt := rfl
@[simp] theorem toHold_tmo (s : State) : (toHold s).tmo = s.tmo := rfl
@[simp] theorem toHold_sclOe (s : State) : (toHold s).sclOe = true := rfl
@[simp] theorem toHold_sdaOe (s : State) : (toHold s).sdaOe = false := rfl
@[simp] theorem toHold_par (s : State) : (toHold s).par = s.par := rfl
@[simp] theorem toHold_port (s : State) : (toHold s).port = s.port := rfl
@[simp] theorem toHold_starts (s : State) : (toHold s).starts = s.starts := rfl
@[simp] theorem toHold_bytes (s : State) : (toHold s).bytes = s.bytes := rfl
@[simp] theorem toHold_stops (s : State) : (toHold s).stops = s.stops := rfl
@[simp] theorem toHold_pulls (s : State) : (toHold s).pulls = s.pulls := rfl
@[simp] theorem toHold_grain (s : State) : (toHold s).grain = s.grain := rfl
@[simp] theorem toHold_draws (s : State) : (toHold s).draws = s.draws := rfl
@[simp] theorem toHold_cycle (s : State) : (toHold s).cycle = s.cycle := rfl
@[simp] theorem toHold_ends (s : State) : (toHold s).ends = s.ends := rfl

@[simp] theorem toIdle_cmd (s : State) : (toIdle s).cmd = s.cmd := rfl
@[simp] theorem toIdle_en (s : State) : (toIdle s).en = s.en := rfl
@[simp] theorem toIdle_opn (s : State) : (toIdle s).opn = s.opn := rfl
@[simp] theorem toIdle_ready (s : State) : (toIdle s).ready = s.ready := rfl
@[simp] theorem toIdle_busy (s : State) : (toIdle s).busy = s.busy := rfl
@[simp] theorem toIdle_last (s : State) : (toIdle s).last = s.last := rfl
@[simp] theorem toIdle_eTimeout (s : State) : (toIdle s).eTimeout = s.eTimeout := rfl
@[simp] theorem toIdle_eNack (s : State) : (toIdle s).eNack = s.eNack := rfl
@[simp] theorem toIdle_eInit (s : State) : (toIdle s).eInit = s.eInit := rfl
@[simp] theorem toIdle_eGlyph (s : State) : (toIdle s).eGlyph = s.eGlyph := rfl
@[simp] theorem toIdle_eCmd (s : State) : (toIdle s).eCmd = s.eCmd := rfl
@[simp] theorem toIdle_baud (s : State) : (toIdle s).baud = s.baud := rfl
@[simp] theorem toIdle_seq (s : State) : (toIdle s).seq = s.seq := rfl
@[simp] theorem toIdle_ipc (s : State) : (toIdle s).ipc = s.ipc := rfl
@[simp] theorem toIdle_cch (s : State) : (toIdle s).cch = s.cch := rfl
@[simp] theorem toIdle_dix (s : State) : (toIdle s).dix = s.dix := rfl
@[simp] theorem toIdle_pb (s : State) : (toIdle s).pb = s.pb := rfl
@[simp] theorem toIdle_gidx (s : State) : (toIdle s).gidx = s.gidx := rfl
@[simp] theorem toIdle_shr (s : State) : (toIdle s).shr = s.shr := rfl
@[simp] theorem toIdle_bitc (s : State) : (toIdle s).bitc = s.bitc := rfl
@[simp] theorem toIdle_ackl (s : State) : (toIdle s).ackl = s.ackl := rfl
@[simp] theorem toIdle_trace (s : State) : (toIdle s).trace = s.trace := rfl
@[simp] theorem toIdle_php (s : State) : (toIdle s).php = s.php := rfl
@[simp] theorem toIdle_qcnt (s : State) : (toIdle s).qcnt = s.qcnt := rfl
@[simp] theorem toIdle_tmo (s : State) : (toIdle s).tmo = s.tmo := rfl
@[simp] theorem toIdle_sclOe (s : State) : (toIdle s).sclOe = false := rfl
@[simp] theorem toIdle_sdaOe (s : State) : (toIdle s).sdaOe = false := rfl
@[simp] theorem toIdle_par (s : State) : (toIdle s).par = s.par := rfl
@[simp] theorem toIdle_port (s : State) : (toIdle s).port = s.port := rfl
@[simp] theorem toIdle_starts (s : State) : (toIdle s).starts = s.starts := rfl
@[simp] theorem toIdle_bytes (s : State) : (toIdle s).bytes = s.bytes := rfl
@[simp] theorem toIdle_stops (s : State) : (toIdle s).stops = s.stops := rfl
@[simp] theorem toIdle_pulls (s : State) : (toIdle s).pulls = s.pulls := rfl
@[simp] theorem toIdle_grain (s : State) : (toIdle s).grain = s.grain := rfl
@[simp] theorem toIdle_draws (s : State) : (toIdle s).draws = s.draws := rfl
@[simp] theorem toIdle_cycle (s : State) : (toIdle s).cycle = s.cycle := rfl
@[simp] theorem toIdle_ends (s : State) : (toIdle s).ends = s.ends := rfl

@[simp] theorem setLast_cmd (c : ResultCode) (s : State) : (setLast c s).cmd = s.cmd := rfl
@[simp] theorem setLast_en (c : ResultCode) (s : State) : (setLast c s).en = s.en := rfl
@[simp] theorem setLast_opn (c : ResultCode) (s : State) : (setLast c s).opn = s.opn := rfl
@[simp] theorem setLast_ready (c : ResultCode) (s : State) : (setLast c s).ready = s.ready := rfl
@[simp] theorem setLast_busy (c : ResultCode) (s : State) : (setLast c s).busy = s.busy := rfl
@[simp] theorem setLast_last (c : ResultCode) (s : State) : (setLast c s).last = codeBits c := rfl
@[simp] theorem setLast_eTimeout (c : ResultCode) (s : State) : (setLast c s).eTimeout = s.eTimeout := rfl
@[simp] theorem setLast_eNack (c : ResultCode) (s : State) : (setLast c s).eNack = s.eNack := rfl
@[simp] theorem setLast_eInit (c : ResultCode) (s : State) : (setLast c s).eInit = s.eInit := rfl
@[simp] theorem setLast_eGlyph (c : ResultCode) (s : State) : (setLast c s).eGlyph = s.eGlyph := rfl
@[simp] theorem setLast_eCmd (c : ResultCode) (s : State) : (setLast c s).eCmd = s.eCmd := rfl
@[simp] theorem setLast_baud (c : ResultCode) (s : State) : (setLast c s).baud = s.baud := rfl
@[simp] theorem setLast_seq (c : ResultCode) (s : State) : (setLast c s).seq = s.seq := rfl
@[simp] theorem setLast_ipc (c : ResultCode) (s : State) : (setLast c s).ipc = s.ipc := rfl
@[simp] theorem setLast_cch (c : ResultCode) (s : State) : (setLast c s).cch = s.cch := rfl
@[simp] theorem setLast_dix (c : ResultCode) (s : State) : (setLast c s).dix = s.dix := rfl
@[simp] theorem setLast_pb (c : ResultCode) (s : State) : (setLast c s).pb = s.pb := rfl
@[simp] theorem setLast_gidx (c : ResultCode) (s : State) : (setLast c s).gidx = s.gidx := rfl
@[simp] theorem setLast_shr (c : ResultCode) (s : State) : (setLast c s).shr = s.shr := rfl
@[simp] theorem setLast_bitc (c : ResultCode) (s : State) : (setLast c s).bitc = s.bitc := rfl
@[simp] theorem setLast_ackl (c : ResultCode) (s : State) : (setLast c s).ackl = s.ackl := rfl
@[simp] theorem setLast_trace (c : ResultCode) (s : State) : (setLast c s).trace = s.trace := rfl
@[simp] theorem setLast_php (c : ResultCode) (s : State) : (setLast c s).php = s.php := rfl
@[simp] theorem setLast_qcnt (c : ResultCode) (s : State) : (setLast c s).qcnt = s.qcnt := rfl
@[simp] theorem setLast_tmo (c : ResultCode) (s : State) : (setLast c s).tmo = s.tmo := rfl
@[simp] theorem setLast_sclOe (c : ResultCode) (s : State) : (setLast c s).sclOe = s.sclOe := rfl
@[simp] theorem setLast_sdaOe (c : ResultCode) (s : State) : (setLast c s).sdaOe = s.sdaOe := rfl
@[simp] theorem setLast_par (c : ResultCode) (s : State) : (setLast c s).par = s.par := rfl
@[simp] theorem setLast_port (c : ResultCode) (s : State) : (setLast c s).port = s.port := rfl
@[simp] theorem setLast_starts (c : ResultCode) (s : State) : (setLast c s).starts = s.starts := rfl
@[simp] theorem setLast_bytes (c : ResultCode) (s : State) : (setLast c s).bytes = s.bytes := rfl
@[simp] theorem setLast_stops (c : ResultCode) (s : State) : (setLast c s).stops = s.stops := rfl
@[simp] theorem setLast_pulls (c : ResultCode) (s : State) : (setLast c s).pulls = s.pulls := rfl
@[simp] theorem setLast_grain (c : ResultCode) (s : State) : (setLast c s).grain = s.grain := rfl
@[simp] theorem setLast_draws (c : ResultCode) (s : State) : (setLast c s).draws = s.draws := rfl
@[simp] theorem setLast_cycle (c : ResultCode) (s : State) : (setLast c s).cycle = s.cycle := rfl
@[simp] theorem setLast_ends (c : ResultCode) (s : State) : (setLast c s).ends = s.ends := rfl

@[simp] theorem setSticky_cmd (c : ResultCode) (s : State) : (setSticky c s).cmd = s.cmd := by cases c <;> rfl
@[simp] theorem setSticky_en (c : ResultCode) (s : State) : (setSticky c s).en = s.en := by cases c <;> rfl
@[simp] theorem setSticky_opn (c : ResultCode) (s : State) : (setSticky c s).opn = s.opn := by cases c <;> rfl
@[simp] theorem setSticky_ready (c : ResultCode) (s : State) : (setSticky c s).ready = s.ready := by cases c <;> rfl
@[simp] theorem setSticky_busy (c : ResultCode) (s : State) : (setSticky c s).busy = s.busy := by cases c <;> rfl
@[simp] theorem setSticky_last (c : ResultCode) (s : State) : (setSticky c s).last = s.last := by cases c <;> rfl
@[simp] theorem setSticky_baud (c : ResultCode) (s : State) : (setSticky c s).baud = s.baud := by cases c <;> rfl
@[simp] theorem setSticky_seq (c : ResultCode) (s : State) : (setSticky c s).seq = s.seq := by cases c <;> rfl
@[simp] theorem setSticky_ipc (c : ResultCode) (s : State) : (setSticky c s).ipc = s.ipc := by cases c <;> rfl
@[simp] theorem setSticky_cch (c : ResultCode) (s : State) : (setSticky c s).cch = s.cch := by cases c <;> rfl
@[simp] theorem setSticky_dix (c : ResultCode) (s : State) : (setSticky c s).dix = s.dix := by cases c <;> rfl
@[simp] theorem setSticky_pb (c : ResultCode) (s : State) : (setSticky c s).pb = s.pb := by cases c <;> rfl
@[simp] theorem setSticky_gidx (c : ResultCode) (s : State) : (setSticky c s).gidx = s.gidx := by cases c <;> rfl
@[simp] theorem setSticky_shr (c : ResultCode) (s : State) : (setSticky c s).shr = s.shr := by cases c <;> rfl
@[simp] theorem setSticky_bitc (c : ResultCode) (s : State) : (setSticky c s).bitc = s.bitc := by cases c <;> rfl
@[simp] theorem setSticky_ackl (c : ResultCode) (s : State) : (setSticky c s).ackl = s.ackl := by cases c <;> rfl
@[simp] theorem setSticky_trace (c : ResultCode) (s : State) : (setSticky c s).trace = s.trace := by cases c <;> rfl
@[simp] theorem setSticky_php (c : ResultCode) (s : State) : (setSticky c s).php = s.php := by cases c <;> rfl
@[simp] theorem setSticky_qcnt (c : ResultCode) (s : State) : (setSticky c s).qcnt = s.qcnt := by cases c <;> rfl
@[simp] theorem setSticky_tmo (c : ResultCode) (s : State) : (setSticky c s).tmo = s.tmo := by cases c <;> rfl
@[simp] theorem setSticky_sclOe (c : ResultCode) (s : State) : (setSticky c s).sclOe = s.sclOe := by cases c <;> rfl
@[simp] theorem setSticky_sdaOe (c : ResultCode) (s : State) : (setSticky c s).sdaOe = s.sdaOe := by cases c <;> rfl
@[simp] theorem setSticky_par (c : ResultCode) (s : State) : (setSticky c s).par = s.par := by cases c <;> rfl
@[simp] theorem setSticky_port (c : ResultCode) (s : State) : (setSticky c s).port = s.port := by cases c <;> rfl
@[simp] theorem setSticky_starts (c : ResultCode) (s : State) : (setSticky c s).starts = s.starts := by cases c <;> rfl
@[simp] theorem setSticky_bytes (c : ResultCode) (s : State) : (setSticky c s).bytes = s.bytes := by cases c <;> rfl
@[simp] theorem setSticky_stops (c : ResultCode) (s : State) : (setSticky c s).stops = s.stops := by cases c <;> rfl
@[simp] theorem setSticky_pulls (c : ResultCode) (s : State) : (setSticky c s).pulls = s.pulls := by cases c <;> rfl
@[simp] theorem setSticky_grain (c : ResultCode) (s : State) : (setSticky c s).grain = s.grain := by cases c <;> rfl
@[simp] theorem setSticky_draws (c : ResultCode) (s : State) : (setSticky c s).draws = s.draws := by cases c <;> rfl
@[simp] theorem setSticky_cycle (c : ResultCode) (s : State) : (setSticky c s).cycle = s.cycle := by cases c <;> rfl
@[simp] theorem setSticky_ends (c : ResultCode) (s : State) : (setSticky c s).ends = s.ends := by cases c <;> rfl

@[simp] theorem clearSticky_cmd (s : State) : (clearSticky s).cmd = s.cmd := rfl
@[simp] theorem clearSticky_en (s : State) : (clearSticky s).en = s.en := rfl
@[simp] theorem clearSticky_opn (s : State) : (clearSticky s).opn = s.opn := rfl
@[simp] theorem clearSticky_ready (s : State) : (clearSticky s).ready = s.ready := rfl
@[simp] theorem clearSticky_busy (s : State) : (clearSticky s).busy = s.busy := rfl
@[simp] theorem clearSticky_last (s : State) : (clearSticky s).last = s.last := rfl
@[simp] theorem clearSticky_eTimeout (s : State) : (clearSticky s).eTimeout = false := rfl
@[simp] theorem clearSticky_eNack (s : State) : (clearSticky s).eNack = false := rfl
@[simp] theorem clearSticky_eInit (s : State) : (clearSticky s).eInit = false := rfl
@[simp] theorem clearSticky_eGlyph (s : State) : (clearSticky s).eGlyph = false := rfl
@[simp] theorem clearSticky_eCmd (s : State) : (clearSticky s).eCmd = false := rfl
@[simp] theorem clearSticky_baud (s : State) : (clearSticky s).baud = s.baud := rfl
@[simp] theorem clearSticky_seq (s : State) : (clearSticky s).seq = s.seq := rfl
@[simp] theorem clearSticky_ipc (s : State) : (clearSticky s).ipc = s.ipc := rfl
@[simp] theorem clearSticky_cch (s : State) : (clearSticky s).cch = s.cch := rfl
@[simp] theorem clearSticky_dix (s : State) : (clearSticky s).dix = s.dix := rfl
@[simp] theorem clearSticky_pb (s : State) : (clearSticky s).pb = s.pb := rfl
@[simp] theorem clearSticky_gidx (s : State) : (clearSticky s).gidx = s.gidx := rfl
@[simp] theorem clearSticky_shr (s : State) : (clearSticky s).shr = s.shr := rfl
@[simp] theorem clearSticky_bitc (s : State) : (clearSticky s).bitc = s.bitc := rfl
@[simp] theorem clearSticky_ackl (s : State) : (clearSticky s).ackl = s.ackl := rfl
@[simp] theorem clearSticky_trace (s : State) : (clearSticky s).trace = s.trace := rfl
@[simp] theorem clearSticky_php (s : State) : (clearSticky s).php = s.php := rfl
@[simp] theorem clearSticky_qcnt (s : State) : (clearSticky s).qcnt = s.qcnt := rfl
@[simp] theorem clearSticky_tmo (s : State) : (clearSticky s).tmo = s.tmo := rfl
@[simp] theorem clearSticky_sclOe (s : State) : (clearSticky s).sclOe = s.sclOe := rfl
@[simp] theorem clearSticky_sdaOe (s : State) : (clearSticky s).sdaOe = s.sdaOe := rfl
@[simp] theorem clearSticky_par (s : State) : (clearSticky s).par = s.par := rfl
@[simp] theorem clearSticky_port (s : State) : (clearSticky s).port = s.port := rfl
@[simp] theorem clearSticky_starts (s : State) : (clearSticky s).starts = s.starts := rfl
@[simp] theorem clearSticky_bytes (s : State) : (clearSticky s).bytes = s.bytes := rfl
@[simp] theorem clearSticky_stops (s : State) : (clearSticky s).stops = s.stops := rfl
@[simp] theorem clearSticky_pulls (s : State) : (clearSticky s).pulls = s.pulls := rfl
@[simp] theorem clearSticky_grain (s : State) : (clearSticky s).grain = s.grain := rfl
@[simp] theorem clearSticky_draws (s : State) : (clearSticky s).draws = s.draws := rfl
@[simp] theorem clearSticky_cycle (s : State) : (clearSticky s).cycle = s.cycle := rfl
@[simp] theorem clearSticky_ends (s : State) : (clearSticky s).ends = s.ends := rfl

@[simp] theorem refuse_cmd (s : State) : (refuse s).cmd = s.cmd := rfl
@[simp] theorem refuse_en (s : State) : (refuse s).en = s.en := rfl
@[simp] theorem refuse_opn (s : State) : (refuse s).opn = s.opn := rfl
@[simp] theorem refuse_ready (s : State) : (refuse s).ready = s.ready := rfl
@[simp] theorem refuse_busy (s : State) : (refuse s).busy = s.busy := rfl
@[simp] theorem refuse_last (s : State) : (refuse s).last = 5 := rfl
@[simp] theorem refuse_eTimeout (s : State) : (refuse s).eTimeout = s.eTimeout := rfl
@[simp] theorem refuse_eNack (s : State) : (refuse s).eNack = s.eNack := rfl
@[simp] theorem refuse_eInit (s : State) : (refuse s).eInit = s.eInit := rfl
@[simp] theorem refuse_eGlyph (s : State) : (refuse s).eGlyph = s.eGlyph := rfl
@[simp] theorem refuse_eCmd (s : State) : (refuse s).eCmd = true := rfl
@[simp] theorem refuse_baud (s : State) : (refuse s).baud = s.baud := rfl
@[simp] theorem refuse_seq (s : State) : (refuse s).seq = s.seq := rfl
@[simp] theorem refuse_ipc (s : State) : (refuse s).ipc = s.ipc := rfl
@[simp] theorem refuse_cch (s : State) : (refuse s).cch = s.cch := rfl
@[simp] theorem refuse_dix (s : State) : (refuse s).dix = s.dix := rfl
@[simp] theorem refuse_pb (s : State) : (refuse s).pb = s.pb := rfl
@[simp] theorem refuse_gidx (s : State) : (refuse s).gidx = s.gidx := rfl
@[simp] theorem refuse_shr (s : State) : (refuse s).shr = s.shr := rfl
@[simp] theorem refuse_bitc (s : State) : (refuse s).bitc = s.bitc := rfl
@[simp] theorem refuse_ackl (s : State) : (refuse s).ackl = s.ackl := rfl
@[simp] theorem refuse_trace (s : State) : (refuse s).trace = s.trace := rfl
@[simp] theorem refuse_php (s : State) : (refuse s).php = s.php := rfl
@[simp] theorem refuse_qcnt (s : State) : (refuse s).qcnt = s.qcnt := rfl
@[simp] theorem refuse_tmo (s : State) : (refuse s).tmo = s.tmo := rfl
@[simp] theorem refuse_sclOe (s : State) : (refuse s).sclOe = s.sclOe := rfl
@[simp] theorem refuse_sdaOe (s : State) : (refuse s).sdaOe = s.sdaOe := rfl
@[simp] theorem refuse_par (s : State) : (refuse s).par = s.par := rfl
@[simp] theorem refuse_port (s : State) : (refuse s).port = s.port := rfl
@[simp] theorem refuse_starts (s : State) : (refuse s).starts = s.starts := rfl
@[simp] theorem refuse_bytes (s : State) : (refuse s).bytes = s.bytes := rfl
@[simp] theorem refuse_stops (s : State) : (refuse s).stops = s.stops := rfl
@[simp] theorem refuse_pulls (s : State) : (refuse s).pulls = s.pulls := rfl
@[simp] theorem refuse_grain (s : State) : (refuse s).grain = s.grain := rfl
@[simp] theorem refuse_draws (s : State) : (refuse s).draws = s.draws := rfl
@[simp] theorem refuse_cycle (s : State) : (refuse s).cycle = s.cycle := rfl
@[simp] theorem refuse_ends (s : State) : (refuse s).ends = s.ends := rfl

@[simp] theorem endCommand_cmd (c : ResultCode) (s : State) : (endCommand c s).cmd = s.cmd := rfl
@[simp] theorem endCommand_en (c : ResultCode) (s : State) : (endCommand c s).en = s.en := rfl
@[simp] theorem endCommand_opn (c : ResultCode) (s : State) : (endCommand c s).opn = s.opn := rfl
@[simp] theorem endCommand_ready (c : ResultCode) (s : State) : (endCommand c s).ready = s.ready := rfl
@[simp] theorem endCommand_busy (c : ResultCode) (s : State) : (endCommand c s).busy = false := rfl
@[simp] theorem endCommand_last (c : ResultCode) (s : State) : (endCommand c s).last = codeBits c := rfl
@[simp] theorem endCommand_eTimeout (c : ResultCode) (s : State) : (endCommand c s).eTimeout = s.eTimeout := rfl
@[simp] theorem endCommand_eNack (c : ResultCode) (s : State) : (endCommand c s).eNack = s.eNack := rfl
@[simp] theorem endCommand_eInit (c : ResultCode) (s : State) : (endCommand c s).eInit = s.eInit := rfl
@[simp] theorem endCommand_eGlyph (c : ResultCode) (s : State) : (endCommand c s).eGlyph = s.eGlyph := rfl
@[simp] theorem endCommand_eCmd (c : ResultCode) (s : State) : (endCommand c s).eCmd = s.eCmd := rfl
@[simp] theorem endCommand_baud (c : ResultCode) (s : State) : (endCommand c s).baud = s.baud := rfl
@[simp] theorem endCommand_seq (c : ResultCode) (s : State) : (endCommand c s).seq = .idle := rfl
@[simp] theorem endCommand_ackl (c : ResultCode) (s : State) : (endCommand c s).ackl = s.ackl := rfl
@[simp] theorem endCommand_trace (c : ResultCode) (s : State) : (endCommand c s).trace = s.trace := rfl
@[simp] theorem endCommand_sclOe (c : ResultCode) (s : State) : (endCommand c s).sclOe = s.sclOe := rfl
@[simp] theorem endCommand_sdaOe (c : ResultCode) (s : State) : (endCommand c s).sdaOe = s.sdaOe := rfl
@[simp] theorem endCommand_par (c : ResultCode) (s : State) : (endCommand c s).par = s.par := rfl
@[simp] theorem endCommand_port (c : ResultCode) (s : State) : (endCommand c s).port = s.port := rfl
@[simp] theorem endCommand_starts (c : ResultCode) (s : State) : (endCommand c s).starts = s.starts := rfl
@[simp] theorem endCommand_bytes (c : ResultCode) (s : State) : (endCommand c s).bytes = s.bytes := rfl
@[simp] theorem endCommand_stops (c : ResultCode) (s : State) : (endCommand c s).stops = s.stops := rfl
@[simp] theorem endCommand_pulls (c : ResultCode) (s : State) : (endCommand c s).pulls = s.pulls := rfl
@[simp] theorem endCommand_grain (c : ResultCode) (s : State) : (endCommand c s).grain = s.grain := rfl
@[simp] theorem endCommand_draws (c : ResultCode) (s : State) : (endCommand c s).draws = s.draws := rfl
@[simp] theorem endCommand_cycle (c : ResultCode) (s : State) : (endCommand c s).cycle = s.cycle := rfl
@[simp] theorem endCommand_ends (c : ResultCode) (s : State) : (endCommand c s).ends = s.ends + 1 := rfl

@[simp] theorem timeoutAbort_cmd (s : State) : (timeoutAbort s).cmd = s.cmd := rfl
@[simp] theorem timeoutAbort_en (s : State) : (timeoutAbort s).en = s.en := rfl
@[simp] theorem timeoutAbort_opn (s : State) : (timeoutAbort s).opn = false := rfl
@[simp] theorem timeoutAbort_ready (s : State) : (timeoutAbort s).ready = s.ready := rfl
@[simp] theorem timeoutAbort_busy (s : State) : (timeoutAbort s).busy = s.busy := rfl
@[simp] theorem timeoutAbort_last (s : State) : (timeoutAbort s).last = s.last := rfl
@[simp] theorem timeoutAbort_eTimeout (s : State) : (timeoutAbort s).eTimeout = true := rfl
@[simp] theorem timeoutAbort_eNack (s : State) : (timeoutAbort s).eNack = s.eNack := rfl
@[simp] theorem timeoutAbort_eInit (s : State) : (timeoutAbort s).eInit = s.eInit := rfl
@[simp] theorem timeoutAbort_eGlyph (s : State) : (timeoutAbort s).eGlyph = s.eGlyph := rfl
@[simp] theorem timeoutAbort_eCmd (s : State) : (timeoutAbort s).eCmd = s.eCmd := rfl
@[simp] theorem timeoutAbort_baud (s : State) : (timeoutAbort s).baud = s.baud := rfl
@[simp] theorem timeoutAbort_seq (s : State) : (timeoutAbort s).seq = s.seq := rfl
@[simp] theorem timeoutAbort_ipc (s : State) : (timeoutAbort s).ipc = s.ipc := rfl
@[simp] theorem timeoutAbort_cch (s : State) : (timeoutAbort s).cch = s.cch := rfl
@[simp] theorem timeoutAbort_dix (s : State) : (timeoutAbort s).dix = s.dix := rfl
@[simp] theorem timeoutAbort_pb (s : State) : (timeoutAbort s).pb = s.pb := rfl
@[simp] theorem timeoutAbort_gidx (s : State) : (timeoutAbort s).gidx = s.gidx := rfl
@[simp] theorem timeoutAbort_shr (s : State) : (timeoutAbort s).shr = s.shr := rfl
@[simp] theorem timeoutAbort_bitc (s : State) : (timeoutAbort s).bitc = s.bitc := rfl
@[simp] theorem timeoutAbort_ackl (s : State) : (timeoutAbort s).ackl = s.ackl := rfl
@[simp] theorem timeoutAbort_trace (s : State) : (timeoutAbort s).trace = s.trace ++ [.timeout] := rfl
@[simp] theorem timeoutAbort_php (s : State) : (timeoutAbort s).php = s.php := rfl
@[simp] theorem timeoutAbort_qcnt (s : State) : (timeoutAbort s).qcnt = s.qcnt := rfl
@[simp] theorem timeoutAbort_tmo (s : State) : (timeoutAbort s).tmo = s.tmo := rfl
@[simp] theorem timeoutAbort_sclOe (s : State) : (timeoutAbort s).sclOe = false := rfl
@[simp] theorem timeoutAbort_sdaOe (s : State) : (timeoutAbort s).sdaOe = false := rfl
@[simp] theorem timeoutAbort_par (s : State) : (timeoutAbort s).par = s.par := rfl
@[simp] theorem timeoutAbort_port (s : State) : (timeoutAbort s).port = s.port := rfl
@[simp] theorem timeoutAbort_starts (s : State) : (timeoutAbort s).starts = s.starts := rfl
@[simp] theorem timeoutAbort_bytes (s : State) : (timeoutAbort s).bytes = s.bytes := rfl
@[simp] theorem timeoutAbort_stops (s : State) : (timeoutAbort s).stops = s.stops := rfl
@[simp] theorem timeoutAbort_pulls (s : State) : (timeoutAbort s).pulls = s.pulls := rfl
@[simp] theorem timeoutAbort_grain (s : State) : (timeoutAbort s).grain = s.grain := rfl
@[simp] theorem timeoutAbort_draws (s : State) : (timeoutAbort s).draws = s.draws := rfl
@[simp] theorem timeoutAbort_cycle (s : State) : (timeoutAbort s).cycle = s.cycle := rfl
@[simp] theorem timeoutAbort_ends (s : State) : (timeoutAbort s).ends = s.ends := rfl

@[simp] theorem startDone_cmd (s : State) : (startDone s).cmd = s.cmd := rfl
@[simp] theorem startDone_en (s : State) : (startDone s).en = s.en := rfl
@[simp] theorem startDone_opn (s : State) : (startDone s).opn = true := rfl
@[simp] theorem startDone_ready (s : State) : (startDone s).ready = s.ready := rfl
@[simp] theorem startDone_busy (s : State) : (startDone s).busy = s.busy := rfl
@[simp] theorem startDone_last (s : State) : (startDone s).last = s.last := rfl
@[simp] theorem startDone_eTimeout (s : State) : (startDone s).eTimeout = s.eTimeout := rfl
@[simp] theorem startDone_eNack (s : State) : (startDone s).eNack = s.eNack := rfl
@[simp] theorem startDone_eInit (s : State) : (startDone s).eInit = s.eInit := rfl
@[simp] theorem startDone_eGlyph (s : State) : (startDone s).eGlyph = s.eGlyph := rfl
@[simp] theorem startDone_eCmd (s : State) : (startDone s).eCmd = s.eCmd := rfl
@[simp] theorem startDone_baud (s : State) : (startDone s).baud = s.baud := rfl
@[simp] theorem startDone_seq (s : State) : (startDone s).seq = s.seq := rfl
@[simp] theorem startDone_ipc (s : State) : (startDone s).ipc = s.ipc := rfl
@[simp] theorem startDone_cch (s : State) : (startDone s).cch = s.cch := rfl
@[simp] theorem startDone_dix (s : State) : (startDone s).dix = s.dix := rfl
@[simp] theorem startDone_pb (s : State) : (startDone s).pb = s.pb := rfl
@[simp] theorem startDone_gidx (s : State) : (startDone s).gidx = s.gidx := rfl
@[simp] theorem startDone_shr (s : State) : (startDone s).shr = s.shr := rfl
@[simp] theorem startDone_bitc (s : State) : (startDone s).bitc = s.bitc := rfl
@[simp] theorem startDone_ackl (s : State) : (startDone s).ackl = s.ackl := rfl
@[simp] theorem startDone_trace (s : State) : (startDone s).trace = s.trace ++ [.start] := rfl
@[simp] theorem startDone_php (s : State) : (startDone s).php = s.php := rfl
@[simp] theorem startDone_qcnt (s : State) : (startDone s).qcnt = s.qcnt := rfl
@[simp] theorem startDone_tmo (s : State) : (startDone s).tmo = s.tmo := rfl
@[simp] theorem startDone_sclOe (s : State) : (startDone s).sclOe = s.sclOe := rfl
@[simp] theorem startDone_sdaOe (s : State) : (startDone s).sdaOe = s.sdaOe := rfl
@[simp] theorem startDone_par (s : State) : (startDone s).par = s.par := rfl
@[simp] theorem startDone_port (s : State) : (startDone s).port = s.port := rfl
@[simp] theorem startDone_starts (s : State) : (startDone s).starts = s.starts := rfl
@[simp] theorem startDone_bytes (s : State) : (startDone s).bytes = s.bytes := rfl
@[simp] theorem startDone_stops (s : State) : (startDone s).stops = s.stops := rfl
@[simp] theorem startDone_pulls (s : State) : (startDone s).pulls = s.pulls := rfl
@[simp] theorem startDone_grain (s : State) : (startDone s).grain = s.grain := rfl
@[simp] theorem startDone_draws (s : State) : (startDone s).draws = s.draws := rfl
@[simp] theorem startDone_cycle (s : State) : (startDone s).cycle = s.cycle := rfl
@[simp] theorem startDone_ends (s : State) : (startDone s).ends = s.ends := rfl

@[simp] theorem stopDone_cmd (s : State) : (stopDone s).cmd = s.cmd := rfl
@[simp] theorem stopDone_en (s : State) : (stopDone s).en = s.en := rfl
@[simp] theorem stopDone_opn (s : State) : (stopDone s).opn = false := rfl
@[simp] theorem stopDone_ready (s : State) : (stopDone s).ready = s.ready := rfl
@[simp] theorem stopDone_busy (s : State) : (stopDone s).busy = s.busy := rfl
@[simp] theorem stopDone_last (s : State) : (stopDone s).last = s.last := rfl
@[simp] theorem stopDone_eTimeout (s : State) : (stopDone s).eTimeout = s.eTimeout := rfl
@[simp] theorem stopDone_eNack (s : State) : (stopDone s).eNack = s.eNack := rfl
@[simp] theorem stopDone_eInit (s : State) : (stopDone s).eInit = s.eInit := rfl
@[simp] theorem stopDone_eGlyph (s : State) : (stopDone s).eGlyph = s.eGlyph := rfl
@[simp] theorem stopDone_eCmd (s : State) : (stopDone s).eCmd = s.eCmd := rfl
@[simp] theorem stopDone_baud (s : State) : (stopDone s).baud = s.baud := rfl
@[simp] theorem stopDone_seq (s : State) : (stopDone s).seq = s.seq := rfl
@[simp] theorem stopDone_ipc (s : State) : (stopDone s).ipc = s.ipc := rfl
@[simp] theorem stopDone_cch (s : State) : (stopDone s).cch = s.cch := rfl
@[simp] theorem stopDone_dix (s : State) : (stopDone s).dix = s.dix := rfl
@[simp] theorem stopDone_pb (s : State) : (stopDone s).pb = s.pb := rfl
@[simp] theorem stopDone_gidx (s : State) : (stopDone s).gidx = s.gidx := rfl
@[simp] theorem stopDone_shr (s : State) : (stopDone s).shr = s.shr := rfl
@[simp] theorem stopDone_bitc (s : State) : (stopDone s).bitc = s.bitc := rfl
@[simp] theorem stopDone_ackl (s : State) : (stopDone s).ackl = s.ackl := rfl
@[simp] theorem stopDone_trace (s : State) : (stopDone s).trace = s.trace ++ [.stop] := rfl
@[simp] theorem stopDone_php (s : State) : (stopDone s).php = s.php := rfl
@[simp] theorem stopDone_qcnt (s : State) : (stopDone s).qcnt = s.qcnt := rfl
@[simp] theorem stopDone_tmo (s : State) : (stopDone s).tmo = s.tmo := rfl
@[simp] theorem stopDone_sclOe (s : State) : (stopDone s).sclOe = false := rfl
@[simp] theorem stopDone_sdaOe (s : State) : (stopDone s).sdaOe = false := rfl
@[simp] theorem stopDone_par (s : State) : (stopDone s).par = s.par := rfl
@[simp] theorem stopDone_port (s : State) : (stopDone s).port = s.port := rfl
@[simp] theorem stopDone_starts (s : State) : (stopDone s).starts = s.starts := rfl
@[simp] theorem stopDone_bytes (s : State) : (stopDone s).bytes = s.bytes := rfl
@[simp] theorem stopDone_stops (s : State) : (stopDone s).stops = s.stops := rfl
@[simp] theorem stopDone_pulls (s : State) : (stopDone s).pulls = s.pulls := rfl
@[simp] theorem stopDone_grain (s : State) : (stopDone s).grain = s.grain := rfl
@[simp] theorem stopDone_draws (s : State) : (stopDone s).draws = s.draws := rfl
@[simp] theorem stopDone_cycle (s : State) : (stopDone s).cycle = s.cycle := rfl
@[simp] theorem stopDone_ends (s : State) : (stopDone s).ends = s.ends := rfl

@[simp] theorem closeBus_cmd (s : State) : (closeBus s).cmd = s.cmd := rfl
@[simp] theorem closeBus_en (s : State) : (closeBus s).en = s.en := rfl
@[simp] theorem closeBus_opn (s : State) : (closeBus s).opn = false := rfl
@[simp] theorem closeBus_ready (s : State) : (closeBus s).ready = s.ready := rfl
@[simp] theorem closeBus_busy (s : State) : (closeBus s).busy = s.busy := rfl
@[simp] theorem closeBus_last (s : State) : (closeBus s).last = s.last := rfl
@[simp] theorem closeBus_eTimeout (s : State) : (closeBus s).eTimeout = s.eTimeout := rfl
@[simp] theorem closeBus_eNack (s : State) : (closeBus s).eNack = s.eNack := rfl
@[simp] theorem closeBus_eInit (s : State) : (closeBus s).eInit = s.eInit := rfl
@[simp] theorem closeBus_eGlyph (s : State) : (closeBus s).eGlyph = s.eGlyph := rfl
@[simp] theorem closeBus_eCmd (s : State) : (closeBus s).eCmd = s.eCmd := rfl
@[simp] theorem closeBus_baud (s : State) : (closeBus s).baud = s.baud := rfl
@[simp] theorem closeBus_seq (s : State) : (closeBus s).seq = s.seq := rfl
@[simp] theorem closeBus_ipc (s : State) : (closeBus s).ipc = s.ipc := rfl
@[simp] theorem closeBus_cch (s : State) : (closeBus s).cch = s.cch := rfl
@[simp] theorem closeBus_dix (s : State) : (closeBus s).dix = s.dix := rfl
@[simp] theorem closeBus_pb (s : State) : (closeBus s).pb = s.pb := rfl
@[simp] theorem closeBus_gidx (s : State) : (closeBus s).gidx = s.gidx := rfl
@[simp] theorem closeBus_shr (s : State) : (closeBus s).shr = s.shr := rfl
@[simp] theorem closeBus_bitc (s : State) : (closeBus s).bitc = s.bitc := rfl
@[simp] theorem closeBus_ackl (s : State) : (closeBus s).ackl = s.ackl := rfl
@[simp] theorem closeBus_trace (s : State) : (closeBus s).trace = s.trace := rfl
@[simp] theorem closeBus_php (s : State) : (closeBus s).php = s.php := rfl
@[simp] theorem closeBus_qcnt (s : State) : (closeBus s).qcnt = s.qcnt := rfl
@[simp] theorem closeBus_tmo (s : State) : (closeBus s).tmo = s.tmo := rfl
@[simp] theorem closeBus_sclOe (s : State) : (closeBus s).sclOe = s.sclOe := rfl
@[simp] theorem closeBus_sdaOe (s : State) : (closeBus s).sdaOe = s.sdaOe := rfl
@[simp] theorem closeBus_par (s : State) : (closeBus s).par = s.par := rfl
@[simp] theorem closeBus_port (s : State) : (closeBus s).port = s.port := rfl
@[simp] theorem closeBus_starts (s : State) : (closeBus s).starts = s.starts := rfl
@[simp] theorem closeBus_bytes (s : State) : (closeBus s).bytes = s.bytes := rfl
@[simp] theorem closeBus_stops (s : State) : (closeBus s).stops = s.stops := rfl
@[simp] theorem closeBus_pulls (s : State) : (closeBus s).pulls = s.pulls := rfl
@[simp] theorem closeBus_grain (s : State) : (closeBus s).grain = s.grain := rfl
@[simp] theorem closeBus_draws (s : State) : (closeBus s).draws = s.draws := rfl
@[simp] theorem closeBus_cycle (s : State) : (closeBus s).cycle = s.cycle := rfl
@[simp] theorem closeBus_ends (s : State) : (closeBus s).ends = s.ends := rfl

@[simp] theorem atChan_cmd (c : Chan) (s : State) : (atChan c s).cmd = s.cmd := rfl
@[simp] theorem atChan_en (c : Chan) (s : State) : (atChan c s).en = s.en := rfl
@[simp] theorem atChan_opn (c : Chan) (s : State) : (atChan c s).opn = s.opn := rfl
@[simp] theorem atChan_ready (c : Chan) (s : State) : (atChan c s).ready = s.ready := rfl
@[simp] theorem atChan_busy (c : Chan) (s : State) : (atChan c s).busy = s.busy := rfl
@[simp] theorem atChan_last (c : Chan) (s : State) : (atChan c s).last = s.last := rfl
@[simp] theorem atChan_eTimeout (c : Chan) (s : State) : (atChan c s).eTimeout = s.eTimeout := rfl
@[simp] theorem atChan_eNack (c : Chan) (s : State) : (atChan c s).eNack = s.eNack := rfl
@[simp] theorem atChan_eInit (c : Chan) (s : State) : (atChan c s).eInit = s.eInit := rfl
@[simp] theorem atChan_eGlyph (c : Chan) (s : State) : (atChan c s).eGlyph = s.eGlyph := rfl
@[simp] theorem atChan_eCmd (c : Chan) (s : State) : (atChan c s).eCmd = s.eCmd := rfl
@[simp] theorem atChan_baud (c : Chan) (s : State) : (atChan c s).baud = s.baud := rfl
@[simp] theorem atChan_seq (c : Chan) (s : State) : (atChan c s).seq = s.seq := rfl
@[simp] theorem atChan_ipc (c : Chan) (s : State) : (atChan c s).ipc = s.ipc := rfl
@[simp] theorem atChan_cch (c : Chan) (s : State) : (atChan c s).cch = c := rfl
@[simp] theorem atChan_dix (c : Chan) (s : State) : (atChan c s).dix = s.dix := rfl
@[simp] theorem atChan_pb (c : Chan) (s : State) : (atChan c s).pb = s.pb := rfl
@[simp] theorem atChan_gidx (c : Chan) (s : State) : (atChan c s).gidx = s.gidx := rfl
@[simp] theorem atChan_shr (c : Chan) (s : State) : (atChan c s).shr = s.shr := rfl
@[simp] theorem atChan_bitc (c : Chan) (s : State) : (atChan c s).bitc = s.bitc := rfl
@[simp] theorem atChan_ackl (c : Chan) (s : State) : (atChan c s).ackl = s.ackl := rfl
@[simp] theorem atChan_trace (c : Chan) (s : State) : (atChan c s).trace = s.trace := rfl
@[simp] theorem atChan_php (c : Chan) (s : State) : (atChan c s).php = s.php := rfl
@[simp] theorem atChan_qcnt (c : Chan) (s : State) : (atChan c s).qcnt = s.qcnt := rfl
@[simp] theorem atChan_tmo (c : Chan) (s : State) : (atChan c s).tmo = s.tmo := rfl
@[simp] theorem atChan_sclOe (c : Chan) (s : State) : (atChan c s).sclOe = s.sclOe := rfl
@[simp] theorem atChan_sdaOe (c : Chan) (s : State) : (atChan c s).sdaOe = s.sdaOe := rfl
@[simp] theorem atChan_par (c : Chan) (s : State) : (atChan c s).par = s.par := rfl
@[simp] theorem atChan_port (c : Chan) (s : State) : (atChan c s).port = s.port := rfl
@[simp] theorem atChan_starts (c : Chan) (s : State) : (atChan c s).starts = s.starts := rfl
@[simp] theorem atChan_bytes (c : Chan) (s : State) : (atChan c s).bytes = s.bytes := rfl
@[simp] theorem atChan_stops (c : Chan) (s : State) : (atChan c s).stops = s.stops := rfl
@[simp] theorem atChan_pulls (c : Chan) (s : State) : (atChan c s).pulls = s.pulls := rfl
@[simp] theorem atChan_grain (c : Chan) (s : State) : (atChan c s).grain = s.grain := rfl
@[simp] theorem atChan_draws (c : Chan) (s : State) : (atChan c s).draws = s.draws := rfl
@[simp] theorem atChan_cycle (c : Chan) (s : State) : (atChan c s).cycle = s.cycle := rfl
@[simp] theorem atChan_ends (c : Chan) (s : State) : (atChan c s).ends = s.ends := rfl

@[simp] theorem loadDix_cmd (j : Nat) (s : State) : (loadDix j s).cmd = s.cmd := rfl
@[simp] theorem loadDix_en (j : Nat) (s : State) : (loadDix j s).en = s.en := rfl
@[simp] theorem loadDix_opn (j : Nat) (s : State) : (loadDix j s).opn = s.opn := rfl
@[simp] theorem loadDix_ready (j : Nat) (s : State) : (loadDix j s).ready = s.ready := rfl
@[simp] theorem loadDix_busy (j : Nat) (s : State) : (loadDix j s).busy = s.busy := rfl
@[simp] theorem loadDix_last (j : Nat) (s : State) : (loadDix j s).last = s.last := rfl
@[simp] theorem loadDix_eTimeout (j : Nat) (s : State) : (loadDix j s).eTimeout = s.eTimeout := rfl
@[simp] theorem loadDix_eNack (j : Nat) (s : State) : (loadDix j s).eNack = s.eNack := rfl
@[simp] theorem loadDix_eInit (j : Nat) (s : State) : (loadDix j s).eInit = s.eInit := rfl
@[simp] theorem loadDix_eGlyph (j : Nat) (s : State) : (loadDix j s).eGlyph = s.eGlyph := rfl
@[simp] theorem loadDix_eCmd (j : Nat) (s : State) : (loadDix j s).eCmd = s.eCmd := rfl
@[simp] theorem loadDix_baud (j : Nat) (s : State) : (loadDix j s).baud = s.baud := rfl
@[simp] theorem loadDix_seq (j : Nat) (s : State) : (loadDix j s).seq = s.seq := rfl
@[simp] theorem loadDix_ipc (j : Nat) (s : State) : (loadDix j s).ipc = s.ipc := rfl
@[simp] theorem loadDix_cch (j : Nat) (s : State) : (loadDix j s).cch = s.cch := rfl
@[simp] theorem loadDix_dix (j : Nat) (s : State) : (loadDix j s).dix = BitVec.ofNat 3 j := rfl
@[simp] theorem loadDix_pb (j : Nat) (s : State) : (loadDix j s).pb = s.pb := rfl
@[simp] theorem loadDix_gidx (j : Nat) (s : State) : (loadDix j s).gidx = s.gidx := rfl
@[simp] theorem loadDix_shr (j : Nat) (s : State) : (loadDix j s).shr = s.shr := rfl
@[simp] theorem loadDix_bitc (j : Nat) (s : State) : (loadDix j s).bitc = s.bitc := rfl
@[simp] theorem loadDix_ackl (j : Nat) (s : State) : (loadDix j s).ackl = s.ackl := rfl
@[simp] theorem loadDix_trace (j : Nat) (s : State) : (loadDix j s).trace = s.trace := rfl
@[simp] theorem loadDix_php (j : Nat) (s : State) : (loadDix j s).php = s.php := rfl
@[simp] theorem loadDix_qcnt (j : Nat) (s : State) : (loadDix j s).qcnt = s.qcnt := rfl
@[simp] theorem loadDix_tmo (j : Nat) (s : State) : (loadDix j s).tmo = s.tmo := rfl
@[simp] theorem loadDix_sclOe (j : Nat) (s : State) : (loadDix j s).sclOe = s.sclOe := rfl
@[simp] theorem loadDix_sdaOe (j : Nat) (s : State) : (loadDix j s).sdaOe = s.sdaOe := rfl
@[simp] theorem loadDix_par (j : Nat) (s : State) : (loadDix j s).par = s.par := rfl
@[simp] theorem loadDix_port (j : Nat) (s : State) : (loadDix j s).port = s.port := rfl
@[simp] theorem loadDix_starts (j : Nat) (s : State) : (loadDix j s).starts = s.starts := rfl
@[simp] theorem loadDix_bytes (j : Nat) (s : State) : (loadDix j s).bytes = s.bytes := rfl
@[simp] theorem loadDix_stops (j : Nat) (s : State) : (loadDix j s).stops = s.stops := rfl
@[simp] theorem loadDix_pulls (j : Nat) (s : State) : (loadDix j s).pulls = s.pulls := rfl
@[simp] theorem loadDix_grain (j : Nat) (s : State) : (loadDix j s).grain = s.grain := rfl
@[simp] theorem loadDix_draws (j : Nat) (s : State) : (loadDix j s).draws = s.draws := rfl
@[simp] theorem loadDix_cycle (j : Nat) (s : State) : (loadDix j s).cycle = s.cycle := rfl
@[simp] theorem loadDix_ends (j : Nat) (s : State) : (loadDix j s).ends = s.ends := rfl

@[simp] theorem loadPb_cmd (v : Byte) (s : State) : (loadPb v s).cmd = s.cmd := rfl
@[simp] theorem loadPb_en (v : Byte) (s : State) : (loadPb v s).en = s.en := rfl
@[simp] theorem loadPb_opn (v : Byte) (s : State) : (loadPb v s).opn = s.opn := rfl
@[simp] theorem loadPb_ready (v : Byte) (s : State) : (loadPb v s).ready = s.ready := rfl
@[simp] theorem loadPb_busy (v : Byte) (s : State) : (loadPb v s).busy = s.busy := rfl
@[simp] theorem loadPb_last (v : Byte) (s : State) : (loadPb v s).last = s.last := rfl
@[simp] theorem loadPb_eTimeout (v : Byte) (s : State) : (loadPb v s).eTimeout = s.eTimeout := rfl
@[simp] theorem loadPb_eNack (v : Byte) (s : State) : (loadPb v s).eNack = s.eNack := rfl
@[simp] theorem loadPb_eInit (v : Byte) (s : State) : (loadPb v s).eInit = s.eInit := rfl
@[simp] theorem loadPb_eGlyph (v : Byte) (s : State) : (loadPb v s).eGlyph = s.eGlyph := rfl
@[simp] theorem loadPb_eCmd (v : Byte) (s : State) : (loadPb v s).eCmd = s.eCmd := rfl
@[simp] theorem loadPb_baud (v : Byte) (s : State) : (loadPb v s).baud = s.baud := rfl
@[simp] theorem loadPb_seq (v : Byte) (s : State) : (loadPb v s).seq = s.seq := rfl
@[simp] theorem loadPb_ipc (v : Byte) (s : State) : (loadPb v s).ipc = s.ipc := rfl
@[simp] theorem loadPb_cch (v : Byte) (s : State) : (loadPb v s).cch = s.cch := rfl
@[simp] theorem loadPb_dix (v : Byte) (s : State) : (loadPb v s).dix = s.dix := rfl
@[simp] theorem loadPb_pb (v : Byte) (s : State) : (loadPb v s).pb = v := rfl
@[simp] theorem loadPb_gidx (v : Byte) (s : State) : (loadPb v s).gidx = s.gidx := rfl
@[simp] theorem loadPb_shr (v : Byte) (s : State) : (loadPb v s).shr = s.shr := rfl
@[simp] theorem loadPb_bitc (v : Byte) (s : State) : (loadPb v s).bitc = s.bitc := rfl
@[simp] theorem loadPb_ackl (v : Byte) (s : State) : (loadPb v s).ackl = s.ackl := rfl
@[simp] theorem loadPb_trace (v : Byte) (s : State) : (loadPb v s).trace = s.trace := rfl
@[simp] theorem loadPb_php (v : Byte) (s : State) : (loadPb v s).php = s.php := rfl
@[simp] theorem loadPb_qcnt (v : Byte) (s : State) : (loadPb v s).qcnt = s.qcnt := rfl
@[simp] theorem loadPb_tmo (v : Byte) (s : State) : (loadPb v s).tmo = s.tmo := rfl
@[simp] theorem loadPb_sclOe (v : Byte) (s : State) : (loadPb v s).sclOe = s.sclOe := rfl
@[simp] theorem loadPb_sdaOe (v : Byte) (s : State) : (loadPb v s).sdaOe = s.sdaOe := rfl
@[simp] theorem loadPb_par (v : Byte) (s : State) : (loadPb v s).par = s.par := rfl
@[simp] theorem loadPb_port (v : Byte) (s : State) : (loadPb v s).port = s.port := rfl
@[simp] theorem loadPb_starts (v : Byte) (s : State) : (loadPb v s).starts = s.starts := rfl
@[simp] theorem loadPb_bytes (v : Byte) (s : State) : (loadPb v s).bytes = s.bytes := rfl
@[simp] theorem loadPb_stops (v : Byte) (s : State) : (loadPb v s).stops = s.stops := rfl
@[simp] theorem loadPb_pulls (v : Byte) (s : State) : (loadPb v s).pulls = s.pulls := rfl
@[simp] theorem loadPb_grain (v : Byte) (s : State) : (loadPb v s).grain = s.grain := rfl
@[simp] theorem loadPb_draws (v : Byte) (s : State) : (loadPb v s).draws = s.draws := rfl
@[simp] theorem loadPb_cycle (v : Byte) (s : State) : (loadPb v s).cycle = s.cycle := rfl
@[simp] theorem loadPb_ends (v : Byte) (s : State) : (loadPb v s).ends = s.ends := rfl

@[simp] theorem loadShr_cmd (v : Byte) (s : State) : (loadShr v s).cmd = s.cmd := rfl
@[simp] theorem loadShr_en (v : Byte) (s : State) : (loadShr v s).en = s.en := rfl
@[simp] theorem loadShr_opn (v : Byte) (s : State) : (loadShr v s).opn = s.opn := rfl
@[simp] theorem loadShr_ready (v : Byte) (s : State) : (loadShr v s).ready = s.ready := rfl
@[simp] theorem loadShr_busy (v : Byte) (s : State) : (loadShr v s).busy = s.busy := rfl
@[simp] theorem loadShr_last (v : Byte) (s : State) : (loadShr v s).last = s.last := rfl
@[simp] theorem loadShr_eTimeout (v : Byte) (s : State) : (loadShr v s).eTimeout = s.eTimeout := rfl
@[simp] theorem loadShr_eNack (v : Byte) (s : State) : (loadShr v s).eNack = s.eNack := rfl
@[simp] theorem loadShr_eInit (v : Byte) (s : State) : (loadShr v s).eInit = s.eInit := rfl
@[simp] theorem loadShr_eGlyph (v : Byte) (s : State) : (loadShr v s).eGlyph = s.eGlyph := rfl
@[simp] theorem loadShr_eCmd (v : Byte) (s : State) : (loadShr v s).eCmd = s.eCmd := rfl
@[simp] theorem loadShr_baud (v : Byte) (s : State) : (loadShr v s).baud = s.baud := rfl
@[simp] theorem loadShr_seq (v : Byte) (s : State) : (loadShr v s).seq = s.seq := rfl
@[simp] theorem loadShr_ipc (v : Byte) (s : State) : (loadShr v s).ipc = s.ipc := rfl
@[simp] theorem loadShr_cch (v : Byte) (s : State) : (loadShr v s).cch = s.cch := rfl
@[simp] theorem loadShr_dix (v : Byte) (s : State) : (loadShr v s).dix = s.dix := rfl
@[simp] theorem loadShr_pb (v : Byte) (s : State) : (loadShr v s).pb = s.pb := rfl
@[simp] theorem loadShr_gidx (v : Byte) (s : State) : (loadShr v s).gidx = s.gidx := rfl
@[simp] theorem loadShr_shr (v : Byte) (s : State) : (loadShr v s).shr = v := rfl
@[simp] theorem loadShr_bitc (v : Byte) (s : State) : (loadShr v s).bitc = s.bitc := rfl
@[simp] theorem loadShr_ackl (v : Byte) (s : State) : (loadShr v s).ackl = s.ackl := rfl
@[simp] theorem loadShr_trace (v : Byte) (s : State) : (loadShr v s).trace = s.trace := rfl
@[simp] theorem loadShr_php (v : Byte) (s : State) : (loadShr v s).php = s.php := rfl
@[simp] theorem loadShr_qcnt (v : Byte) (s : State) : (loadShr v s).qcnt = s.qcnt := rfl
@[simp] theorem loadShr_tmo (v : Byte) (s : State) : (loadShr v s).tmo = s.tmo := rfl
@[simp] theorem loadShr_sclOe (v : Byte) (s : State) : (loadShr v s).sclOe = s.sclOe := rfl
@[simp] theorem loadShr_sdaOe (v : Byte) (s : State) : (loadShr v s).sdaOe = s.sdaOe := rfl
@[simp] theorem loadShr_par (v : Byte) (s : State) : (loadShr v s).par = s.par := rfl
@[simp] theorem loadShr_port (v : Byte) (s : State) : (loadShr v s).port = s.port := rfl
@[simp] theorem loadShr_starts (v : Byte) (s : State) : (loadShr v s).starts = s.starts := rfl
@[simp] theorem loadShr_bytes (v : Byte) (s : State) : (loadShr v s).bytes = s.bytes := rfl
@[simp] theorem loadShr_stops (v : Byte) (s : State) : (loadShr v s).stops = s.stops := rfl
@[simp] theorem loadShr_pulls (v : Byte) (s : State) : (loadShr v s).pulls = s.pulls := rfl
@[simp] theorem loadShr_grain (v : Byte) (s : State) : (loadShr v s).grain = s.grain := rfl
@[simp] theorem loadShr_draws (v : Byte) (s : State) : (loadShr v s).draws = s.draws := rfl
@[simp] theorem loadShr_cycle (v : Byte) (s : State) : (loadShr v s).cycle = s.cycle := rfl
@[simp] theorem loadShr_ends (v : Byte) (s : State) : (loadShr v s).ends = s.ends := rfl

@[simp] theorem setAckl_cmd (a : Bool) (s : State) : (setAckl a s).cmd = s.cmd := rfl
@[simp] theorem setAckl_en (a : Bool) (s : State) : (setAckl a s).en = s.en := rfl
@[simp] theorem setAckl_opn (a : Bool) (s : State) : (setAckl a s).opn = s.opn := rfl
@[simp] theorem setAckl_ready (a : Bool) (s : State) : (setAckl a s).ready = s.ready := rfl
@[simp] theorem setAckl_busy (a : Bool) (s : State) : (setAckl a s).busy = s.busy := rfl
@[simp] theorem setAckl_last (a : Bool) (s : State) : (setAckl a s).last = s.last := rfl
@[simp] theorem setAckl_eTimeout (a : Bool) (s : State) : (setAckl a s).eTimeout = s.eTimeout := rfl
@[simp] theorem setAckl_eNack (a : Bool) (s : State) : (setAckl a s).eNack = s.eNack := rfl
@[simp] theorem setAckl_eInit (a : Bool) (s : State) : (setAckl a s).eInit = s.eInit := rfl
@[simp] theorem setAckl_eGlyph (a : Bool) (s : State) : (setAckl a s).eGlyph = s.eGlyph := rfl
@[simp] theorem setAckl_eCmd (a : Bool) (s : State) : (setAckl a s).eCmd = s.eCmd := rfl
@[simp] theorem setAckl_baud (a : Bool) (s : State) : (setAckl a s).baud = s.baud := rfl
@[simp] theorem setAckl_seq (a : Bool) (s : State) : (setAckl a s).seq = s.seq := rfl
@[simp] theorem setAckl_ipc (a : Bool) (s : State) : (setAckl a s).ipc = s.ipc := rfl
@[simp] theorem setAckl_cch (a : Bool) (s : State) : (setAckl a s).cch = s.cch := rfl
@[simp] theorem setAckl_dix (a : Bool) (s : State) : (setAckl a s).dix = s.dix := rfl
@[simp] theorem setAckl_pb (a : Bool) (s : State) : (setAckl a s).pb = s.pb := rfl
@[simp] theorem setAckl_gidx (a : Bool) (s : State) : (setAckl a s).gidx = s.gidx := rfl
@[simp] theorem setAckl_shr (a : Bool) (s : State) : (setAckl a s).shr = s.shr := rfl
@[simp] theorem setAckl_bitc (a : Bool) (s : State) : (setAckl a s).bitc = s.bitc := rfl
@[simp] theorem setAckl_ackl (a : Bool) (s : State) : (setAckl a s).ackl = a := rfl
@[simp] theorem setAckl_trace (a : Bool) (s : State) : (setAckl a s).trace = s.trace := rfl
@[simp] theorem setAckl_php (a : Bool) (s : State) : (setAckl a s).php = s.php := rfl
@[simp] theorem setAckl_qcnt (a : Bool) (s : State) : (setAckl a s).qcnt = s.qcnt := rfl
@[simp] theorem setAckl_tmo (a : Bool) (s : State) : (setAckl a s).tmo = s.tmo := rfl
@[simp] theorem setAckl_sclOe (a : Bool) (s : State) : (setAckl a s).sclOe = s.sclOe := rfl
@[simp] theorem setAckl_sdaOe (a : Bool) (s : State) : (setAckl a s).sdaOe = s.sdaOe := rfl
@[simp] theorem setAckl_par (a : Bool) (s : State) : (setAckl a s).par = s.par := rfl
@[simp] theorem setAckl_port (a : Bool) (s : State) : (setAckl a s).port = s.port := rfl
@[simp] theorem setAckl_starts (a : Bool) (s : State) : (setAckl a s).starts = s.starts := rfl
@[simp] theorem setAckl_bytes (a : Bool) (s : State) : (setAckl a s).bytes = s.bytes := rfl
@[simp] theorem setAckl_stops (a : Bool) (s : State) : (setAckl a s).stops = s.stops := rfl
@[simp] theorem setAckl_pulls (a : Bool) (s : State) : (setAckl a s).pulls = s.pulls := rfl
@[simp] theorem setAckl_grain (a : Bool) (s : State) : (setAckl a s).grain = s.grain := rfl
@[simp] theorem setAckl_draws (a : Bool) (s : State) : (setAckl a s).draws = s.draws := rfl
@[simp] theorem setAckl_cycle (a : Bool) (s : State) : (setAckl a s).cycle = s.cycle := rfl
@[simp] theorem setAckl_ends (a : Bool) (s : State) : (setAckl a s).ends = s.ends := rfl

@[simp] theorem clearIpc_cmd (s : State) : (clearIpc s).cmd = s.cmd := rfl
@[simp] theorem clearIpc_en (s : State) : (clearIpc s).en = s.en := rfl
@[simp] theorem clearIpc_opn (s : State) : (clearIpc s).opn = s.opn := rfl
@[simp] theorem clearIpc_ready (s : State) : (clearIpc s).ready = s.ready := rfl
@[simp] theorem clearIpc_busy (s : State) : (clearIpc s).busy = s.busy := rfl
@[simp] theorem clearIpc_last (s : State) : (clearIpc s).last = s.last := rfl
@[simp] theorem clearIpc_eTimeout (s : State) : (clearIpc s).eTimeout = s.eTimeout := rfl
@[simp] theorem clearIpc_eNack (s : State) : (clearIpc s).eNack = s.eNack := rfl
@[simp] theorem clearIpc_eInit (s : State) : (clearIpc s).eInit = s.eInit := rfl
@[simp] theorem clearIpc_eGlyph (s : State) : (clearIpc s).eGlyph = s.eGlyph := rfl
@[simp] theorem clearIpc_eCmd (s : State) : (clearIpc s).eCmd = s.eCmd := rfl
@[simp] theorem clearIpc_baud (s : State) : (clearIpc s).baud = s.baud := rfl
@[simp] theorem clearIpc_seq (s : State) : (clearIpc s).seq = s.seq := rfl
@[simp] theorem clearIpc_ipc (s : State) : (clearIpc s).ipc = 0 := rfl
@[simp] theorem clearIpc_cch (s : State) : (clearIpc s).cch = s.cch := rfl
@[simp] theorem clearIpc_dix (s : State) : (clearIpc s).dix = s.dix := rfl
@[simp] theorem clearIpc_pb (s : State) : (clearIpc s).pb = s.pb := rfl
@[simp] theorem clearIpc_gidx (s : State) : (clearIpc s).gidx = s.gidx := rfl
@[simp] theorem clearIpc_shr (s : State) : (clearIpc s).shr = s.shr := rfl
@[simp] theorem clearIpc_bitc (s : State) : (clearIpc s).bitc = s.bitc := rfl
@[simp] theorem clearIpc_ackl (s : State) : (clearIpc s).ackl = s.ackl := rfl
@[simp] theorem clearIpc_trace (s : State) : (clearIpc s).trace = s.trace := rfl
@[simp] theorem clearIpc_php (s : State) : (clearIpc s).php = s.php := rfl
@[simp] theorem clearIpc_qcnt (s : State) : (clearIpc s).qcnt = s.qcnt := rfl
@[simp] theorem clearIpc_tmo (s : State) : (clearIpc s).tmo = s.tmo := rfl
@[simp] theorem clearIpc_sclOe (s : State) : (clearIpc s).sclOe = s.sclOe := rfl
@[simp] theorem clearIpc_sdaOe (s : State) : (clearIpc s).sdaOe = s.sdaOe := rfl
@[simp] theorem clearIpc_par (s : State) : (clearIpc s).par = s.par := rfl
@[simp] theorem clearIpc_port (s : State) : (clearIpc s).port = s.port := rfl
@[simp] theorem clearIpc_starts (s : State) : (clearIpc s).starts = s.starts := rfl
@[simp] theorem clearIpc_bytes (s : State) : (clearIpc s).bytes = s.bytes := rfl
@[simp] theorem clearIpc_stops (s : State) : (clearIpc s).stops = s.stops := rfl
@[simp] theorem clearIpc_pulls (s : State) : (clearIpc s).pulls = s.pulls := rfl
@[simp] theorem clearIpc_grain (s : State) : (clearIpc s).grain = s.grain := rfl
@[simp] theorem clearIpc_draws (s : State) : (clearIpc s).draws = s.draws := rfl
@[simp] theorem clearIpc_cycle (s : State) : (clearIpc s).cycle = s.cycle := rfl
@[simp] theorem clearIpc_ends (s : State) : (clearIpc s).ends = s.ends := rfl

@[simp] theorem loadGidx_cmd (i : Nat) (s : State) : (loadGidx i s).cmd = s.cmd := rfl
@[simp] theorem loadGidx_en (i : Nat) (s : State) : (loadGidx i s).en = s.en := rfl
@[simp] theorem loadGidx_opn (i : Nat) (s : State) : (loadGidx i s).opn = s.opn := rfl
@[simp] theorem loadGidx_ready (i : Nat) (s : State) : (loadGidx i s).ready = s.ready := rfl
@[simp] theorem loadGidx_busy (i : Nat) (s : State) : (loadGidx i s).busy = s.busy := rfl
@[simp] theorem loadGidx_last (i : Nat) (s : State) : (loadGidx i s).last = s.last := rfl
@[simp] theorem loadGidx_eTimeout (i : Nat) (s : State) : (loadGidx i s).eTimeout = s.eTimeout := rfl
@[simp] theorem loadGidx_eNack (i : Nat) (s : State) : (loadGidx i s).eNack = s.eNack := rfl
@[simp] theorem loadGidx_eInit (i : Nat) (s : State) : (loadGidx i s).eInit = s.eInit := rfl
@[simp] theorem loadGidx_eGlyph (i : Nat) (s : State) : (loadGidx i s).eGlyph = s.eGlyph := rfl
@[simp] theorem loadGidx_eCmd (i : Nat) (s : State) : (loadGidx i s).eCmd = s.eCmd := rfl
@[simp] theorem loadGidx_baud (i : Nat) (s : State) : (loadGidx i s).baud = s.baud := rfl
@[simp] theorem loadGidx_seq (i : Nat) (s : State) : (loadGidx i s).seq = s.seq := rfl
@[simp] theorem loadGidx_ipc (i : Nat) (s : State) : (loadGidx i s).ipc = s.ipc := rfl
@[simp] theorem loadGidx_cch (i : Nat) (s : State) : (loadGidx i s).cch = s.cch := rfl
@[simp] theorem loadGidx_dix (i : Nat) (s : State) : (loadGidx i s).dix = s.dix := rfl
@[simp] theorem loadGidx_pb (i : Nat) (s : State) : (loadGidx i s).pb = s.pb := rfl
@[simp] theorem loadGidx_gidx (i : Nat) (s : State) : (loadGidx i s).gidx = BitVec.ofNat 5 i := rfl
@[simp] theorem loadGidx_shr (i : Nat) (s : State) : (loadGidx i s).shr = s.shr := rfl
@[simp] theorem loadGidx_bitc (i : Nat) (s : State) : (loadGidx i s).bitc = s.bitc := rfl
@[simp] theorem loadGidx_ackl (i : Nat) (s : State) : (loadGidx i s).ackl = s.ackl := rfl
@[simp] theorem loadGidx_trace (i : Nat) (s : State) : (loadGidx i s).trace = s.trace := rfl
@[simp] theorem loadGidx_php (i : Nat) (s : State) : (loadGidx i s).php = s.php := rfl
@[simp] theorem loadGidx_qcnt (i : Nat) (s : State) : (loadGidx i s).qcnt = s.qcnt := rfl
@[simp] theorem loadGidx_tmo (i : Nat) (s : State) : (loadGidx i s).tmo = s.tmo := rfl
@[simp] theorem loadGidx_sclOe (i : Nat) (s : State) : (loadGidx i s).sclOe = s.sclOe := rfl
@[simp] theorem loadGidx_sdaOe (i : Nat) (s : State) : (loadGidx i s).sdaOe = s.sdaOe := rfl
@[simp] theorem loadGidx_par (i : Nat) (s : State) : (loadGidx i s).par = s.par := rfl
@[simp] theorem loadGidx_port (i : Nat) (s : State) : (loadGidx i s).port = s.port := rfl
@[simp] theorem loadGidx_starts (i : Nat) (s : State) : (loadGidx i s).starts = s.starts := rfl
@[simp] theorem loadGidx_bytes (i : Nat) (s : State) : (loadGidx i s).bytes = s.bytes := rfl
@[simp] theorem loadGidx_stops (i : Nat) (s : State) : (loadGidx i s).stops = s.stops := rfl
@[simp] theorem loadGidx_pulls (i : Nat) (s : State) : (loadGidx i s).pulls = s.pulls := rfl
@[simp] theorem loadGidx_grain (i : Nat) (s : State) : (loadGidx i s).grain = s.grain := rfl
@[simp] theorem loadGidx_draws (i : Nat) (s : State) : (loadGidx i s).draws = s.draws := rfl
@[simp] theorem loadGidx_cycle (i : Nat) (s : State) : (loadGidx i s).cycle = s.cycle := rfl
@[simp] theorem loadGidx_ends (i : Nat) (s : State) : (loadGidx i s).ends = s.ends := rfl

@[simp] theorem runs_cmd (q : Seq) (s : State) : (runs q s).cmd = s.cmd := rfl
@[simp] theorem runs_en (q : Seq) (s : State) : (runs q s).en = s.en := rfl
@[simp] theorem runs_opn (q : Seq) (s : State) : (runs q s).opn = s.opn := rfl
@[simp] theorem runs_ready (q : Seq) (s : State) : (runs q s).ready = s.ready := rfl
@[simp] theorem runs_busy (q : Seq) (s : State) : (runs q s).busy = true := rfl
@[simp] theorem runs_last (q : Seq) (s : State) : (runs q s).last = s.last := rfl
@[simp] theorem runs_eTimeout (q : Seq) (s : State) : (runs q s).eTimeout = s.eTimeout := rfl
@[simp] theorem runs_eNack (q : Seq) (s : State) : (runs q s).eNack = s.eNack := rfl
@[simp] theorem runs_eInit (q : Seq) (s : State) : (runs q s).eInit = s.eInit := rfl
@[simp] theorem runs_eGlyph (q : Seq) (s : State) : (runs q s).eGlyph = s.eGlyph := rfl
@[simp] theorem runs_eCmd (q : Seq) (s : State) : (runs q s).eCmd = s.eCmd := rfl
@[simp] theorem runs_baud (q : Seq) (s : State) : (runs q s).baud = s.baud := rfl
@[simp] theorem runs_seq (q : Seq) (s : State) : (runs q s).seq = q := rfl
@[simp] theorem runs_ipc (q : Seq) (s : State) : (runs q s).ipc = s.ipc := rfl
@[simp] theorem runs_cch (q : Seq) (s : State) : (runs q s).cch = s.cch := rfl
@[simp] theorem runs_dix (q : Seq) (s : State) : (runs q s).dix = s.dix := rfl
@[simp] theorem runs_pb (q : Seq) (s : State) : (runs q s).pb = s.pb := rfl
@[simp] theorem runs_gidx (q : Seq) (s : State) : (runs q s).gidx = s.gidx := rfl
@[simp] theorem runs_shr (q : Seq) (s : State) : (runs q s).shr = s.shr := rfl
@[simp] theorem runs_bitc (q : Seq) (s : State) : (runs q s).bitc = s.bitc := rfl
@[simp] theorem runs_ackl (q : Seq) (s : State) : (runs q s).ackl = s.ackl := rfl
@[simp] theorem runs_trace (q : Seq) (s : State) : (runs q s).trace = s.trace := rfl
@[simp] theorem runs_php (q : Seq) (s : State) : (runs q s).php = s.php := rfl
@[simp] theorem runs_qcnt (q : Seq) (s : State) : (runs q s).qcnt = s.qcnt := rfl
@[simp] theorem runs_tmo (q : Seq) (s : State) : (runs q s).tmo = s.tmo := rfl
@[simp] theorem runs_sclOe (q : Seq) (s : State) : (runs q s).sclOe = s.sclOe := rfl
@[simp] theorem runs_sdaOe (q : Seq) (s : State) : (runs q s).sdaOe = s.sdaOe := rfl
@[simp] theorem runs_par (q : Seq) (s : State) : (runs q s).par = s.par := rfl
@[simp] theorem runs_port (q : Seq) (s : State) : (runs q s).port = s.port := rfl
@[simp] theorem runs_starts (q : Seq) (s : State) : (runs q s).starts = s.starts := rfl
@[simp] theorem runs_bytes (q : Seq) (s : State) : (runs q s).bytes = s.bytes := rfl
@[simp] theorem runs_stops (q : Seq) (s : State) : (runs q s).stops = s.stops := rfl
@[simp] theorem runs_pulls (q : Seq) (s : State) : (runs q s).pulls = s.pulls := rfl
@[simp] theorem runs_grain (q : Seq) (s : State) : (runs q s).grain = s.grain := rfl
@[simp] theorem runs_draws (q : Seq) (s : State) : (runs q s).draws = s.draws := rfl
@[simp] theorem runs_cycle (q : Seq) (s : State) : (runs q s).cycle = s.cycle := rfl
@[simp] theorem runs_ends (q : Seq) (s : State) : (runs q s).ends = s.ends := rfl

@[simp] theorem advanceIpc_cmd (s : State) : (advanceIpc s).cmd = s.cmd := rfl
@[simp] theorem advanceIpc_en (s : State) : (advanceIpc s).en = s.en := rfl
@[simp] theorem advanceIpc_opn (s : State) : (advanceIpc s).opn = s.opn := rfl
@[simp] theorem advanceIpc_ready (s : State) : (advanceIpc s).ready = s.ready := rfl
@[simp] theorem advanceIpc_busy (s : State) : (advanceIpc s).busy = s.busy := rfl
@[simp] theorem advanceIpc_last (s : State) : (advanceIpc s).last = s.last := rfl
@[simp] theorem advanceIpc_eTimeout (s : State) : (advanceIpc s).eTimeout = s.eTimeout := rfl
@[simp] theorem advanceIpc_eNack (s : State) : (advanceIpc s).eNack = s.eNack := rfl
@[simp] theorem advanceIpc_eInit (s : State) : (advanceIpc s).eInit = s.eInit := rfl
@[simp] theorem advanceIpc_eGlyph (s : State) : (advanceIpc s).eGlyph = s.eGlyph := rfl
@[simp] theorem advanceIpc_eCmd (s : State) : (advanceIpc s).eCmd = s.eCmd := rfl
@[simp] theorem advanceIpc_baud (s : State) : (advanceIpc s).baud = s.baud := rfl
@[simp] theorem advanceIpc_seq (s : State) : (advanceIpc s).seq = s.seq := rfl
@[simp] theorem advanceIpc_ipc (s : State) : (advanceIpc s).ipc = s.ipc + 1 := rfl
@[simp] theorem advanceIpc_cch (s : State) : (advanceIpc s).cch = s.cch := rfl
@[simp] theorem advanceIpc_dix (s : State) : (advanceIpc s).dix = s.dix := rfl
@[simp] theorem advanceIpc_pb (s : State) : (advanceIpc s).pb = s.pb := rfl
@[simp] theorem advanceIpc_gidx (s : State) : (advanceIpc s).gidx = s.gidx := rfl
@[simp] theorem advanceIpc_shr (s : State) : (advanceIpc s).shr = s.shr := rfl
@[simp] theorem advanceIpc_bitc (s : State) : (advanceIpc s).bitc = s.bitc := rfl
@[simp] theorem advanceIpc_ackl (s : State) : (advanceIpc s).ackl = s.ackl := rfl
@[simp] theorem advanceIpc_trace (s : State) : (advanceIpc s).trace = s.trace := rfl
@[simp] theorem advanceIpc_php (s : State) : (advanceIpc s).php = s.php := rfl
@[simp] theorem advanceIpc_qcnt (s : State) : (advanceIpc s).qcnt = s.qcnt := rfl
@[simp] theorem advanceIpc_tmo (s : State) : (advanceIpc s).tmo = s.tmo := rfl
@[simp] theorem advanceIpc_sclOe (s : State) : (advanceIpc s).sclOe = s.sclOe := rfl
@[simp] theorem advanceIpc_sdaOe (s : State) : (advanceIpc s).sdaOe = s.sdaOe := rfl
@[simp] theorem advanceIpc_par (s : State) : (advanceIpc s).par = s.par := rfl
@[simp] theorem advanceIpc_port (s : State) : (advanceIpc s).port = s.port := rfl
@[simp] theorem advanceIpc_starts (s : State) : (advanceIpc s).starts = s.starts := rfl
@[simp] theorem advanceIpc_bytes (s : State) : (advanceIpc s).bytes = s.bytes := rfl
@[simp] theorem advanceIpc_stops (s : State) : (advanceIpc s).stops = s.stops := rfl
@[simp] theorem advanceIpc_pulls (s : State) : (advanceIpc s).pulls = s.pulls := rfl
@[simp] theorem advanceIpc_grain (s : State) : (advanceIpc s).grain = s.grain := rfl
@[simp] theorem advanceIpc_draws (s : State) : (advanceIpc s).draws = s.draws := rfl
@[simp] theorem advanceIpc_cycle (s : State) : (advanceIpc s).cycle = s.cycle := rfl
@[simp] theorem advanceIpc_ends (s : State) : (advanceIpc s).ends = s.ends := rfl

@[simp] theorem setReady_cmd (s : State) : (setReady s).cmd = s.cmd := rfl
@[simp] theorem setReady_en (s : State) : (setReady s).en = s.en := rfl
@[simp] theorem setReady_opn (s : State) : (setReady s).opn = s.opn := rfl
@[simp] theorem setReady_ready (s : State) : (setReady s).ready = true := rfl
@[simp] theorem setReady_busy (s : State) : (setReady s).busy = s.busy := rfl
@[simp] theorem setReady_last (s : State) : (setReady s).last = s.last := rfl
@[simp] theorem setReady_eTimeout (s : State) : (setReady s).eTimeout = s.eTimeout := rfl
@[simp] theorem setReady_eNack (s : State) : (setReady s).eNack = s.eNack := rfl
@[simp] theorem setReady_eInit (s : State) : (setReady s).eInit = s.eInit := rfl
@[simp] theorem setReady_eGlyph (s : State) : (setReady s).eGlyph = s.eGlyph := rfl
@[simp] theorem setReady_eCmd (s : State) : (setReady s).eCmd = s.eCmd := rfl
@[simp] theorem setReady_baud (s : State) : (setReady s).baud = s.baud := rfl
@[simp] theorem setReady_seq (s : State) : (setReady s).seq = s.seq := rfl
@[simp] theorem setReady_ipc (s : State) : (setReady s).ipc = s.ipc := rfl
@[simp] theorem setReady_cch (s : State) : (setReady s).cch = s.cch := rfl
@[simp] theorem setReady_dix (s : State) : (setReady s).dix = s.dix := rfl
@[simp] theorem setReady_pb (s : State) : (setReady s).pb = s.pb := rfl
@[simp] theorem setReady_gidx (s : State) : (setReady s).gidx = s.gidx := rfl
@[simp] theorem setReady_shr (s : State) : (setReady s).shr = s.shr := rfl
@[simp] theorem setReady_bitc (s : State) : (setReady s).bitc = s.bitc := rfl
@[simp] theorem setReady_ackl (s : State) : (setReady s).ackl = s.ackl := rfl
@[simp] theorem setReady_trace (s : State) : (setReady s).trace = s.trace := rfl
@[simp] theorem setReady_php (s : State) : (setReady s).php = s.php := rfl
@[simp] theorem setReady_qcnt (s : State) : (setReady s).qcnt = s.qcnt := rfl
@[simp] theorem setReady_tmo (s : State) : (setReady s).tmo = s.tmo := rfl
@[simp] theorem setReady_sclOe (s : State) : (setReady s).sclOe = s.sclOe := rfl
@[simp] theorem setReady_sdaOe (s : State) : (setReady s).sdaOe = s.sdaOe := rfl
@[simp] theorem setReady_par (s : State) : (setReady s).par = s.par := rfl
@[simp] theorem setReady_port (s : State) : (setReady s).port = s.port := rfl
@[simp] theorem setReady_starts (s : State) : (setReady s).starts = s.starts := rfl
@[simp] theorem setReady_bytes (s : State) : (setReady s).bytes = s.bytes := rfl
@[simp] theorem setReady_stops (s : State) : (setReady s).stops = s.stops := rfl
@[simp] theorem setReady_pulls (s : State) : (setReady s).pulls = s.pulls := rfl
@[simp] theorem setReady_grain (s : State) : (setReady s).grain = s.grain := rfl
@[simp] theorem setReady_draws (s : State) : (setReady s).draws = s.draws := rfl
@[simp] theorem setReady_cycle (s : State) : (setReady s).cycle = s.cycle := rfl
@[simp] theorem setReady_ends (s : State) : (setReady s).ends = s.ends := rfl

@[simp] theorem drawStart_cmd (s : State) : ((drawStart s).2).cmd = s.cmd := by unfold drawStart; split <;> rfl
@[simp] theorem drawStart_en (s : State) : ((drawStart s).2).en = s.en := by unfold drawStart; split <;> rfl
@[simp] theorem drawStart_opn (s : State) : ((drawStart s).2).opn = s.opn := by unfold drawStart; split <;> rfl
@[simp] theorem drawStart_ready (s : State) : ((drawStart s).2).ready = s.ready := by unfold drawStart; split <;> rfl
@[simp] theorem drawStart_busy (s : State) : ((drawStart s).2).busy = s.busy := by unfold drawStart; split <;> rfl
@[simp] theorem drawStart_last (s : State) : ((drawStart s).2).last = s.last := by unfold drawStart; split <;> rfl
@[simp] theorem drawStart_eTimeout (s : State) : ((drawStart s).2).eTimeout = s.eTimeout := by unfold drawStart; split <;> rfl
@[simp] theorem drawStart_eNack (s : State) : ((drawStart s).2).eNack = s.eNack := by unfold drawStart; split <;> rfl
@[simp] theorem drawStart_eInit (s : State) : ((drawStart s).2).eInit = s.eInit := by unfold drawStart; split <;> rfl
@[simp] theorem drawStart_eGlyph (s : State) : ((drawStart s).2).eGlyph = s.eGlyph := by unfold drawStart; split <;> rfl
@[simp] theorem drawStart_eCmd (s : State) : ((drawStart s).2).eCmd = s.eCmd := by unfold drawStart; split <;> rfl
@[simp] theorem drawStart_baud (s : State) : ((drawStart s).2).baud = s.baud := by unfold drawStart; split <;> rfl
@[simp] theorem drawStart_seq (s : State) : ((drawStart s).2).seq = s.seq := by unfold drawStart; split <;> rfl
@[simp] theorem drawStart_ipc (s : State) : ((drawStart s).2).ipc = s.ipc := by unfold drawStart; split <;> rfl
@[simp] theorem drawStart_cch (s : State) : ((drawStart s).2).cch = s.cch := by unfold drawStart; split <;> rfl
@[simp] theorem drawStart_dix (s : State) : ((drawStart s).2).dix = s.dix := by unfold drawStart; split <;> rfl
@[simp] theorem drawStart_pb (s : State) : ((drawStart s).2).pb = s.pb := by unfold drawStart; split <;> rfl
@[simp] theorem drawStart_gidx (s : State) : ((drawStart s).2).gidx = s.gidx := by unfold drawStart; split <;> rfl
@[simp] theorem drawStart_shr (s : State) : ((drawStart s).2).shr = s.shr := by unfold drawStart; split <;> rfl
@[simp] theorem drawStart_bitc (s : State) : ((drawStart s).2).bitc = s.bitc := by unfold drawStart; split <;> rfl
@[simp] theorem drawStart_ackl (s : State) : ((drawStart s).2).ackl = s.ackl := by unfold drawStart; split <;> rfl
@[simp] theorem drawStart_trace (s : State) : ((drawStart s).2).trace = s.trace := by unfold drawStart; split <;> rfl
@[simp] theorem drawStart_php (s : State) : ((drawStart s).2).php = s.php := by unfold drawStart; split <;> rfl
@[simp] theorem drawStart_qcnt (s : State) : ((drawStart s).2).qcnt = s.qcnt := by unfold drawStart; split <;> rfl
@[simp] theorem drawStart_tmo (s : State) : ((drawStart s).2).tmo = s.tmo := by unfold drawStart; split <;> rfl
@[simp] theorem drawStart_sclOe (s : State) : ((drawStart s).2).sclOe = s.sclOe := by unfold drawStart; split <;> rfl
@[simp] theorem drawStart_sdaOe (s : State) : ((drawStart s).2).sdaOe = s.sdaOe := by unfold drawStart; split <;> rfl
@[simp] theorem drawStart_par (s : State) : ((drawStart s).2).par = s.par := by unfold drawStart; split <;> rfl
@[simp] theorem drawStart_port (s : State) : ((drawStart s).2).port = s.port := by unfold drawStart; split <;> rfl
@[simp] theorem drawStart_bytes (s : State) : ((drawStart s).2).bytes = s.bytes := by unfold drawStart; split <;> rfl
@[simp] theorem drawStart_stops (s : State) : ((drawStart s).2).stops = s.stops := by unfold drawStart; split <;> rfl
@[simp] theorem drawStart_pulls (s : State) : ((drawStart s).2).pulls = s.pulls := by unfold drawStart; split <;> rfl
@[simp] theorem drawStart_grain (s : State) : ((drawStart s).2).grain = s.grain := by unfold drawStart; split <;> rfl
@[simp] theorem drawStart_cycle (s : State) : ((drawStart s).2).cycle = s.cycle := by unfold drawStart; split <;> rfl
@[simp] theorem drawStart_ends (s : State) : ((drawStart s).2).ends = s.ends := by unfold drawStart; split <;> rfl

@[simp] theorem drawByte_cmd (s : State) : ((drawByte s).2).cmd = s.cmd := by unfold drawByte; split <;> rfl
@[simp] theorem drawByte_en (s : State) : ((drawByte s).2).en = s.en := by unfold drawByte; split <;> rfl
@[simp] theorem drawByte_opn (s : State) : ((drawByte s).2).opn = s.opn := by unfold drawByte; split <;> rfl
@[simp] theorem drawByte_ready (s : State) : ((drawByte s).2).ready = s.ready := by unfold drawByte; split <;> rfl
@[simp] theorem drawByte_busy (s : State) : ((drawByte s).2).busy = s.busy := by unfold drawByte; split <;> rfl
@[simp] theorem drawByte_last (s : State) : ((drawByte s).2).last = s.last := by unfold drawByte; split <;> rfl
@[simp] theorem drawByte_eTimeout (s : State) : ((drawByte s).2).eTimeout = s.eTimeout := by unfold drawByte; split <;> rfl
@[simp] theorem drawByte_eNack (s : State) : ((drawByte s).2).eNack = s.eNack := by unfold drawByte; split <;> rfl
@[simp] theorem drawByte_eInit (s : State) : ((drawByte s).2).eInit = s.eInit := by unfold drawByte; split <;> rfl
@[simp] theorem drawByte_eGlyph (s : State) : ((drawByte s).2).eGlyph = s.eGlyph := by unfold drawByte; split <;> rfl
@[simp] theorem drawByte_eCmd (s : State) : ((drawByte s).2).eCmd = s.eCmd := by unfold drawByte; split <;> rfl
@[simp] theorem drawByte_baud (s : State) : ((drawByte s).2).baud = s.baud := by unfold drawByte; split <;> rfl
@[simp] theorem drawByte_seq (s : State) : ((drawByte s).2).seq = s.seq := by unfold drawByte; split <;> rfl
@[simp] theorem drawByte_ipc (s : State) : ((drawByte s).2).ipc = s.ipc := by unfold drawByte; split <;> rfl
@[simp] theorem drawByte_cch (s : State) : ((drawByte s).2).cch = s.cch := by unfold drawByte; split <;> rfl
@[simp] theorem drawByte_dix (s : State) : ((drawByte s).2).dix = s.dix := by unfold drawByte; split <;> rfl
@[simp] theorem drawByte_pb (s : State) : ((drawByte s).2).pb = s.pb := by unfold drawByte; split <;> rfl
@[simp] theorem drawByte_gidx (s : State) : ((drawByte s).2).gidx = s.gidx := by unfold drawByte; split <;> rfl
@[simp] theorem drawByte_shr (s : State) : ((drawByte s).2).shr = s.shr := by unfold drawByte; split <;> rfl
@[simp] theorem drawByte_bitc (s : State) : ((drawByte s).2).bitc = s.bitc := by unfold drawByte; split <;> rfl
@[simp] theorem drawByte_ackl (s : State) : ((drawByte s).2).ackl = s.ackl := by unfold drawByte; split <;> rfl
@[simp] theorem drawByte_trace (s : State) : ((drawByte s).2).trace = s.trace := by unfold drawByte; split <;> rfl
@[simp] theorem drawByte_php (s : State) : ((drawByte s).2).php = s.php := by unfold drawByte; split <;> rfl
@[simp] theorem drawByte_qcnt (s : State) : ((drawByte s).2).qcnt = s.qcnt := by unfold drawByte; split <;> rfl
@[simp] theorem drawByte_tmo (s : State) : ((drawByte s).2).tmo = s.tmo := by unfold drawByte; split <;> rfl
@[simp] theorem drawByte_sclOe (s : State) : ((drawByte s).2).sclOe = s.sclOe := by unfold drawByte; split <;> rfl
@[simp] theorem drawByte_sdaOe (s : State) : ((drawByte s).2).sdaOe = s.sdaOe := by unfold drawByte; split <;> rfl
@[simp] theorem drawByte_par (s : State) : ((drawByte s).2).par = s.par := by unfold drawByte; split <;> rfl
@[simp] theorem drawByte_port (s : State) : ((drawByte s).2).port = s.port := by unfold drawByte; split <;> rfl
@[simp] theorem drawByte_starts (s : State) : ((drawByte s).2).starts = s.starts := by unfold drawByte; split <;> rfl
@[simp] theorem drawByte_stops (s : State) : ((drawByte s).2).stops = s.stops := by unfold drawByte; split <;> rfl
@[simp] theorem drawByte_pulls (s : State) : ((drawByte s).2).pulls = s.pulls := by unfold drawByte; split <;> rfl
@[simp] theorem drawByte_grain (s : State) : ((drawByte s).2).grain = s.grain := by unfold drawByte; split <;> rfl
@[simp] theorem drawByte_cycle (s : State) : ((drawByte s).2).cycle = s.cycle := by unfold drawByte; split <;> rfl
@[simp] theorem drawByte_ends (s : State) : ((drawByte s).2).ends = s.ends := by unfold drawByte; split <;> rfl

@[simp] theorem drawStop_cmd (s : State) : ((drawStop s).2).cmd = s.cmd := by unfold drawStop; split <;> rfl
@[simp] theorem drawStop_en (s : State) : ((drawStop s).2).en = s.en := by unfold drawStop; split <;> rfl
@[simp] theorem drawStop_opn (s : State) : ((drawStop s).2).opn = s.opn := by unfold drawStop; split <;> rfl
@[simp] theorem drawStop_ready (s : State) : ((drawStop s).2).ready = s.ready := by unfold drawStop; split <;> rfl
@[simp] theorem drawStop_busy (s : State) : ((drawStop s).2).busy = s.busy := by unfold drawStop; split <;> rfl
@[simp] theorem drawStop_last (s : State) : ((drawStop s).2).last = s.last := by unfold drawStop; split <;> rfl
@[simp] theorem drawStop_eTimeout (s : State) : ((drawStop s).2).eTimeout = s.eTimeout := by unfold drawStop; split <;> rfl
@[simp] theorem drawStop_eNack (s : State) : ((drawStop s).2).eNack = s.eNack := by unfold drawStop; split <;> rfl
@[simp] theorem drawStop_eInit (s : State) : ((drawStop s).2).eInit = s.eInit := by unfold drawStop; split <;> rfl
@[simp] theorem drawStop_eGlyph (s : State) : ((drawStop s).2).eGlyph = s.eGlyph := by unfold drawStop; split <;> rfl
@[simp] theorem drawStop_eCmd (s : State) : ((drawStop s).2).eCmd = s.eCmd := by unfold drawStop; split <;> rfl
@[simp] theorem drawStop_baud (s : State) : ((drawStop s).2).baud = s.baud := by unfold drawStop; split <;> rfl
@[simp] theorem drawStop_seq (s : State) : ((drawStop s).2).seq = s.seq := by unfold drawStop; split <;> rfl
@[simp] theorem drawStop_ipc (s : State) : ((drawStop s).2).ipc = s.ipc := by unfold drawStop; split <;> rfl
@[simp] theorem drawStop_cch (s : State) : ((drawStop s).2).cch = s.cch := by unfold drawStop; split <;> rfl
@[simp] theorem drawStop_dix (s : State) : ((drawStop s).2).dix = s.dix := by unfold drawStop; split <;> rfl
@[simp] theorem drawStop_pb (s : State) : ((drawStop s).2).pb = s.pb := by unfold drawStop; split <;> rfl
@[simp] theorem drawStop_gidx (s : State) : ((drawStop s).2).gidx = s.gidx := by unfold drawStop; split <;> rfl
@[simp] theorem drawStop_shr (s : State) : ((drawStop s).2).shr = s.shr := by unfold drawStop; split <;> rfl
@[simp] theorem drawStop_bitc (s : State) : ((drawStop s).2).bitc = s.bitc := by unfold drawStop; split <;> rfl
@[simp] theorem drawStop_ackl (s : State) : ((drawStop s).2).ackl = s.ackl := by unfold drawStop; split <;> rfl
@[simp] theorem drawStop_trace (s : State) : ((drawStop s).2).trace = s.trace := by unfold drawStop; split <;> rfl
@[simp] theorem drawStop_php (s : State) : ((drawStop s).2).php = s.php := by unfold drawStop; split <;> rfl
@[simp] theorem drawStop_qcnt (s : State) : ((drawStop s).2).qcnt = s.qcnt := by unfold drawStop; split <;> rfl
@[simp] theorem drawStop_tmo (s : State) : ((drawStop s).2).tmo = s.tmo := by unfold drawStop; split <;> rfl
@[simp] theorem drawStop_sclOe (s : State) : ((drawStop s).2).sclOe = s.sclOe := by unfold drawStop; split <;> rfl
@[simp] theorem drawStop_sdaOe (s : State) : ((drawStop s).2).sdaOe = s.sdaOe := by unfold drawStop; split <;> rfl
@[simp] theorem drawStop_par (s : State) : ((drawStop s).2).par = s.par := by unfold drawStop; split <;> rfl
@[simp] theorem drawStop_port (s : State) : ((drawStop s).2).port = s.port := by unfold drawStop; split <;> rfl
@[simp] theorem drawStop_starts (s : State) : ((drawStop s).2).starts = s.starts := by unfold drawStop; split <;> rfl
@[simp] theorem drawStop_bytes (s : State) : ((drawStop s).2).bytes = s.bytes := by unfold drawStop; split <;> rfl
@[simp] theorem drawStop_pulls (s : State) : ((drawStop s).2).pulls = s.pulls := by unfold drawStop; split <;> rfl
@[simp] theorem drawStop_grain (s : State) : ((drawStop s).2).grain = s.grain := by unfold drawStop; split <;> rfl
@[simp] theorem drawStop_cycle (s : State) : ((drawStop s).2).cycle = s.cycle := by unfold drawStop; split <;> rfl
@[simp] theorem drawStop_ends (s : State) : ((drawStop s).2).ends = s.ends := by unfold drawStop; split <;> rfl

@[simp] theorem restLines_cmd (s : State) : (restLines s).cmd = s.cmd := by unfold restLines; split <;> rfl
@[simp] theorem restLines_en (s : State) : (restLines s).en = s.en := by unfold restLines; split <;> rfl
@[simp] theorem restLines_opn (s : State) : (restLines s).opn = s.opn := by unfold restLines; split <;> rfl
@[simp] theorem restLines_ready (s : State) : (restLines s).ready = s.ready := by unfold restLines; split <;> rfl
@[simp] theorem restLines_busy (s : State) : (restLines s).busy = s.busy := by unfold restLines; split <;> rfl
@[simp] theorem restLines_last (s : State) : (restLines s).last = s.last := by unfold restLines; split <;> rfl
@[simp] theorem restLines_eTimeout (s : State) : (restLines s).eTimeout = s.eTimeout := by unfold restLines; split <;> rfl
@[simp] theorem restLines_eNack (s : State) : (restLines s).eNack = s.eNack := by unfold restLines; split <;> rfl
@[simp] theorem restLines_eInit (s : State) : (restLines s).eInit = s.eInit := by unfold restLines; split <;> rfl
@[simp] theorem restLines_eGlyph (s : State) : (restLines s).eGlyph = s.eGlyph := by unfold restLines; split <;> rfl
@[simp] theorem restLines_eCmd (s : State) : (restLines s).eCmd = s.eCmd := by unfold restLines; split <;> rfl
@[simp] theorem restLines_baud (s : State) : (restLines s).baud = s.baud := by unfold restLines; split <;> rfl
@[simp] theorem restLines_seq (s : State) : (restLines s).seq = s.seq := by unfold restLines; split <;> rfl
@[simp] theorem restLines_ipc (s : State) : (restLines s).ipc = s.ipc := by unfold restLines; split <;> rfl
@[simp] theorem restLines_cch (s : State) : (restLines s).cch = s.cch := by unfold restLines; split <;> rfl
@[simp] theorem restLines_dix (s : State) : (restLines s).dix = s.dix := by unfold restLines; split <;> rfl
@[simp] theorem restLines_pb (s : State) : (restLines s).pb = s.pb := by unfold restLines; split <;> rfl
@[simp] theorem restLines_gidx (s : State) : (restLines s).gidx = s.gidx := by unfold restLines; split <;> rfl
@[simp] theorem restLines_shr (s : State) : (restLines s).shr = s.shr := by unfold restLines; split <;> rfl
@[simp] theorem restLines_bitc (s : State) : (restLines s).bitc = s.bitc := by unfold restLines; split <;> rfl
@[simp] theorem restLines_ackl (s : State) : (restLines s).ackl = s.ackl := by unfold restLines; split <;> rfl
@[simp] theorem restLines_trace (s : State) : (restLines s).trace = s.trace := by unfold restLines; split <;> rfl
@[simp] theorem restLines_php (s : State) : (restLines s).php = s.php := by unfold restLines; split <;> rfl
@[simp] theorem restLines_qcnt (s : State) : (restLines s).qcnt = s.qcnt := by unfold restLines; split <;> rfl
@[simp] theorem restLines_tmo (s : State) : (restLines s).tmo = s.tmo := by unfold restLines; split <;> rfl
@[simp] theorem restLines_par (s : State) : (restLines s).par = s.par := by unfold restLines; split <;> rfl
@[simp] theorem restLines_port (s : State) : (restLines s).port = s.port := by unfold restLines; split <;> rfl
@[simp] theorem restLines_starts (s : State) : (restLines s).starts = s.starts := by unfold restLines; split <;> rfl
@[simp] theorem restLines_bytes (s : State) : (restLines s).bytes = s.bytes := by unfold restLines; split <;> rfl
@[simp] theorem restLines_stops (s : State) : (restLines s).stops = s.stops := by unfold restLines; split <;> rfl
@[simp] theorem restLines_pulls (s : State) : (restLines s).pulls = s.pulls := by unfold restLines; split <;> rfl
@[simp] theorem restLines_grain (s : State) : (restLines s).grain = s.grain := by unfold restLines; split <;> rfl
@[simp] theorem restLines_draws (s : State) : (restLines s).draws = s.draws := by unfold restLines; split <;> rfl
@[simp] theorem restLines_cycle (s : State) : (restLines s).cycle = s.cycle := by unfold restLines; split <;> rfl
@[simp] theorem restLines_ends (s : State) : (restLines s).ends = s.ends := by unfold restLines; split <;> rfl

@[simp] theorem forget_cmd (s : State) : (forget s).cmd = s.cmd := rfl
@[simp] theorem forget_en (s : State) : (forget s).en = s.en := rfl
@[simp] theorem forget_opn (s : State) : (forget s).opn = s.opn := rfl
@[simp] theorem forget_ready (s : State) : (forget s).ready = s.ready := rfl
@[simp] theorem forget_busy (s : State) : (forget s).busy = s.busy := rfl
@[simp] theorem forget_last (s : State) : (forget s).last = s.last := rfl
@[simp] theorem forget_eTimeout (s : State) : (forget s).eTimeout = s.eTimeout := rfl
@[simp] theorem forget_eNack (s : State) : (forget s).eNack = s.eNack := rfl
@[simp] theorem forget_eInit (s : State) : (forget s).eInit = s.eInit := rfl
@[simp] theorem forget_eGlyph (s : State) : (forget s).eGlyph = s.eGlyph := rfl
@[simp] theorem forget_eCmd (s : State) : (forget s).eCmd = s.eCmd := rfl
@[simp] theorem forget_baud (s : State) : (forget s).baud = s.baud := rfl
@[simp] theorem forget_seq (s : State) : (forget s).seq = s.seq := rfl
@[simp] theorem forget_ackl (s : State) : (forget s).ackl = s.ackl := rfl
@[simp] theorem forget_trace (s : State) : (forget s).trace = s.trace := rfl
@[simp] theorem forget_sclOe (s : State) : (forget s).sclOe = s.sclOe := rfl
@[simp] theorem forget_sdaOe (s : State) : (forget s).sdaOe = s.sdaOe := rfl
@[simp] theorem forget_par (s : State) : (forget s).par = s.par := rfl
@[simp] theorem forget_port (s : State) : (forget s).port = s.port := rfl
@[simp] theorem forget_starts (s : State) : (forget s).starts = s.starts := rfl
@[simp] theorem forget_bytes (s : State) : (forget s).bytes = s.bytes := rfl
@[simp] theorem forget_stops (s : State) : (forget s).stops = s.stops := rfl
@[simp] theorem forget_pulls (s : State) : (forget s).pulls = s.pulls := rfl
@[simp] theorem forget_grain (s : State) : (forget s).grain = s.grain := rfl
@[simp] theorem forget_draws (s : State) : (forget s).draws = s.draws := rfl
@[simp] theorem forget_cycle (s : State) : (forget s).cycle = s.cycle := rfl
@[simp] theorem forget_ends (s : State) : (forget s).ends = s.ends + 1 := rfl

@[simp] theorem nextCommand_cmd (b : Byte) (s : State) : (nextCommand b s).cmd = s.cmd := rfl
@[simp] theorem nextCommand_en (b : Byte) (s : State) : (nextCommand b s).en = s.en := rfl
@[simp] theorem nextCommand_opn (b : Byte) (s : State) : (nextCommand b s).opn = s.opn := rfl
@[simp] theorem nextCommand_ready (b : Byte) (s : State) : (nextCommand b s).ready = s.ready := rfl
@[simp] theorem nextCommand_busy (b : Byte) (s : State) : (nextCommand b s).busy = s.busy := rfl
@[simp] theorem nextCommand_last (b : Byte) (s : State) : (nextCommand b s).last = s.last := rfl
@[simp] theorem nextCommand_eTimeout (b : Byte) (s : State) : (nextCommand b s).eTimeout = s.eTimeout := rfl
@[simp] theorem nextCommand_eNack (b : Byte) (s : State) : (nextCommand b s).eNack = s.eNack := rfl
@[simp] theorem nextCommand_eInit (b : Byte) (s : State) : (nextCommand b s).eInit = s.eInit := rfl
@[simp] theorem nextCommand_eGlyph (b : Byte) (s : State) : (nextCommand b s).eGlyph = s.eGlyph := rfl
@[simp] theorem nextCommand_eCmd (b : Byte) (s : State) : (nextCommand b s).eCmd = s.eCmd := rfl
@[simp] theorem nextCommand_baud (b : Byte) (s : State) : (nextCommand b s).baud = s.baud := rfl
@[simp] theorem nextCommand_seq (b : Byte) (s : State) : (nextCommand b s).seq = s.seq := rfl
@[simp] theorem nextCommand_ipc (b : Byte) (s : State) : (nextCommand b s).ipc = s.ipc + 1 := rfl
@[simp] theorem nextCommand_cch (b : Byte) (s : State) : (nextCommand b s).cch = .start := rfl
@[simp] theorem nextCommand_dix (b : Byte) (s : State) : (nextCommand b s).dix = s.dix := rfl
@[simp] theorem nextCommand_pb (b : Byte) (s : State) : (nextCommand b s).pb = b := rfl
@[simp] theorem nextCommand_gidx (b : Byte) (s : State) : (nextCommand b s).gidx = s.gidx := rfl
@[simp] theorem nextCommand_shr (b : Byte) (s : State) : (nextCommand b s).shr = s.shr := rfl
@[simp] theorem nextCommand_bitc (b : Byte) (s : State) : (nextCommand b s).bitc = s.bitc := rfl
@[simp] theorem nextCommand_ackl (b : Byte) (s : State) : (nextCommand b s).ackl = s.ackl := rfl
@[simp] theorem nextCommand_trace (b : Byte) (s : State) : (nextCommand b s).trace = s.trace := rfl
@[simp] theorem nextCommand_php (b : Byte) (s : State) : (nextCommand b s).php = s.php := rfl
@[simp] theorem nextCommand_qcnt (b : Byte) (s : State) : (nextCommand b s).qcnt = s.qcnt := rfl
@[simp] theorem nextCommand_tmo (b : Byte) (s : State) : (nextCommand b s).tmo = s.tmo := rfl
@[simp] theorem nextCommand_sclOe (b : Byte) (s : State) : (nextCommand b s).sclOe = s.sclOe := rfl
@[simp] theorem nextCommand_sdaOe (b : Byte) (s : State) : (nextCommand b s).sdaOe = s.sdaOe := rfl
@[simp] theorem nextCommand_par (b : Byte) (s : State) : (nextCommand b s).par = s.par := rfl
@[simp] theorem nextCommand_port (b : Byte) (s : State) : (nextCommand b s).port = s.port := rfl
@[simp] theorem nextCommand_starts (b : Byte) (s : State) : (nextCommand b s).starts = s.starts := rfl
@[simp] theorem nextCommand_bytes (b : Byte) (s : State) : (nextCommand b s).bytes = s.bytes := rfl
@[simp] theorem nextCommand_stops (b : Byte) (s : State) : (nextCommand b s).stops = s.stops := rfl
@[simp] theorem nextCommand_pulls (b : Byte) (s : State) : (nextCommand b s).pulls = s.pulls := rfl
@[simp] theorem nextCommand_grain (b : Byte) (s : State) : (nextCommand b s).grain = s.grain := rfl
@[simp] theorem nextCommand_draws (b : Byte) (s : State) : (nextCommand b s).draws = s.draws := rfl
@[simp] theorem nextCommand_cycle (b : Byte) (s : State) : (nextCommand b s).cycle = s.cycle := rfl
@[simp] theorem nextCommand_ends (b : Byte) (s : State) : (nextCommand b s).ends = s.ends := rfl

@[simp] theorem dropWord_cmd (s : State) : (dropWord s).cmd = s.cmd := rfl
@[simp] theorem dropWord_en (s : State) : (dropWord s).en = s.en := rfl
@[simp] theorem dropWord_opn (s : State) : (dropWord s).opn = s.opn := rfl
@[simp] theorem dropWord_ready (s : State) : (dropWord s).ready = s.ready := rfl
@[simp] theorem dropWord_busy (s : State) : (dropWord s).busy = s.busy := rfl
@[simp] theorem dropWord_last (s : State) : (dropWord s).last = s.last := rfl
@[simp] theorem dropWord_eTimeout (s : State) : (dropWord s).eTimeout = s.eTimeout := rfl
@[simp] theorem dropWord_eNack (s : State) : (dropWord s).eNack = s.eNack := rfl
@[simp] theorem dropWord_eInit (s : State) : (dropWord s).eInit = s.eInit := rfl
@[simp] theorem dropWord_eGlyph (s : State) : (dropWord s).eGlyph = s.eGlyph := rfl
@[simp] theorem dropWord_eCmd (s : State) : (dropWord s).eCmd = true := rfl
@[simp] theorem dropWord_baud (s : State) : (dropWord s).baud = s.baud := rfl
@[simp] theorem dropWord_seq (s : State) : (dropWord s).seq = s.seq := rfl
@[simp] theorem dropWord_ipc (s : State) : (dropWord s).ipc = s.ipc := rfl
@[simp] theorem dropWord_cch (s : State) : (dropWord s).cch = s.cch := rfl
@[simp] theorem dropWord_dix (s : State) : (dropWord s).dix = s.dix := rfl
@[simp] theorem dropWord_pb (s : State) : (dropWord s).pb = s.pb := rfl
@[simp] theorem dropWord_gidx (s : State) : (dropWord s).gidx = s.gidx := rfl
@[simp] theorem dropWord_shr (s : State) : (dropWord s).shr = s.shr := rfl
@[simp] theorem dropWord_bitc (s : State) : (dropWord s).bitc = s.bitc := rfl
@[simp] theorem dropWord_ackl (s : State) : (dropWord s).ackl = s.ackl := rfl
@[simp] theorem dropWord_trace (s : State) : (dropWord s).trace = s.trace := rfl
@[simp] theorem dropWord_php (s : State) : (dropWord s).php = s.php := rfl
@[simp] theorem dropWord_qcnt (s : State) : (dropWord s).qcnt = s.qcnt := rfl
@[simp] theorem dropWord_tmo (s : State) : (dropWord s).tmo = s.tmo := rfl
@[simp] theorem dropWord_sclOe (s : State) : (dropWord s).sclOe = s.sclOe := rfl
@[simp] theorem dropWord_sdaOe (s : State) : (dropWord s).sdaOe = s.sdaOe := rfl
@[simp] theorem dropWord_par (s : State) : (dropWord s).par = s.par := rfl
@[simp] theorem dropWord_port (s : State) : (dropWord s).port = s.port := rfl
@[simp] theorem dropWord_starts (s : State) : (dropWord s).starts = s.starts := rfl
@[simp] theorem dropWord_bytes (s : State) : (dropWord s).bytes = s.bytes := rfl
@[simp] theorem dropWord_stops (s : State) : (dropWord s).stops = s.stops := rfl
@[simp] theorem dropWord_pulls (s : State) : (dropWord s).pulls = s.pulls := rfl
@[simp] theorem dropWord_grain (s : State) : (dropWord s).grain = s.grain := rfl
@[simp] theorem dropWord_draws (s : State) : (dropWord s).draws = s.draws := rfl
@[simp] theorem dropWord_cycle (s : State) : (dropWord s).cycle = s.cycle := rfl
@[simp] theorem dropWord_ends (s : State) : (dropWord s).ends = s.ends := rfl

@[simp] theorem setSticky_busTimeout_eTimeout (s : State) : (setSticky .busTimeout s).eTimeout = true := rfl
@[simp] theorem setSticky_busTimeout_eNack (s : State) : (setSticky .busTimeout s).eNack = s.eNack := rfl
@[simp] theorem setSticky_busTimeout_eInit (s : State) : (setSticky .busTimeout s).eInit = s.eInit := rfl
@[simp] theorem setSticky_busTimeout_eGlyph (s : State) : (setSticky .busTimeout s).eGlyph = s.eGlyph := rfl
@[simp] theorem setSticky_busTimeout_eCmd (s : State) : (setSticky .busTimeout s).eCmd = s.eCmd := rfl

@[simp] theorem setSticky_busNack_eTimeout (s : State) : (setSticky .busNack s).eTimeout = s.eTimeout := rfl
@[simp] theorem setSticky_busNack_eNack (s : State) : (setSticky .busNack s).eNack = true := rfl
@[simp] theorem setSticky_busNack_eInit (s : State) : (setSticky .busNack s).eInit = s.eInit := rfl
@[simp] theorem setSticky_busNack_eGlyph (s : State) : (setSticky .busNack s).eGlyph = s.eGlyph := rfl
@[simp] theorem setSticky_busNack_eCmd (s : State) : (setSticky .busNack s).eCmd = s.eCmd := rfl

@[simp] theorem setSticky_initFailure_eTimeout (s : State) : (setSticky .initFailure s).eTimeout = s.eTimeout := rfl
@[simp] theorem setSticky_initFailure_eNack (s : State) : (setSticky .initFailure s).eNack = s.eNack := rfl
@[simp] theorem setSticky_initFailure_eInit (s : State) : (setSticky .initFailure s).eInit = true := rfl
@[simp] theorem setSticky_initFailure_eGlyph (s : State) : (setSticky .initFailure s).eGlyph = s.eGlyph := rfl
@[simp] theorem setSticky_initFailure_eCmd (s : State) : (setSticky .initFailure s).eCmd = s.eCmd := rfl

@[simp] theorem setSticky_unsupportedGlyph_eTimeout (s : State) : (setSticky .unsupportedGlyph s).eTimeout = s.eTimeout := rfl
@[simp] theorem setSticky_unsupportedGlyph_eNack (s : State) : (setSticky .unsupportedGlyph s).eNack = s.eNack := rfl
@[simp] theorem setSticky_unsupportedGlyph_eInit (s : State) : (setSticky .unsupportedGlyph s).eInit = s.eInit := rfl
@[simp] theorem setSticky_unsupportedGlyph_eGlyph (s : State) : (setSticky .unsupportedGlyph s).eGlyph = true := rfl
@[simp] theorem setSticky_unsupportedGlyph_eCmd (s : State) : (setSticky .unsupportedGlyph s).eCmd = s.eCmd := rfl

@[simp] theorem setSticky_cmdRefused_eTimeout (s : State) : (setSticky .cmdRefused s).eTimeout = s.eTimeout := rfl
@[simp] theorem setSticky_cmdRefused_eNack (s : State) : (setSticky .cmdRefused s).eNack = s.eNack := rfl
@[simp] theorem setSticky_cmdRefused_eInit (s : State) : (setSticky .cmdRefused s).eInit = s.eInit := rfl
@[simp] theorem setSticky_cmdRefused_eGlyph (s : State) : (setSticky .cmdRefused s).eGlyph = s.eGlyph := rfl
@[simp] theorem setSticky_cmdRefused_eCmd (s : State) : (setSticky .cmdRefused s).eCmd = true := rfl

end Sys2Proof.Machine
end

