-- ==== Sys2Proof/Laws/Ops.lean ====
section
/-! SUPPORT. What each shared operation can do, said once: the draws, the three primitives by the environment's answer, the
procedures' frame, their success with a well-behaved display, and that every procedure leaves the bus closed. -/

namespace Sys2Proof.Machine

/-! ### The parameter set (R14) -/

/-- What a well-formed parameter set says, condition by condition (R14). -/
theorem ValidParams.conditions (p : ValidParams) :
    0 < p.fSclHz ∧ 4 * p.fSclHz ≤ p.fClkHz ∧ 1 ≤ qdiv p.toParams ∧ qdiv p.toParams ≤ 65535 ∧ 1 ≤ p.timeoutLimit ∧
      p.glyphRom.length = 130 := by
  have h := p.valid
  simp only [paramsValid, Bool.and_eq_true, decide_eq_true_eq, and_assoc] at h
  exact h

/-- QDIV fits BAUD: no bit of it is lost (R14, R30). -/
theorem qdivWord_toNat (p : ValidParams) : (qdivWord p.toParams).toNat = qdiv p.toParams := by
  obtain ⟨_, _, _, h, _⟩ := p.conditions
  simp [qdivWord]; omega

/-- A divisor programmed by BINIT is positive, so every quarter has a cycle (R14, R112). -/
theorem qdivWord_pos (p : ValidParams) : 0 < (qdivWord p.toParams).toNat := by
  rw [qdivWord_toNat]; exact p.conditions.2.2.1

/-! ### Draws -/

/-- A draw of a start uses up draws and changes nothing else. -/
theorem drawStart_keeps (s : State) : ∃ rs n, (drawStart s).2 = { s with starts := rs, draws := n } := by
  unfold drawStart; split
  · exact ⟨_, s.draws, rfl⟩
  · exact ⟨s.starts, _, rfl⟩

/-- A draw of a byte uses up draws and changes nothing else. -/
theorem drawByte_keeps (s : State) : ∃ rs n, (drawByte s).2 = { s with bytes := rs, draws := n } := by
  unfold drawByte; split
  · exact ⟨_, s.draws, rfl⟩
  · exact ⟨s.bytes, _, rfl⟩

/-- A draw of a stop uses up draws and changes nothing else. -/
theorem drawStop_keeps (s : State) : ∃ rs n, (drawStop s).2 = { s with stops := rs, draws := n } := by
  unfold drawStop; split
  · exact ⟨_, s.draws, rfl⟩
  · exact ⟨s.stops, _, rfl⟩

/-- The answer of a draw depends on the listed draws and the number of free draws taken, and on nothing else. -/
theorem drawByte_congr (s t : State) (hb : t.bytes = s.bytes) (hd : t.draws = s.draws) :
    (drawByte t).1 = (drawByte s).1 := by
  unfold drawByte; rw [hb, hd]; split <;> rfl

theorem drawStart_congr (s t : State) (hb : t.starts = s.starts) (hd : t.draws = s.draws) :
    (drawStart t).1 = (drawStart s).1 := by
  unfold drawStart; rw [hb, hd]; split <;> rfl

theorem drawStop_congr (s t : State) (hb : t.stops = s.stops) (hd : t.draws = s.draws) :
    (drawStop t).1 = (drawStop s).1 := by
  unfold drawStop; rw [hb, hd]; split <;> rfl

theorem drawStart_of_take (s : State) (o : StartOutcome) (h : s.starts.take 1 = [o]) :
    drawStart s = (o, { s with starts := s.starts.drop 1 }) := by
  unfold drawStart; split
  · next x rest e => rw [e] at h ⊢; simp at h; simp [h]
  · next e => rw [e] at h; simp at h

theorem drawByte_of_take (s : State) (o : ByteOutcome) (h : s.bytes.take 1 = [o]) :
    drawByte s = (o, { s with bytes := s.bytes.drop 1 }) := by
  unfold drawByte; split
  · next x rest e => rw [e] at h ⊢; simp at h; simp [h]
  · next e => rw [e] at h; simp at h

theorem drawStop_of_take (s : State) (o : StopOutcome) (h : s.stops.take 1 = [o]) :
    drawStop s = (o, { s with stops := s.stops.drop 1 }) := by
  unfold drawStop; split
  · next x rest e => rw [e] at h ⊢; simp at h; simp [h]
  · next e => rw [e] at h; simp at h

/-! ### The primitives, by the environment's answer -/

/-- What a byte that was acknowledged leaves (R97). -/
theorem xmit_acked (v : Byte) (s : State) (h : (drawByte s).1 = .acked) :
    xmit v s = (.ok, logEvent (.byte v true) (toHold (setAckl false (drawByte (loadShr v s)).2))) := by
  have h' : (drawByte (loadShr v s)).1 = .acked := by rw [← h]; exact drawByte_congr _ _ rfl rfl
  unfold xmit
  rw [show drawByte (loadShr v s) = (.acked, (drawByte (loadShr v s)).2) from Prod.ext h' rfl]
  rfl

/-- What a byte that was not acknowledged leaves: the policy decides the flag and the result (R97, R99). -/
theorem xmit_nacked (v : Byte) (s : State) (h : (drawByte s).1 = .nacked) :
    xmit v s = byteDone v false (drawByte (loadShr v s)).2 := by
  have h' : (drawByte (loadShr v s)).1 = .nacked := by rw [← h]; exact drawByte_congr _ _ rfl rfl
  unfold xmit
  rw [show drawByte (loadShr v s) = (.nacked, (drawByte (loadShr v s)).2) from Prod.ext h' rfl]

/-- A byte that was not acknowledged, under Report (R99). -/
theorem byteDone_report (v : Byte) (s : State) (h : s.par.nackPolicy = .report) :
    byteDone v false s = (.nack, setSticky .busNack (logEvent (.byte v false) (toHold (setAckl true s)))) := by
  simp [byteDone, byteResult, h]

/-- A byte that was not acknowledged, under Ignore (R99). -/
theorem byteDone_ignore (v : Byte) (s : State) (h : s.par.nackPolicy = .ignore) :
    byteDone v false s = (.ok, logEvent (.byte v false) (toHold (setAckl true s))) := by
  simp [byteDone, byteResult, h]

/-- What a byte whose draw is Expired leaves (R97, R98). -/
theorem xmit_expired (v : Byte) (s : State) (h : (drawByte s).1 = .expired) :
    xmit v s = (.timeout, timeoutAbort (drawByte (loadShr v s)).2) := by
  have h' : (drawByte (loadShr v s)).1 = .expired := by rw [← h]; exact drawByte_congr _ _ rfl rfl
  unfold xmit
  rw [show drawByte (loadShr v s) = (.expired, (drawByte (loadShr v s)).2) from Prod.ext h' rfl]

/-- A start whose draw is Free: the start condition, then the address byte (R93). -/
theorem primStart_free (ab : Byte) (s : State) (h : (drawStart s).1 = .free) :
    primStart ab s = xmit ab (startDone (drawStart s).2) := by
  unfold primStart; split <;> simp_all

/-- A start whose draw is Expired (R93, R98). -/
theorem primStart_expired (ab : Byte) (s : State) (h : (drawStart s).1 = .expired) :
    primStart ab s = (.timeout, timeoutAbort (drawStart s).2) := by
  unfold primStart; split <;> simp_all

/-- A stop whose draw is Done (R96). -/
theorem primStop_done (s : State) (h : (drawStop s).1 = .done) : primStop s = (.ok, stopDone (drawStop s).2) := by
  unfold primStop; split <;> simp_all

/-- A stop whose draw is Expired (R96, R98). -/
theorem primStop_expired (s : State) (h : (drawStop s).1 = .expired) :
    primStop s = (.timeout, timeoutAbort (drawStop s).2) := by
  unfold primStop; split <;> simp_all

/-! ### What primitives and procedures leave unchanged -/

/-- What no primitive and no channel procedure changes. -/
structure ChannelFrame (s t : State) : Prop where
  bus : BusFrame s t
  ready : t.ready = s.ready
  busy : t.busy = s.busy
  last : t.last = s.last
  eInit : t.eInit = s.eInit
  seq : t.seq = s.seq
  ipc : t.ipc = s.ipc
  gidx : t.gidx = s.gidx
  ends : t.ends = s.ends
  grows : ∃ evs, t.trace = s.trace ++ evs
  eTimeout : s.eTimeout = true → t.eTimeout = true
  eNack : s.eNack = true → t.eNack = true

theorem ChannelFrame.refl (s : State) : ChannelFrame s s :=
  ⟨⟨rfl, rfl, rfl, rfl, rfl, rfl, rfl, rfl, rfl, rfl⟩, rfl, rfl, rfl, rfl, rfl, rfl, rfl, rfl, ⟨[], by simp⟩, id, id⟩

theorem BusFrame.trans {s t u : State} (h : BusFrame s t) (k : BusFrame t u) : BusFrame s u :=
  ⟨k.1.trans h.1, k.2.trans h.2, k.3.trans h.3, k.4.trans h.4, k.5.trans h.5, k.6.trans h.6, k.7.trans h.7, k.8.trans h.8,
    k.9.trans h.9, k.10.trans h.10⟩

theorem ChannelFrame.trans {s t u : State} (h : ChannelFrame s t) (k : ChannelFrame t u) : ChannelFrame s u := by
  obtain ⟨a, ha⟩ := h.grows
  obtain ⟨b, hb⟩ := k.grows
  exact ⟨h.bus.trans k.bus, k.2.trans h.2, k.3.trans h.3, k.4.trans h.4, k.5.trans h.5, k.6.trans h.6, k.7.trans h.7,
    k.8.trans h.8, k.9.trans h.9, ⟨a ++ b, by rw [hb, ha, List.append_assoc]⟩, fun x => k.11 (h.11 x), fun x => k.12 (h.12 x)⟩

theorem drawByte_frame (s : State) : ChannelFrame s (drawByte s).2 := by
  obtain ⟨rs, n, e⟩ := drawByte_keeps s; rw [e]; exact
    ⟨⟨rfl, rfl, rfl, rfl, rfl, rfl, rfl, rfl, rfl, rfl⟩, rfl, rfl, rfl, rfl, rfl, rfl, rfl, rfl, ⟨[], by simp⟩, id, id⟩

theorem logEvent_frame (e : Event) (s : State) : ChannelFrame s (logEvent e s) :=
  ⟨⟨rfl, rfl, rfl, rfl, rfl, rfl, rfl, rfl, rfl, rfl⟩, rfl, rfl, rfl, rfl, rfl, rfl, rfl, rfl, ⟨_, rfl⟩, id, id⟩

theorem toHold_frame (s : State) : ChannelFrame s (toHold s) :=
  ⟨⟨rfl, rfl, rfl, rfl, rfl, rfl, rfl, rfl, rfl, rfl⟩, rfl, rfl, rfl, rfl, rfl, rfl, rfl, rfl, ⟨[], by simp⟩, id, id⟩
theorem setAckl_frame (a : Bool) (s : State) : ChannelFrame s (setAckl a s) :=
  ⟨⟨rfl, rfl, rfl, rfl, rfl, rfl, rfl, rfl, rfl, rfl⟩, rfl, rfl, rfl, rfl, rfl, rfl, rfl, rfl, ⟨[], by simp⟩, id, id⟩
theorem loadShr_frame (v : Byte) (s : State) : ChannelFrame s (loadShr v s) :=
  ⟨⟨rfl, rfl, rfl, rfl, rfl, rfl, rfl, rfl, rfl, rfl⟩, rfl, rfl, rfl, rfl, rfl, rfl, rfl, rfl, ⟨[], by simp⟩, id, id⟩
theorem loadDix_frame (j : Nat) (s : State) : ChannelFrame s (loadDix j s) :=
  ⟨⟨rfl, rfl, rfl, rfl, rfl, rfl, rfl, rfl, rfl, rfl⟩, rfl, rfl, rfl, rfl, rfl, rfl, rfl, rfl, ⟨[], by simp⟩, id, id⟩
theorem loadPb_frame (v : Byte) (s : State) : ChannelFrame s (loadPb v s) :=
  ⟨⟨rfl, rfl, rfl, rfl, rfl, rfl, rfl, rfl, rfl, rfl⟩, rfl, rfl, rfl, rfl, rfl, rfl, rfl, rfl, ⟨[], by simp⟩, id, id⟩
theorem atChan_frame (c : Chan) (s : State) : ChannelFrame s (atChan c s) :=
  ⟨⟨rfl, rfl, rfl, rfl, rfl, rfl, rfl, rfl, rfl, rfl⟩, rfl, rfl, rfl, rfl, rfl, rfl, rfl, rfl, ⟨[], by simp⟩, id, id⟩

theorem setSticky_busNack_frame (s : State) : ChannelFrame s (setSticky .busNack s) :=
  ⟨⟨rfl, rfl, rfl, rfl, rfl, rfl, rfl, rfl, rfl, rfl⟩, rfl, rfl, rfl, rfl, rfl, rfl, rfl, rfl, ⟨[], by simp⟩, id, fun _ => rfl⟩

theorem byteResult_frame (s : State) : ChannelFrame s (byteResult s).2 := by
  unfold byteResult; split
  · exact setSticky_busNack_frame s
  · exact ChannelFrame.refl s

theorem byteDone_frame (v : Byte) (a : Bool) (s : State) : ChannelFrame s (byteDone v a s).2 :=
  (((setAckl_frame _ s).trans (toHold_frame _)).trans (logEvent_frame _ _)).trans (byteResult_frame _)

theorem timeoutAbort_frame (s : State) : ChannelFrame s (timeoutAbort s) :=
  ⟨⟨rfl, rfl, rfl, rfl, rfl, rfl, rfl, rfl, rfl, rfl⟩, rfl, rfl, rfl, rfl, rfl, rfl, rfl, rfl, ⟨_, rfl⟩, fun _ => rfl, id⟩

theorem xmit_frame (v : Byte) (s : State) : ChannelFrame s (xmit v s).2 := by
  have f := (loadShr_frame v s).trans (drawByte_frame _)
  cases h : (drawByte s).1
  · rw [xmit_acked v s h]
    exact ((f.trans (setAckl_frame _ _)).trans (toHold_frame _)).trans (logEvent_frame _ _)
  · rw [xmit_nacked v s h]; exact f.trans (byteDone_frame _ _ _)
  · rw [xmit_expired v s h]; exact f.trans (timeoutAbort_frame _)

theorem startDone_frame (s : State) : ChannelFrame s (startDone s) := by
  constructor <;> try (first | rfl | exact id)
  · constructor <;> rfl
  · exact ⟨_, rfl⟩

theorem stopDone_frame (s : State) : ChannelFrame s (stopDone s) := by
  constructor <;> try (first | rfl | exact id)
  · constructor <;> rfl
  · exact ⟨_, rfl⟩

theorem drawStart_frame (s : State) : ChannelFrame s (drawStart s).2 := by
  obtain ⟨rs, n, e⟩ := drawStart_keeps s; rw [e]; exact
    ⟨⟨rfl, rfl, rfl, rfl, rfl, rfl, rfl, rfl, rfl, rfl⟩, rfl, rfl, rfl, rfl, rfl, rfl, rfl, rfl, ⟨[], by simp⟩, id, id⟩

theorem drawStop_frame (s : State) : ChannelFrame s (drawStop s).2 := by
  obtain ⟨rs, n, e⟩ := drawStop_keeps s; rw [e]; exact
    ⟨⟨rfl, rfl, rfl, rfl, rfl, rfl, rfl, rfl, rfl, rfl⟩, rfl, rfl, rfl, rfl, rfl, rfl, rfl, rfl, ⟨[], by simp⟩, id, id⟩

theorem primStart_frame (ab : Byte) (s : State) : ChannelFrame s (primStart ab s).2 := by
  cases h : (drawStart s).1
  · rw [primStart_free ab s h]
    exact ((drawStart_frame s).trans (startDone_frame _)).trans (xmit_frame _ _)
  · rw [primStart_expired ab s h]
    exact (drawStart_frame s).trans (timeoutAbort_frame _)

theorem primStop_frame (s : State) : ChannelFrame s (primStop s).2 := by
  cases h : (drawStop s).1
  · rw [primStop_done s h]; exact (drawStop_frame s).trans (stopDone_frame _)
  · rw [primStop_expired s h]; exact (drawStop_frame s).trans (timeoutAbort_frame _)

@[simp] theorem byteDone_pb (v : Byte) (a : Bool) (s : State) : (byteDone v a s).2.pb = s.pb := by
  unfold byteDone byteResult; split <;> rfl

@[simp] theorem xmit_pb (v : Byte) (s : State) : (xmit v s).2.pb = s.pb := by
  cases h : (drawByte s).1
  · rw [xmit_acked v s h]; simp
  · rw [xmit_nacked v s h]; simp
  · rw [xmit_expired v s h]; simp

@[simp] theorem primStart_pb (ab : Byte) (s : State) : (primStart ab s).2.pb = s.pb := by
  cases h : (drawStart s).1
  · rw [primStart_free ab s h]; simp
  · rw [primStart_expired ab s h]; simp

theorem abandon_frame (r : Result) (s : State) : ChannelFrame s (abandon r s).2 := by
  cases r
  · exact ChannelFrame.refl s
  · exact ChannelFrame.refl s
  · exact (atChan_frame _ s).trans (primStop_frame _)

theorem andThen_frame (s : State) (x : Result × State) (k : State → Result × State) (hx : ChannelFrame s x.2)
    (hk : ∀ t, ChannelFrame t (k t).2) : ChannelFrame s (andThen x k).2 := by
  unfold andThen; split
  · exact hx.trans (hk _)
  · exact hx.trans (abandon_frame _ _)
  · exact hx.trans (abandon_frame _ _)

theorem sendCommand_frame (op : Byte) (s : State) : ChannelFrame s (sendCommand op s).2 :=
  andThen_frame s _ _ (((loadPb_frame op s).trans (atChan_frame _ _)).trans (primStart_frame _ _))
    fun t => andThen_frame t _ _ ((atChan_frame _ t).trans (xmit_frame _ _))
    fun u => andThen_frame u _ _ ((atChan_frame _ u).trans (xmit_frame _ _))
    fun w => (atChan_frame _ w).trans (primStop_frame _)

theorem sendPayload_frame (j : Nat) (bs : List Byte) (s : State) : ChannelFrame s (sendPayload j bs s).2 := by
  induction bs generalizing j s with
  | nil => exact (atChan_frame _ s).trans (primStop_frame _)
  | cons b rest ih =>
    exact andThen_frame s _ _
      ((loadDix_frame j s).trans (xmit_frame _ _)) (ih (j + 1))

theorem sendDataBytes_frame (bs : List Byte) (s : State) : ChannelFrame s (sendDataBytes bs s).2 :=
  andThen_frame s _ _ ((atChan_frame _ s).trans (primStart_frame _ _))
    fun t => andThen_frame t _ _ ((atChan_frame _ t).trans (xmit_frame _ _))
    fun u => (atChan_frame _ u).trans (sendPayload_frame _ _ _)

/-! ### Every procedure leaves the bus closed and the lines released (R133) -/

/-- The bus is closed from the block's side and both lines are released. -/
def Closed (s : State) : Prop := s.opn = false ∧ s.sclOe = false ∧ s.sdaOe = false

theorem primStop_closed (s : State) : Closed (primStop s).2 := by
  cases h : (drawStop s).1
  · rw [primStop_done s h]; exact ⟨rfl, rfl, rfl⟩
  · rw [primStop_expired s h]; exact ⟨rfl, rfl, rfl⟩

theorem xmit_timeout_closed (v : Byte) (s : State) (h : (xmit v s).1 = .timeout) : Closed (xmit v s).2 := by
  cases hd : (drawByte s).1
  · rw [xmit_acked v s hd] at h; simp at h
  · rw [xmit_nacked v s hd] at h
    simp only [byteDone, byteResult] at h
    split at h <;> simp at h
  · rw [xmit_expired v s hd]; exact ⟨rfl, rfl, rfl⟩

theorem primStart_timeout_closed (ab : Byte) (s : State) (h : (primStart ab s).1 = .timeout) :
    Closed (primStart ab s).2 := by
  cases hd : (drawStart s).1
  · rw [primStart_free ab s hd] at h ⊢; exact xmit_timeout_closed _ _ h
  · rw [primStart_expired ab s hd]; exact ⟨rfl, rfl, rfl⟩

theorem andThen_closed (x : Result × State) (k : State → Result × State) (hx : x.1 = .timeout → Closed x.2)
    (hk : ∀ t, Closed (k t).2) : Closed (andThen x k).2 := by
  obtain ⟨r, s⟩ := x
  cases r
  · exact hk s
  · exact hx rfl
  · exact primStop_closed _

theorem sendCommand_closed (op : Byte) (s : State) : Closed (sendCommand op s).2 :=
  andThen_closed _ _ (primStart_timeout_closed _ _) fun _ =>
  andThen_closed _ _ (xmit_timeout_closed _ _) fun _ =>
  andThen_closed _ _ (xmit_timeout_closed _ _) fun _ => primStop_closed _

theorem sendPayload_closed (j : Nat) (bs : List Byte) (s : State) : Closed (sendPayload j bs s).2 := by
  induction bs generalizing j s with
  | nil => exact primStop_closed _
  | cons b rest ih => exact andThen_closed _ _ (xmit_timeout_closed _ _) (ih (j + 1))

theorem sendDataBytes_closed (bs : List Byte) (s : State) : Closed (sendDataBytes bs s).2 :=
  andThen_closed _ _ (primStart_timeout_closed _ _) fun _ =>
  andThen_closed _ _ (xmit_timeout_closed _ _) fun _ => sendPayload_closed _ _ _

/-! ### Success with a well-behaved display -/

/-- What a part of a command that sent everything leaves: the events in the trace, the draws used up, and the rest as the
frame says, with the two flags as before. -/
structure Sent (s t : State) (evs : List Event) (a b c : Nat) : Prop where
  frame : ChannelFrame s t
  trace : t.trace = s.trace ++ evs
  starts : t.starts = s.starts.drop a
  bytes : t.bytes = s.bytes.drop b
  stops : t.stops = s.stops.drop c
  eTimeout : t.eTimeout = s.eTimeout
  eNack : t.eNack = s.eNack

theorem take_one_of_take {α : Type} {l : List α} {n : Nat} {x : α} (h : l.take (n + 1) = List.replicate (n + 1) x) :
    l.take 1 = [x] ∧ (l.drop 1).take n = List.replicate n x := by
  cases l with
  | nil => simp [List.replicate_succ] at h
  | cons y rest => simp [List.replicate_succ] at h; simp [h]

/-- Parts that sent everything compose. -/
theorem Sent.trans {s t u : State} {evs evs' : List Event} {a b c a' b' c' : Nat} (h : Sent s t evs a b c)
    (k : Sent t u evs' a' b' c') : Sent s u (evs ++ evs') (a + a') (b + b') (c + c') where
  frame := h.frame.trans k.frame
  trace := by rw [k.trace, h.trace, List.append_assoc]
  starts := by rw [k.starts, h.starts, List.drop_drop]
  bytes := by rw [k.bytes, h.bytes, List.drop_drop]
  stops := by rw [k.stops, h.stops, List.drop_drop]
  eTimeout := k.eTimeout.trans h.eTimeout
  eNack := k.eNack.trans h.eNack

theorem sent_atChan (c : Chan) (s : State) : Sent s (atChan c s) [] 0 0 0 :=
  ⟨atChan_frame c s, by simp, rfl, rfl, rfl, rfl, rfl⟩

theorem sent_loadPb (v : Byte) (s : State) : Sent s (loadPb v s) [] 0 0 0 :=
  ⟨loadPb_frame v s, by simp, rfl, rfl, rfl, rfl, rfl⟩

theorem sent_loadDix (j : Nat) (s : State) : Sent s (loadDix j s) [] 0 0 0 :=
  ⟨loadDix_frame j s, by simp, rfl, rfl, rfl, rfl, rfl⟩

/-- An acknowledged byte whose draw is listed. -/
theorem xmit_good (v : Byte) (s : State) (h : s.bytes.take 1 = [.acked]) :
    (xmit v s).1 = .ok ∧ (xmit v s).2.ackl = false ∧ Sent s (xmit v s).2 [.byte v true] 0 1 0 := by
  have e := drawByte_of_take (loadShr v s) .acked h
  have f := xmit_frame v s
  rw [xmit_acked v s (by rw [drawByte_of_take s .acked h]), e] at f ⊢
  exact ⟨rfl, rfl, f, rfl, rfl, rfl, rfl, rfl, rfl⟩

/-- A start, first or repeated, whose draws are listed. -/
theorem primStart_good (ab : Byte) (s : State) (hs : s.starts.take 1 = [.free]) (h : s.bytes.take 1 = [.acked]) :
    (primStart ab s).1 = .ok ∧ (primStart ab s).2.ackl = false ∧
      Sent s (primStart ab s).2 [.start, .byte ab true] 1 1 0 := by
  have e := drawStart_of_take s .free hs
  have f := primStart_frame ab s
  rw [primStart_free ab s (by rw [e]), e] at f ⊢
  obtain ⟨g1, g2, g⟩ := xmit_good ab (startDone { s with starts := s.starts.drop 1 }) h
  exact ⟨g1, g2, f, by rw [g.trace]; simp, g.starts, g.bytes, g.stops, g.eTimeout, g.eNack⟩

/-- A stop whose draw is listed. -/
theorem primStop_good (s : State) (h : s.stops.take 1 = [.done]) :
    (primStop s).1 = .ok ∧ (primStop s).2.ackl = s.ackl ∧ Sent s (primStop s).2 [.stop] 0 0 1 := by
  have e := drawStop_of_take s .done h
  have f := primStop_frame s
  rw [primStop_done s (by rw [e]), e] at f ⊢
  exact ⟨rfl, rfl, f, rfl, rfl, rfl, rfl, rfl, rfl⟩

theorem andThen_ok {x : Result × State} (k : State → Result × State) (h : x.1 = .ok) : andThen x k = k x.2 := by
  simp [andThen, h]

/-- The address byte of the display's transactions is 0x78 (R76). -/
theorem devAddrByte_eq : devAddrByte = 0x78 := by decide

/-- `sendCommand(op)` with a well-behaved display (R131). -/
theorem sendCommand_good (op : Byte) (s : State) (h : GoodDraws 1 3 1 s) :
    (sendCommand op s).1 = .ok ∧ (sendCommand op s).2.ackl = false ∧
      Sent s (sendCommand op s).2 (commandEvents op) 1 3 1 := by
  obtain ⟨h1, h2, h3⟩ := h
  obtain ⟨b1, h2⟩ := take_one_of_take h2
  obtain ⟨b2, h2⟩ := take_one_of_take h2
  obtain ⟨b3, -⟩ := take_one_of_take h2
  obtain ⟨r1, -, g1⟩ := primStart_good devAddrByte (atChan .start (loadPb op s)) h1 b1
  have p1 : (primStart devAddrByte (atChan .start (loadPb op s))).2.pb = op := primStart_pb _ _
  unfold sendCommand
  rw [andThen_ok _ r1]
  generalize (primStart devAddrByte (atChan .start (loadPb op s))).2 = s1 at *
  obtain ⟨r2, -, g2⟩ := xmit_good ctrlCmdByte (atChan .ctrl s1) (by simpa [g1.bytes] using b2)
  have p2 : (xmit ctrlCmdByte (atChan .ctrl s1)).2.pb = op := by rw [xmit_pb]; exact p1
  rw [andThen_ok _ r2]
  generalize (xmit ctrlCmdByte (atChan .ctrl s1)).2 = s2 at *
  rw [p2]
  obtain ⟨r3, a3, g3⟩ := xmit_good op (atChan .payload s2) (by simpa [g1.bytes, g2.bytes] using b3)
  rw [andThen_ok _ r3]
  generalize (xmit op (atChan .payload s2)).2 = s3 at *
  obtain ⟨r4, a4, g4⟩ := primStop_good (atChan .stop s3) (by simpa [g1.stops, g2.stops, g3.stops] using h3)
  refine ⟨r4, by rw [a4]; exact a3, ?_⟩
  have g := (((((((sent_loadPb op s).trans (sent_atChan _ _)).trans g1).trans (sent_atChan _ _)).trans g2).trans
    (sent_atChan _ _)).trans g3).trans ((sent_atChan _ _).trans g4)
  simpa [commandEvents, devAddrByte_eq, ctrlCmdByte] using g

/-- The payload of a data transaction with a well-behaved display (R132). -/
theorem sendPayload_good (j : Nat) (bs : List Byte) (s : State)
    (hb : s.bytes.take bs.length = List.replicate bs.length .acked) (hs : s.stops.take 1 = [.done]) (ha : s.ackl = false) :
    (sendPayload j bs s).1 = .ok ∧ (sendPayload j bs s).2.ackl = false ∧
      Sent s (sendPayload j bs s).2 (bs.map (fun b => .byte b true) ++ [.stop]) 0 bs.length 1 := by
  induction bs generalizing j s with
  | nil =>
    obtain ⟨r, a, g⟩ := primStop_good (atChan .stop s) hs
    exact ⟨r, a.trans ha, by simpa [sendPayload] using (sent_atChan .stop s).trans g⟩
  | cons b rest ih =>
    obtain ⟨b1, b2⟩ := take_one_of_take hb
    obtain ⟨r, a, g⟩ := xmit_good b (loadDix j s) b1
    unfold sendPayload
    rw [andThen_ok _ r]
    generalize (xmit b (loadDix j s)).2 = s1 at *
    obtain ⟨r', a', g'⟩ := ih (j + 1) s1 (by simpa [g.bytes] using b2) (by simpa [g.stops] using hs) a
    refine ⟨r', a', ?_⟩
    have := ((sent_loadDix j s).trans g).trans g'
    simpa [Nat.add_comm] using this

/-- `sendDataBytes(bs)` with a well-behaved display (R132). -/
theorem sendDataBytes_good (bs : List Byte) (s : State) (h : GoodDraws 1 (bs.length + 2) 1 s) :
    (sendDataBytes bs s).1 = .ok ∧ (sendDataBytes bs s).2.ackl = false ∧
      Sent s (sendDataBytes bs s).2 (dataEvents bs) 1 (bs.length + 2) 1 := by
  obtain ⟨h1, h2, h3⟩ := h
  obtain ⟨b1, h2⟩ := take_one_of_take h2
  obtain ⟨b2, h2⟩ := take_one_of_take h2
  obtain ⟨r1, -, g1⟩ := primStart_good devAddrByte (atChan .start s) h1 b1
  unfold sendDataBytes
  rw [andThen_ok _ r1]
  generalize (primStart devAddrByte (atChan .start s)).2 = s1 at *
  obtain ⟨r2, a2, g2⟩ := xmit_good ctrlDataByte (atChan .ctrl s1) (by simpa [g1.bytes] using b2)
  rw [andThen_ok _ r2]
  generalize (xmit ctrlDataByte (atChan .ctrl s1)).2 = s2 at *
  obtain ⟨r3, a3, g3⟩ := sendPayload_good 0 bs (atChan .payload s2) (by simpa [g1.bytes, g2.bytes] using h2)
    (by simpa [g1.stops, g2.stops] using h3) a2
  refine ⟨r3, a3, ?_⟩
  have g := (((((sent_atChan .start s).trans g1).trans (sent_atChan _ _)).trans g2).trans (sent_atChan _ _)).trans g3
  simpa [dataEvents, devAddrByte_eq, ctrlDataByte, Nat.add_comm] using g

end Sys2Proof.Machine
end

