-- ==== Sys2Proof/Laws/Step.lean ====
section
/-! SUPPORT. What a step can do, said once; what a host command and a wire byte answer; the fields that the end of a command
and the moves of the pointer leave alone. -/

namespace Sys2Proof.Machine

/-! ### The step -/

/-- A step with a next state: a reset edge, a running command going on, an acceptance, or nothing. -/
theorem step_cases {s t : State} (h : step s = .next t) :
    ((portHead s).rst = true ∧ t = resetEdge (consume s)) ∨
    ((portHead s).rst = false ∧ s.busy = true ∧ ∃ v, goOn (pullHead s) (consume s) = .next v ∧
      t = if (portHead s).cmdValid then dropWord v else v) ∨
    ((portHead s).rst = false ∧ s.busy = false ∧ (portHead s).cmdValid = true ∧
      accept (portHead s).cmdData (consume s) = .next t) ∨
    ((portHead s).rst = false ∧ s.busy = false ∧ (portHead s).cmdValid = false ∧ t = consume s) := by
  have hb : (consume s).busy = s.busy := by unfold consume; split <;> rfl
  simp only [step, stepOf, edge, hb] at h
  split at h
  · next r => exact .inl ⟨r, by simpa using h.symm⟩
  · next r =>
    have r : (portHead s).rst = false := by simpa using r
    split at h
    · next b =>
      refine .inr (.inl ⟨r, b, ?_⟩)
      unfold dropIf at h
      split at h
      · next v e => exact ⟨v, e, by simpa using h.symm⟩
      · simp at h
      · simp at h
    · next b =>
      have b : s.busy = false := by simpa using b
      split at h
      · next c => exact .inr (.inr (.inl ⟨r, b, c, h⟩))
      · next c => exact .inr (.inr (.inr ⟨r, b, by simpa using c, by simpa using h.symm⟩))

/-- An acceptance with a next state: an illegal word refused, or the decoded command run or begun. -/
theorem accept_cases {w : Word16} {s t : State} (h : accept w s = .next t) :
    (∃ e, decode w = .error e ∧ t = refuse { s with cmd := w }) ∨
    (∃ i, decode w = .ok i ∧ (s.grain = .command ∨ immediate i { s with cmd := w } = true) ∧
      exec i { s with cmd := w } = .next t) ∨
    (∃ i, decode w = .ok i ∧ s.grain ≠ .command ∧ immediate i { s with cmd := w } = false ∧
      beginAt i { s with cmd := w } = .next t) := by
  unfold accept at h
  split at h
  · next e d => exact .inl ⟨e, d, by simpa using h.symm⟩
  · next i d =>
    unfold runAccepted at h
    split at h
    · next g => exact .inr (.inl ⟨i, d, g, h⟩)
    · next g =>
      simp only [not_or, Bool.not_eq_true] at g
      exact .inr (.inr ⟨i, d, g.1, g.2, h⟩)

/-! ### Host commands -/

theorem unlessRefused_refused {i : Instr} {s e : State} (h : stateRefuses i s = true) :
    unlessRefused i s e = .next (refuse s) := by simp [unlessRefused, h]

theorem unlessRefused_runs {i : Instr} {s e : State} (h : stateRefuses i s = false) :
    unlessRefused i s e = .next e := by simp [unlessRefused, h]

/-- A host command always answers a next state. -/
theorem exec_hostCommand (i : Instr) (s : State) (h : isHostCommand i) : ∃ t, exec i s = .next t := by
  obtain ⟨w, h⟩ := h
  cases i <;> first | exact ⟨_, rfl⟩ | simp [encode] at h

/-- The end of a host primitive or macro command changes nothing that `ChannelFrame` keeps but LAST, BUSY, SEQ and what U9
leaves open. -/
theorem endCommand_bus (c : ResultCode) (s : State) : BusFrame s (endCommand c s) :=
  ⟨rfl, rfl, rfl, rfl, rfl, rfl, rfl, rfl, rfl, rfl⟩

/-! ### Bytes on the wire -/

theorem sendAt_runs {name : String} {pos : WirePos} {v : Byte} {s : State} (h : atPos pos s = true) :
    sendAt name pos v s = .next (movePointer (xmit v s)) := by simp [sendAt, h]

theorem sendAt_refused {name : String} {pos : WirePos} {v : Byte} {s : State} (h : atPos pos s = false) :
    sendAt name pos v s = .refused (.outOfPosition name) := by simp [sendAt, h]

/-- What `atPos` says of a state. -/
theorem atPos_iff (pos : WirePos) (s : State) :
    atPos pos s = true ↔ s.busy = true ∧ s.en = true ∧ (s.opn = true ∨ pos = .addr) ∧ posOf s = some pos := by
  simp [atPos, and_assoc]

/-- Away from the first byte of a transaction, a wire-byte row is one byte sent at its position. -/
theorem exec_wire (i : Instr) (pos : WirePos) (b : Byte) (s : State) (h : encode i = .wire8 pos b) (hp : pos ≠ .addr) :
    ∃ name, exec i s = sendAt name pos b s := by
  cases i <;> simp only [encode, Code.wire8.injEq, reduceCtorEq] at h <;> obtain ⟨rfl, rfl⟩ := h <;>
    first | exact ⟨_, rfl⟩ | exact absurd rfl hp

theorem dataByteAt_cases (s : State) :
    (∃ v, dataByteAt s = .byte .dataPayload v) ∨ ∃ a, dataByteAt s = .noRom a := by
  unfold dataByteAt; split
  · split
    · exact .inl ⟨_, rfl⟩
    · exact .inr ⟨_, rfl⟩
  · exact .inl ⟨_, rfl⟩

/-- Where the pointer can stand when it names a byte at a position (R31, R131, R132). -/
theorem posOf_cases {s : State} {pos : WirePos} (h : posOf s = some pos) :
    (s.seq = .prim ∧ ((∃ ab, hostPrimitive s = .start ab ∧ pos = .addr) ∨
      (∃ v, hostPrimitive s = .byte .dataPayload v ∧ pos = .dataPayload))) ∨
    ((s.seq = .sCmd ∨ s.seq = .sInit ∨ s.seq = .sCur ∨ s.seq = .sChr) ∧
      ((s.cch = .start ∧ pos = .addr) ∨
        (s.cch = .ctrl ∧ ((s.seq = .sChr ∧ pos = .ctrlData) ∨ (s.seq ≠ .sChr ∧ pos = .ctrlCmd))) ∨
        (s.cch = .payload ∧ ((s.seq = .sChr ∧ pos = .dataPayload) ∨
          (s.seq ≠ .sChr ∧ (pos = .cmdPayload ∨ (s.seq = .sInit ∧ pos = .param))))))) := by
  have hp : (∃ ab, hostPrimitive s = .start ab) ∨ (∃ v, hostPrimitive s = .byte .dataPayload v) ∨
      hostPrimitive s = .stop ∨ hostPrimitive s = .nothing := by unfold hostPrimitive; split <;> simp
  unfold posOf named channelPrimitive at h
  obtain ⟨v, hd⟩ | ⟨a, hd⟩ := dataByteAt_cases s <;> obtain ⟨ab, hp⟩ | ⟨v, hp⟩ | hp | hp := hp <;> rw [hd, hp] at h <;>
    cases hi : isParamStep s.ipc.toNat <;> cases hq : s.seq <;> cases hc : s.cch <;> simp [hq, hc, hi] at h ⊢ <;>
    simp_all

/-- The move after the control byte: DIX is cleared in a data transaction and kept in a command transaction (R131, R132). -/
theorem nextPrimitive_ctrl {s : State} (h : s.cch = .ctrl) :
    nextPrimitive s = atChan .payload (if s.seq = .sChr then loadDix 0 s else s) := by
  unfold nextPrimitive; simp only [h]; split <;> rfl

/-- The move after the payload byte of a command transaction (R131). -/
theorem nextPrimitive_payload {s : State} (h : s.cch = .payload) (hq : s.seq ≠ .sChr) :
    nextPrimitive s = atChan .stop s := by simp [nextPrimitive, h, hq]

/-- The pointer after a primitive of a macro command that returned Ok before the stop (R178). -/
theorem movePointer_next {x : Result × State}
    (hm : x.2.seq = .sCmd ∨ x.2.seq = .sInit ∨ x.2.seq = .sCur ∨ x.2.seq = .sChr) (hr : x.1 = .ok)
    (hc : x.2.cch ≠ .stop) : movePointer x = nextPrimitive x.2 := by
  obtain ⟨r, s⟩ := x
  simp only at hm hr hc
  obtain hm | hm | hm | hm := hm <;> simp [movePointer, hm, channelDone, hr, hc]

/-- The pointer after a primitive of a macro command that returned Nack before the stop (R133, R178). -/
theorem movePointer_nack {x : Result × State}
    (hm : x.2.seq = .sCmd ∨ x.2.seq = .sInit ∨ x.2.seq = .sCur ∨ x.2.seq = .sChr) (hr : x.1 = .nack)
    (hc : x.2.cch ≠ .stop) : movePointer x = atChan .stop x.2 := by
  obtain ⟨r, s⟩ := x
  simp only at hm hr hc
  obtain hm | hm | hm | hm := hm <;> simp [movePointer, hm, channelDone, hr, hc]

/-- A primitive of a macro command that timed out before the stop ends the command (R133, R178). -/
theorem movePointer_timeout {x : Result × State}
    (hm : x.2.seq = .sCmd ∨ x.2.seq = .sInit ∨ x.2.seq = .sCur ∨ x.2.seq = .sChr) (hr : x.1 = .timeout)
    (hc : x.2.cch ≠ .stop) : movePointer x = procFailed .timeout x.2 := by
  obtain ⟨r, s⟩ := x
  simp only at hm hr hc
  obtain hm | hm | hm | hm := hm <;> simp [movePointer, hm, channelDone, hr, hc]

/-- A byte that returns Ok while a transaction is open: what it writes, and the frame. -/
theorem xmit_ok_frame {v : Byte} {s : State} {acked : Bool} (h : goesOn s (drawByte s).1 acked) (ho : s.opn = true) :
    ByteFrame s (xmit v s).2 ∧ (xmit v s).1 = .ok ∧ (xmit v s).2.shr = v ∧ (xmit v s).2.ackl = !acked ∧
      (xmit v s).2.cch = s.cch ∧ (xmit v s).2.dix = s.dix ∧ (xmit v s).2.trace = s.trace ++ [.byte v acked] := by
  have f := xmit_frame v s
  obtain ⟨h, rfl⟩ | ⟨h, p, rfl⟩ := h
  · rw [xmit_acked v s h] at f ⊢
    refine ⟨⟨f.bus, ?_, ?_, ?_, ?_, ?_, ?_, ?_, ?_, ?_, ?_, ?_, ?_, ?_, ?_, ?_, ?_⟩, ?_, ?_, ?_, ?_, ?_, ?_⟩ <;> simp [ho]
  · rw [xmit_nacked v s h, byteDone_ignore v _ (by simpa using p)] at f ⊢
    refine ⟨⟨f.bus, ?_, ?_, ?_, ?_, ?_, ?_, ?_, ?_, ?_, ?_, ?_, ?_, ?_, ?_, ?_, ?_⟩, ?_, ?_, ?_, ?_, ?_, ?_⟩ <;> simp [ho]

/-- CCH and DIX are no part of `ByteFrame`. -/
theorem ByteFrame.atChan {s t : State} (c : Chan) (h : ByteFrame s t) : ByteFrame s (atChan c t) :=
  ⟨⟨h.1.1, h.1.2, h.1.3, h.1.4, h.1.5, h.1.6, h.1.7, h.1.8, h.1.9, h.1.10⟩, h.2, h.3, h.4, h.5, h.6, h.7, h.8, h.9, h.10, h.11,
    h.12, h.13, h.14, h.15, h.16, h.17⟩

theorem ByteFrame.loadDix {s t : State} (j : Nat) (h : ByteFrame s t) : ByteFrame s (loadDix j t) :=
  ⟨⟨h.1.1, h.1.2, h.1.3, h.1.4, h.1.5, h.1.6, h.1.7, h.1.8, h.1.9, h.1.10⟩, h.2, h.3, h.4, h.5, h.6, h.7, h.8, h.9, h.10, h.11,
    h.12, h.13, h.14, h.15, h.16, h.17⟩

/-! ### Invariants of whole commands -/

theorem sendCommands_frame (bs : List Byte) (s : State) :
    BusFrame s (sendCommands bs s).2 ∧ (∃ evs, (sendCommands bs s).2.trace = s.trace ++ evs) ∧
      (sendCommands bs s).2.ready = s.ready ∧ (sendCommands bs s).2.eInit = s.eInit := by
  induction bs generalizing s with
  | nil => exact ⟨(ChannelFrame.refl s).bus, ⟨[], by simp [sendCommands]⟩, rfl, rfl⟩
  | cons b rest ih =>
    have f := sendCommand_frame b s
    cases rest with
    | nil => exact ⟨f.bus, f.grows, f.ready, f.eInit⟩
    | cons c rest =>
      unfold sendCommands
      split
      · next s' e =>
        rw [e] at f
        obtain ⟨g, ⟨evs', h⟩, k, l⟩ := ih (advanceIpc s')
        obtain ⟨evs, h'⟩ := f.grows
        simp only at h'
        exact ⟨f.bus.trans ⟨g.1, g.2, g.3, g.4, g.5, g.6, g.7, g.8, g.9, g.10⟩,
          ⟨evs ++ evs', by rw [h, advanceIpc_trace, h', List.append_assoc]⟩, k.trans f.ready, l.trans f.eInit⟩
      · next e => rw [e] at f; exact ⟨f.bus, f.grows, f.ready, f.eInit⟩
      · next e => rw [e] at f; exact ⟨f.bus, f.grows, f.ready, f.eInit⟩

/-- The loop of INIT and SETCUR leaves the bus closed, unless it sends nothing. -/
theorem sendCommands_closed (bs : List Byte) (s : State) (h : bs ≠ []) : Closed (sendCommands bs s).2 := by
  induction bs generalizing s with
  | nil => exact absurd rfl h
  | cons b rest ih =>
    have k := sendCommand_closed b s
    cases rest with
    | nil => exact k
    | cons c rest =>
      unfold sendCommands
      split
      · exact ih _ (by simp)
      · next e => rw [e] at k; exact k
      · next e => rw [e] at k; exact k

/-- The loop of INIT and SETCUR with a well-behaved display: one command transaction per byte, in order (R140, R160). -/
theorem sendCommands_good (bs : List Byte) (s : State) (hs : s.starts.take bs.length = List.replicate bs.length .free)
    (hb : s.bytes.take (3 * bs.length) = List.replicate (3 * bs.length) .acked)
    (hp : s.stops.take bs.length = List.replicate bs.length .done) :
    (sendCommands bs s).1 = .ok ∧ (bs ≠ [] → (sendCommands bs s).2.ackl = false) ∧
      (sendCommands bs s).2.trace = s.trace ++ bs.flatMap commandEvents ∧
      (sendCommands bs s).2.starts = s.starts.drop bs.length ∧
      (sendCommands bs s).2.bytes = s.bytes.drop (3 * bs.length) ∧
      (sendCommands bs s).2.stops = s.stops.drop bs.length ∧
      (sendCommands bs s).2.eTimeout = s.eTimeout ∧ (sendCommands bs s).2.eNack = s.eNack := by
  induction bs generalizing s with
  | nil => simp [sendCommands]
  | cons b rest ih =>
    have e3 : 3 * (b :: rest).length = 3 * rest.length + 1 + 1 + 1 := by simp; omega
    rw [e3] at hb
    obtain ⟨a1, hs'⟩ := take_one_of_take hs
    obtain ⟨c1, hp'⟩ := take_one_of_take hp
    obtain ⟨b1, hb1⟩ := take_one_of_take hb
    obtain ⟨b2, hb2⟩ := take_one_of_take hb1
    obtain ⟨b3, hb3⟩ := take_one_of_take hb2
    have d : GoodDraws 1 3 1 s := by
      refine ⟨a1, ?_, c1⟩
      have := congrArg (List.take 3) hb
      simpa [List.take_take, List.take_replicate] using this
    obtain ⟨r, k, g⟩ := sendCommand_good b s d
    cases rest with
    | nil => exact ⟨r, fun _ => k, by simpa [sendCommands] using g.trace, g.starts, g.bytes, g.stops, g.eTimeout, g.eNack⟩
    | cons c rest =>
      have e : sendCommands (b :: c :: rest) s = sendCommands (c :: rest) (advanceIpc (sendCommand b s).2) := by
        rw [sendCommands]; split
        · next x h => rw [h]
        · next h => rw [h] at r; exact absurd r (by simp)
        · next h => rw [h] at r; exact absurd r (by simp)
      rw [e]
      obtain ⟨r', k', t', s', y', p', m', n'⟩ := ih (advanceIpc (sendCommand b s).2) (by simpa [g.starts] using hs')
        (by simpa [g.bytes] using hb3) (by simpa [g.stops] using hp')
      refine ⟨r', fun _ => k' (by simp), ?_, ?_, ?_, ?_, m'.trans g.eTimeout, n'.trans g.eNack⟩
      · rw [t']; simp [g.trace]
      · rw [s']; simp [g.starts, Nat.add_comm]
      · rw [y']; simp only [advanceIpc_bytes, g.bytes, List.drop_drop, List.length_cons]; congr 1; omega
      · rw [p']; simp [g.stops, Nat.add_comm]

end Sys2Proof.Machine
end

