-- ==== Sys2Proof/Laws/Display.lean ====
section
/-! SUPPORT. The display's pointers after the three command transactions of SETCUR (R56 (a)), after one data byte (R56 (b),
(c)), and its memory through command transactions and INIT, whatever the environment answers (R55, R214). -/

namespace Sys2Proof.Machine

/-- A command transaction delivered from any state of the display: its payload byte, and the receiver at rest. -/
theorem display_command (d : Display) (b : Byte) :
    displayAfter d (commandEvents b) =
      { displayCommand b { d with place := .commands, heard := false } with place := .nothing } := rfl

theorem decodeOpcode_page : ∀ p : BitVec 3, decodeOpcode (pageByte p) = some (.dPageAddr p) := by decide
theorem decodeOpcode_colLow : ∀ n : BitVec 4, decodeOpcode (colLowByte n) = some (.dColLow n) := by decide
theorem decodeOpcode_colHigh : ∀ h : BitVec 3, decodeOpcode (colHighByte h) = some (.dColHigh h) := by decide

/-- The two parts of a column number joined again (R79). -/
theorem colHigh_append_colLow (c : BitVec 7) : colHigh c ++ colLow c = c := by
  unfold colHigh colLow; revert c; decide

/-- R56 (a): after the three bytes of SETCUR the pointers are the row and the column, whatever the display had received
before; the memory is as it was. -/
theorem display_setcur (d : Display) (p : BitVec 3) (c : BitVec 7) :
    displayAfter d ((cursorBytes p c).flatMap commandEvents) = ⟨some p, some c, d.mem, .nothing, false, .nothing⟩ := by
  have e : (cursorBytes p c).flatMap commandEvents =
      commandEvents (pageByte p) ++ (commandEvents (colLowByte (colLow c)) ++ commandEvents (colHighByte (colHigh c))) := rfl
  rw [e]
  simp only [displayAfter, List.foldl_append]
  simp only [← displayAfter.eq_1, display_command, displayCommand, decodeOpcode_page, decodeOpcode_colLow,
    decodeOpcode_colHigh, losePointers, cursorDone, colHigh_append_colLow]

/-- R56 (b), (c): a data byte below column 127 is stored at the pointers, and the column pointer is one further. -/
theorem display_data (b : Byte) (p : BitVec 3) (c : BitVec 7) (m : Memory) (r : Place) (k : Cursor)
    (h : c.toNat < 127) :
    displayData b ⟨some p, some c, m, r, true, k⟩ = ⟨some p, some (c + 1), writeMem m (displayAddr p c) b, r, true, .nothing⟩ := by
  simp [displayData, advanceColumn, displayWidth, h]

/-- R56 (b), N14, U3: a data byte at column 127 is stored there, and the pointers are then unknown. -/
theorem display_data_last (b : Byte) (p : BitVec 3) (m : Memory) (r : Place) (k : Cursor) :
    displayData b ⟨some p, some 127, m, r, true, k⟩ =
      ⟨none, none, writeMem m (displayAddr p 127) b, r, true, .nothing⟩ := rfl

/-! ### The display memory through command transactions (R55, R214) -/

/-- A command byte keeps the memory and the place in the transaction. -/
theorem displayCommand_keeps (b : Byte) (d : Display) :
    (displayCommand b d).mem = d.mem ∧ (displayCommand b d).place = d.place := by
  unfold displayCommand cursorDone; repeat' split
  all_goals exact ⟨rfl, rfl⟩

/-- R55: the memory is reached only in a data transaction: while none is open no event of the bus changes it, whatever byte
it is, acknowledged or not. -/
theorem displayEvent_mem (d : Display) (e : Event) (h : d.place ≠ .datas) : (displayEvent d e).mem = d.mem := by
  obtain ⟨pg, col, m, pl, hd, k⟩ := d
  have c : ∀ (b : Byte) (d : Display), (afterControl b d).mem = d.mem := by
    intro b d; unfold afterControl; split
    · rfl
    · split <;> rfl
  cases e with
  | start => rfl
  | stop => rfl
  | timeout => cases pl <;> first | rfl | exact absurd rfl h
  | byte v a =>
    cases a <;> cases hd <;> cases pl <;>
      first | rfl | exact absurd rfl h | exact c _ _ | exact (displayCommand_keeps _ _).1

/-- From a display to which the block stands at place `p`, the events keep the memory and bring the block to place `q`. -/
def Keeps (p q : Place) (evs : List Event) : Prop :=
  ∀ d : Display, d.place = p → (displayAfter d evs).mem = d.mem ∧ (displayAfter d evs).place = q

theorem Keeps.append {p q r : Place} {a b : List Event} (h : Keeps p q a) (k : Keeps q r b) : Keeps p r (a ++ b) := by
  intro d hd
  have e : displayAfter d (a ++ b) = displayAfter (displayAfter d a) b := List.foldl_append
  obtain ⟨m, n⟩ := h d hd
  rw [e, ← m]
  exact k _ n

theorem keeps_start (p : Place) : Keeps p .address [.start] := fun _ _ => ⟨rfl, rfl⟩
theorem keeps_stop (p : Place) : Keeps p .nothing [.stop] := fun _ _ => ⟨rfl, rfl⟩
theorem keeps_timeout {p : Place} (h : p ≠ .datas) : Keeps p .nothing [.timeout] := by
  intro d hd
  have : d.place ≠ .datas := hd ▸ h
  exact ⟨displayEvent_mem d .timeout this, rfl⟩

/-- Where the block stands after a byte, acknowledged or not, of a command transaction. -/
theorem keeps_address (a : Bool) : Keeps .address .control [.byte devAddrByte a] := by
  rintro ⟨_, _, _, _, h, _⟩ rfl; cases a <;> cases h <;> exact ⟨rfl, rfl⟩
theorem keeps_control (a : Bool) : Keeps .control .commands [.byte ctrlCmdByte a] := by
  rintro ⟨_, _, _, _, h, _⟩ rfl; cases a <;> cases h <;> exact ⟨rfl, rfl⟩
theorem keeps_payload (v : Byte) (a : Bool) : Keeps .commands .commands [.byte v a] := by
  rintro ⟨_, _, _, _, h, _⟩ rfl; cases a <;> cases h <;> first | exact displayCommand_keeps _ _ | exact ⟨rfl, rfl⟩

/-- From place `p`, what is appended to the trace between `s` and `t` keeps the memory and ends the transaction. -/
def EndsFrom (p : Place) (s t : State) : Prop := ∃ evs, t.trace = s.trace ++ evs ∧ Keeps p .nothing evs

theorem EndsFrom.after {p q : Place} {s t u : State} {evs : List Event} (h : t.trace = s.trace ++ evs) (k : Keeps p q evs)
    (e : EndsFrom q t u) : EndsFrom p s u := by
  obtain ⟨evs', h', k'⟩ := e
  exact ⟨evs ++ evs', by rw [h', h, List.append_assoc], k.append k'⟩

/-- What a byte appends to the trace (R97, R98). -/
theorem xmit_events (v : Byte) (s : State) :
    ((xmit v s).1 = .timeout ∧ (xmit v s).2.trace = s.trace ++ [.timeout]) ∨
    ((xmit v s).1 ≠ .timeout ∧ ∃ a, (xmit v s).2.trace = s.trace ++ [.byte v a]) := by
  cases h : (drawByte s).1
  · rw [xmit_acked v s h]; exact .inr ⟨by simp, true, by simp⟩
  · rw [xmit_nacked v s h]
    cases p : s.par.nackPolicy
    · rw [byteDone_report _ _ (by simpa using p)]; exact .inr ⟨by simp, false, by simp⟩
    · rw [byteDone_ignore _ _ (by simpa using p)]; exact .inr ⟨by simp, false, by simp⟩
  · rw [xmit_expired v s h]; exact .inl ⟨rfl, by simp⟩

theorem primStop_ends {p : Place} (hp : p ≠ .datas) (s : State) : EndsFrom p s (primStop s).2 := by
  cases h : (drawStop s).1
  · rw [primStop_done s h]; exact ⟨[.stop], by simp, keeps_stop p⟩
  · rw [primStop_expired s h]; exact ⟨[.timeout], by simp, keeps_timeout hp⟩

/-- A byte of a procedure and what follows it, in every outcome (R131 to R133). -/
theorem andThen_ends {p q : Place} {v : Byte} {s : State} {k : State → Result × State} (hp : p ≠ .datas) (hq : q ≠ .datas)
    (hb : ∀ a, Keeps p q [.byte v a]) (hk : ∀ u, EndsFrom q u (k u).2) : EndsFrom p s (andThen (xmit v s) k).2 := by
  obtain ⟨r, e⟩ | ⟨r, a, e⟩ := xmit_events v s
  · simp only [andThen, r, abandon]; exact ⟨_, e, keeps_timeout hp⟩
  · refine .after e (hb a) ?_
    unfold andThen; split
    · exact hk _
    · exact .after (evs := []) (by simp) (fun d hd => ⟨rfl, hd⟩) (primStop_ends hq _)
    · next h => exact absurd h r

/-- Whatever the environment answers, `sendCommand` keeps the display memory. -/
theorem sendCommand_ends {p : Place} (hp : p ≠ .datas) (op : Byte) (s : State) : EndsFrom p s (sendCommand op s).2 := by
  unfold sendCommand
  have h0 : (atChan .start (loadPb op s)).trace = s.trace := rfl
  cases h : (drawStart (atChan .start (loadPb op s))).1
  · rw [primStart_free _ _ h]
    refine .after (evs := [.start]) (t := startDone (drawStart (atChan .start (loadPb op s))).2) (by simp) (keeps_start p) ?_
    refine andThen_ends (by decide) (by decide) keeps_address fun u => ?_
    refine .after (evs := []) (t := atChan .ctrl u) (by simp) (fun d hd => ⟨rfl, hd⟩) ?_
    refine andThen_ends (by decide) (by decide) keeps_control fun u => ?_
    refine .after (evs := []) (t := atChan .payload u) (by simp) (fun d hd => ⟨rfl, hd⟩) ?_
    refine andThen_ends (by decide) (by decide) (keeps_payload _) fun u => ?_
    exact .after (evs := []) (t := atChan .stop u) (by simp) (fun d hd => ⟨rfl, hd⟩) (primStop_ends (by decide) _)
  · rw [primStart_expired _ _ h]; exact ⟨[.timeout], by simp [andThen, abandon], keeps_timeout hp⟩

/-- The loop of INIT and SETCUR keeps the display memory, whatever the environment answers. -/
theorem sendCommands_ends (bs : List Byte) (hb : bs ≠ []) {p : Place} (hp : p ≠ .datas) (s : State) :
    EndsFrom p s (sendCommands bs s).2 := by
  induction bs generalizing s p with
  | nil => exact absurd rfl hb
  | cons b rest ih =>
    have k := sendCommand_ends hp b s
    cases rest with
    | nil => exact k
    | cons c rest =>
      unfold sendCommands
      split
      · next s' e =>
        rw [e] at k
        obtain ⟨evs, h, k⟩ := k
        exact .after (t := advanceIpc s') h k (ih (by simp) (by decide) _)
      · next e => rw [e] at k; exact k
      · next e => rw [e] at k; exact k

/-- R214: after INIT, whether it succeeds or fails, the display memory holds whatever it held. -/
theorem display_init (s t : State) (d : Display) (hd : d.place ≠ .datas) (h : exec .init s = .next t) :
    ∃ evs, t.trace = s.trace ++ evs ∧ (displayAfter d evs).mem = d.mem := by
  cases hr : stateRefuses .init s
  · have h : execInit s = .next t := h
    rw [execInit, unlessRefused_runs hr] at h
    obtain ⟨evs, e, k⟩ := sendCommands_ends (irom s.par.toParams) (by simp [irom]) hd (clearIpc (runs .sInit s))
    refine ⟨evs, ?_, (k d rfl).1⟩
    injection h with h
    rw [← h]
    unfold endInit
    split <;> simpa [fail] using e
  · have h : execInit s = .next t := h
    rw [execInit, unlessRefused_refused hr] at h
    injection h with h
    exact ⟨[], by rw [← h]; simp, rfl⟩
end Sys2Proof.Machine
end

