-- ==== Sys2Proof/Laws/Memory.lean ====
section
/-! SUPPORT. The known memory keeps its canonical form, and a read after a write. -/

namespace Sys2Proof.Machine

theorem memoryWf_nil : memoryWf [] = true := rfl

theorem risingFrom_write (m : Memory) (lo a : Nat) (v : Byte) (h : risingFrom lo m = true) (ha : lo ≤ a) :
    risingFrom lo (writeMem m a v) = true := by
  induction m generalizing lo with
  | nil => simp [writeMem, risingFrom, ha]
  | cons x rest ih =>
    obtain ⟨b, w⟩ := x
    simp only [risingFrom, Bool.and_eq_true, decide_eq_true_eq] at h
    unfold writeMem
    split
    · simp [risingFrom, ha, h.2]; omega
    · split
      · next hab => subst hab; simp [risingFrom, h.2, ha]
      · simp only [risingFrom, Bool.and_eq_true, decide_eq_true_eq]
        exact ⟨h.1, ih _ h.2 (by omega)⟩

/-- A write keeps the canonical form. -/
theorem memoryWf_write (m : Memory) (a : Nat) (v : Byte) (h : memoryWf m = true) : memoryWf (writeMem m a v) = true :=
  risingFrom_write m 0 a v h (Nat.zero_le a)

/-- A read after a write to the same address gives the byte written. -/
theorem readMem_write_same (m : Memory) (a : Nat) (v : Byte) : readMem (writeMem m a v) a = some v := by
  induction m with
  | nil => simp [writeMem, readMem]
  | cons x rest ih =>
    obtain ⟨b, w⟩ := x
    unfold writeMem
    split
    · simp [readMem]
    · split
      · simp [readMem]
      · next _ hab => simp [readMem, hab, ih]

/-- A write leaves every other address alone. -/
theorem readMem_write_other (m : Memory) (a b : Nat) (v : Byte) (h : b ≠ a) :
    readMem (writeMem m a v) b = readMem m b := by
  induction m with
  | nil => simp [writeMem, readMem, h]
  | cons x rest ih =>
    obtain ⟨c, w⟩ := x
    unfold writeMem
    split
    · simp [readMem, h]
    · split
      · next hac => subst hac; simp [readMem, h]
      · simp [readMem, ih]

/-- An erased address holds no known byte. -/
theorem readMem_erase_same (m : Memory) (a : Nat) : readMem (eraseMem m a) a = none := by
  induction m with
  | nil => rfl
  | cons x rest ih => unfold eraseMem; split <;> simp_all [readMem]

/-- Erasing an address leaves every other address alone. -/
theorem readMem_erase_other (m : Memory) (a b : Nat) (h : b ≠ a) : readMem (eraseMem m a) b = readMem m b := by
  induction m with
  | nil => rfl
  | cons x rest ih => unfold eraseMem; split <;> simp_all [readMem]

theorem risingFrom_mono (m : Memory) {lo hi : Nat} (h : lo ≤ hi) (k : risingFrom hi m = true) : risingFrom lo m = true := by
  cases m with
  | nil => rfl
  | cons x rest => simp only [risingFrom, Bool.and_eq_true, decide_eq_true_eq] at k ⊢; exact ⟨by omega, k.2⟩

theorem risingFrom_erase (m : Memory) (lo a : Nat) (h : risingFrom lo m = true) : risingFrom lo (eraseMem m a) = true := by
  induction m generalizing lo with
  | nil => rfl
  | cons x rest ih =>
    simp only [risingFrom, Bool.and_eq_true, decide_eq_true_eq] at h
    unfold eraseMem
    split
    · exact risingFrom_mono _ (by omega) (ih _ h.2)
    · simp only [risingFrom, Bool.and_eq_true, decide_eq_true_eq]; exact ⟨h.1, ih _ h.2⟩

/-- Erasing keeps the canonical form. -/
theorem memoryWf_erase (m : Memory) (a : Nat) (h : memoryWf m = true) : memoryWf (eraseMem m a) = true :=
  risingFrom_erase m 0 a h

end Sys2Proof.Machine
end

