-- ==== Sys2Proof/Laws/PerInstr.lean ====
section
/-! SUPPORT. One lemma per instruction about its code: the decoder reads back what the encoder writes. -/

namespace Sys2Proof.Laws.Code

/-- The decoder reads the code of a well-formed instruction as that instruction. -/
def Statement (i : Instr) : Prop := i.wellFormed = true → decodeCode (encode i) = some i

theorem nop : Statement .nop := by unfold Statement; decide
theorem binit : Statement .binit := by unfold Statement; decide
theorem start (a : BitVec 7) (r : Bool) : Statement (.start a r) := by revert a r; unfold Statement; decide
theorem wbyte (v : Byte) : Statement (.wbyte v) := by revert v; unfold Statement; decide
theorem stop : Statement .stop := by unfold Statement; decide
theorem scmd (v : Byte) : Statement (.scmd v) := by revert v; unfold Statement; decide
theorem init : Statement .init := by unfold Statement; decide
theorem setcur (p : BitVec 3) (c : BitVec 7) : Statement (.setcur p c) := by revert p c; unfold Statement; decide
theorem wchar (k : Byte) : Statement (.wchar k) := by revert k; unfold Statement; decide
theorem clrerr : Statement .clrerr := by unfold Statement; decide
theorem wAddrWrite (a : BitVec 7) : Statement (.wAddrWrite a) := by revert a; unfold Statement; decide
theorem wCtrlCmd : Statement .wCtrlCmd := by unfold Statement; decide
theorem wCtrlData : Statement .wCtrlData := by unfold Statement; decide
theorem dDisplayOff : Statement .dDisplayOff := by unfold Statement; decide
theorem dClockDivide : Statement .dClockDivide := by unfold Statement; decide
theorem dMultiplex : Statement .dMultiplex := by unfold Statement; decide
theorem dDisplayOffset : Statement .dDisplayOffset := by unfold Statement; decide
theorem dChargePump : Statement .dChargePump := by unfold Statement; decide
theorem dAddressingMode : Statement .dAddressingMode := by unfold Statement; decide
theorem dSegmentRemap : Statement .dSegmentRemap := by unfold Statement; decide
theorem dComScanDec : Statement .dComScanDec := by unfold Statement; decide
theorem dContrast : Statement .dContrast := by unfold Statement; decide
theorem dPrecharge : Statement .dPrecharge := by unfold Statement; decide
theorem dVcomDeselect : Statement .dVcomDeselect := by unfold Statement; decide
theorem dFollowRam : Statement .dFollowRam := by unfold Statement; decide
theorem dNormalDisplay : Statement .dNormalDisplay := by unfold Statement; decide
theorem dDisplayOn : Statement .dDisplayOn := by unfold Statement; decide
theorem dStartLine (l : BitVec 6) : Statement (.dStartLine l) := by revert l; unfold Statement; decide
theorem dPageAddr (p : BitVec 3) : Statement (.dPageAddr p) := by revert p; unfold Statement; decide
theorem dColLow (n : BitVec 4) : Statement (.dColLow n) := by revert n; unfold Statement; decide
theorem dColHigh (h : BitVec 3) : Statement (.dColHigh h) := by revert h; unfold Statement; decide
theorem wDataByte (d : Byte) : Statement (.wDataByte d) := fun _ => rfl

end Sys2Proof.Laws.Code
end

