-- ==== Sys2Proof/Tests/Slice0.lean ====
section
/-! SUPPORT. Tests against the spec's encodings (R71 to R80) and its test vectors (95_test_vectors.md), and, for every
obligation with hypotheses, a witness: a concrete state and operands that meet them. -/

namespace Sys2Proof.Tests

open Sys2Proof Sys2Proof.Machine

/-! ### Well-formedness: START with `r = 1` is the only ill-formed instruction (R73 (c)) -/

theorem test_wf_refuses_read : (Instr.start 0x3C true).wellFormed = false := by decide
theorem test_wf_write : (Instr.start 0x3C false).wellFormed = true := by decide

/-! ### Decoding: words written out from the patterns of R71 and of the opcode table; expected values from V10 and V11 -/

theorem test_decode_nop : decode 0b0000000000000000#16 = .ok .nop := by decide
theorem test_decode_nop_illegal : decode 0b0000000000000001#16 = .error .reservedBits := by decide
theorem test_decode_binit : decode 0b0001000000000000#16 = .ok .binit := by decide
theorem test_decode_start : decode 0b0010000001111000#16 = .ok (.start 0x3C false) := by decide
theorem test_decode_start_read : decode 0b0010000001111001#16 = .error .readDirection := by decide
theorem test_decode_wbyte : decode 0b0011000010101110#16 = .ok (.wbyte 0xAE) := by decide
theorem test_decode_wbyte_illegal : decode 0b0011000100000000#16 = .error .reservedBits := by decide
theorem test_decode_stop : decode 0b0100000000000000#16 = .ok .stop := by decide
theorem test_decode_scmd : decode 0b0101000001000000#16 = .ok (.scmd 0x40) := by decide
theorem test_decode_init : decode 0b0110000000000000#16 = .ok .init := by decide
theorem test_decode_setcur : decode 0b0111011101111111#16 = .ok (.setcur 7 127) := by decide
theorem test_decode_setcur_bit7 : decode 0b0111000010000000#16 = .error .reservedBits := by decide
theorem test_decode_setcur_bit11 : decode 0b0111100000000000#16 = .error .reservedBits := by decide
theorem test_decode_wchar : decode 0b1000000001000001#16 = .ok (.wchar 0x41) := by decide
theorem test_decode_clrerr : decode 0b1001000000000000#16 = .ok .clrerr := by decide
theorem test_decode_op_a : decode 0b1010000000000000#16 = .error .opcode := by decide
theorem test_decode_op_f : decode 0b1111111111111111#16 = .error .opcode := by decide

theorem test_decode_addr : decodeWire .addr 0b01111000#8 = some (.wAddrWrite 0x3C) := by decide
theorem test_decode_addr_read : decodeWire .addr 0b01111001#8 = none := by decide
theorem test_decode_ctrl_cmd : decodeWire .ctrlCmd 0b00000000#8 = some .wCtrlCmd := by decide
theorem test_decode_ctrl_data : decodeWire .ctrlData 0b01000000#8 = some .wCtrlData := by decide
theorem test_decode_display_off : decodeWire .cmdPayload 0b10101110#8 = some .dDisplayOff := by decide
theorem test_decode_clock_divide : decodeWire .cmdPayload 0b11010101#8 = some .dClockDivide := by decide
theorem test_decode_multiplex : decodeWire .cmdPayload 0b10101000#8 = some .dMultiplex := by decide
theorem test_decode_display_offset : decodeWire .cmdPayload 0b11010011#8 = some .dDisplayOffset := by decide
theorem test_decode_charge_pump : decodeWire .cmdPayload 0b10001101#8 = some .dChargePump := by decide
theorem test_decode_addressing_mode : decodeWire .cmdPayload 0b00100000#8 = some .dAddressingMode := by decide
theorem test_decode_segment_remap : decodeWire .cmdPayload 0b10100001#8 = some .dSegmentRemap := by decide
theorem test_decode_com_scan_dec : decodeWire .cmdPayload 0b11001000#8 = some .dComScanDec := by decide
theorem test_decode_contrast : decodeWire .cmdPayload 0b10000001#8 = some .dContrast := by decide
theorem test_decode_precharge : decodeWire .cmdPayload 0b11011001#8 = some .dPrecharge := by decide
theorem test_decode_vcom : decodeWire .cmdPayload 0b11011011#8 = some .dVcomDeselect := by decide
theorem test_decode_follow_ram : decodeWire .cmdPayload 0b10100100#8 = some .dFollowRam := by decide
theorem test_decode_normal : decodeWire .cmdPayload 0b10100110#8 = some .dNormalDisplay := by decide
theorem test_decode_display_on : decodeWire .cmdPayload 0b10101111#8 = some .dDisplayOn := by decide
theorem test_decode_start_line : decodeWire .cmdPayload 0b01111111#8 = some (.dStartLine 63) := by decide
theorem test_decode_page : decodeWire .cmdPayload 0b10110011#8 = some (.dPageAddr 3) := by decide
theorem test_decode_col_low : decodeWire .cmdPayload 0b00000101#8 = some (.dColLow 5) := by decide
theorem test_decode_col_high : decodeWire .cmdPayload 0b00010010#8 = some (.dColHigh 2) := by decide
theorem test_decode_data : decodeWire .dataPayload 0b10101110#8 = some (.wDataByte 0xAE) := by decide
theorem test_table_word : decodeTableWord 16 0x7325 = some (.setcur 3 37) ∧ decodeTableWord 8 0xAE = some .dDisplayOff := by
  decide

/-! ### States for the tests: the parameters of 95_test_vectors.md, and a well-behaved display -/

set_option maxRecDepth 2000 in
/-- `QDIV = 50`, Report, the default INIT bytes; the glyph bytes are arbitrary. -/
def par : ValidParams where
  fClkHz := 20000000
  fSclHz := 100000
  initClkdiv := 0x80
  initOffset := 0x00
  initStartline := 0
  initContrast := 0xCF
  initPrecharge := 0xF1
  initVcomh := 0x40
  glyphRom := List.replicate 130 0xEE
  timeoutLimit := 5
  nackPolicy := .report

set_option maxRecDepth 2000 in
/-- The same with the policy Ignore. -/
def parIgnore : ValidParams where
  toParams := { par.toParams with nackPolicy := .ignore }

/-- After reset, with a well-behaved display. -/
def fresh : State :=
  { State.reset with
    par := par, starts := List.replicate 24 .free, bytes := List.replicate 70 .acked, stops := List.replicate 24 .done }

/-- After BINIT. -/
def up : State := { fresh with en := true, baud := 0x32 }

/-- After BINIT and a START. -/
def opened : State := { up with opn := true, sclOe := true }

/-- After BINIT and INIT. -/
def readied : State := { up with ready := true }

/-- The next state of an outcome. -/
def nextOf (x : Host.Outcome State Fault Refusal) : Option State :=
  match x with
  | .next s => some s
  | _ => none

/-- What the vectors give: the status word and the trace. -/
def seen (x : Host.Outcome State Fault Refusal) : Option (Word16 × List Event) :=
  (nextOf x).map fun s => (status s, s.trace)

/-- The cursor of the sequencer after a wire byte: CCH, DIX and the trace. -/
def pointed (x : Host.Outcome State Fault Refusal) : Option (Chan × BitVec 3 × List Event) :=
  (nextOf x).map fun s => (s.cch, s.dix, s.trace)

/-! ### Host commands: V20 to V61 -/

theorem test_binit : seen (exec .binit fresh) = some (0x0002, []) := by decide -- V20
theorem test_binit_baud : (nextOf (exec .binit fresh)).map (·.baud) = some 0x0032 := by decide -- V20
theorem test_start_refused : seen (exec (.start 0x3C false) fresh) = some (0x1050, []) := by decide -- V22
theorem test_start : seen (exec (.start 0x3C false) up) = some (0x0006, [.start, .byte 0x78 true]) := by decide -- V23
theorem test_start_nack : -- V25
    seen (exec (.start 0x3C false) { up with bytes := [.nacked] }) = some (0x0226, [.start, .byte 0x78 false]) := by decide
theorem test_start_expired : -- V27
    seen (exec (.start 0x3C false) { up with starts := [.expired] }) = some (0x0112, [.timeout]) := by decide
theorem test_wbyte : seen (exec (.wbyte 0x55) opened) = some (0x0006, [.byte 0x55 true]) := by decide -- V23
theorem test_wbyte_expired : -- V28
    seen (exec (.wbyte 0x55) { opened with bytes := [.expired] }) = some (0x0112, [.timeout]) := by decide
theorem test_stop : seen (exec .stop opened) = some (0x0002, [.stop]) := by decide -- V23
theorem test_stop_refused : seen (exec .stop up) = some (0x1052, []) := by decide -- V63
theorem test_scmd : -- V30
    seen (exec (.scmd 0xAE) up) =
      some (0x0002, [.start, .byte 0x78 true, .byte 0x00 true, .byte 0xAE true, .stop]) := by decide
theorem test_scmd_first_error : -- V32
    seen (exec (.scmd 0xAE) { up with bytes := [.nacked], stops := [.expired] }) =
      some (0x0322, [.start, .byte 0x78 false, .timeout]) := by decide
theorem test_init_nack : -- V38
    seen (exec .init { up with bytes := [.nacked] }) = some (0x0632, [.start, .byte 0x78 false, .stop]) := by decide
theorem test_init_nack_step3 : -- V37
    (nextOf (exec .init { up with bytes := List.replicate 11 .acked ++ [.nacked] })).map
      (fun s => (status s, s.trace.length, s.trace.drop 15)) =
      some (0x0632, 20, [.start, .byte 0x78 true, .byte 0x00 true, .byte 0xA8 false, .stop]) := by decide
theorem test_init_stuck : -- V39
    seen (exec .init { up with starts := [.expired] }) = some (0x0532, [.timeout]) := by decide
theorem test_setcur : -- V2, V55
    (nextOf (exec (.setcur 3 37) readied)).map (fun s => (status s, transactions s.trace)) =
      some (0x000A, [[0x78, 0x00, 0xB3], [0x78, 0x00, 0x05], [0x78, 0x00, 0x12]]) := by decide
theorem test_setcur_refused : seen (exec (.setcur 0 0) up) = some (0x1052, []) := by decide -- V56
theorem test_wchar_zero : -- V1
    (nextOf (exec (.wchar 0x30) readied)).map (fun s => (status s, transactions s.trace)) =
      some (0x000A, [[0x78, 0x40, 0x7C, 0x12, 0x11, 0x12, 0x7C, 0x00]]) := by decide
theorem test_wchar_expired : -- V59
    seen (exec (.wchar 0x30) { readied with bytes := [.acked, .acked, .acked, .expired] }) =
      some (0x011A, [.start, .byte 0x78 true, .byte 0x40 true, .byte 0x7C true, .timeout]) := by decide
theorem test_wchar_unsupported : seen (exec (.wchar 0x41) readied) = some (0x084A, []) := by decide -- V57
theorem test_nop : -- V60
    seen (exec .nop { fresh with eCmd := true, last := 5 }) = some (0x1000, []) := by decide
theorem test_clrerr_open : -- V61
    seen (exec .clrerr { opened with eCmd := true, eNack := true, last := 5 }) = some (0x0006, []) := by decide

/-! ### Glyphs: V50 -/

theorem test_glyph_zero : glyph par.toParams 0x30 = some [0x7C, 0x12, 0x11, 0x12, 0x7C] := by decide
theorem test_glyph_edges :
    glyph par.toParams 0x1F = none ∧ glyphIndex 0x20 = some 0 ∧ glyph par.toParams 0x22 = none ∧ glyph par.toParams 0x2F = none ∧
      glyphIndex 0x39 = some 25 ∧ glyph par.toParams 0x3A = none ∧ glyph par.toParams 0xFF = none := by decide
set_option maxRecDepth 2000 in
theorem test_qdiv : -- V70, R8
    qdiv par.toParams = 50 ∧ qdiv { par.toParams with fClkHz := 3333333 } = 9 ∧
      qdiv { par.toParams with fClkHz := 1000000 } = 3 := by decide
set_option maxRecDepth 2000 in
theorem test_paramsValid : -- R14, each condition
    paramsValid par.toParams = true ∧ paramsValid { par.toParams with fClkHz := 399999 } = false ∧
      paramsValid { par.toParams with fSclHz := 0 } = false ∧
      paramsValid { par.toParams with fSclHz := 1, fClkHz := 262141 } = false ∧
      paramsValid { par.toParams with timeoutLimit := 0 } = false ∧
      paramsValid { par.toParams with glyphRom := List.replicate 129 0xEE } = false := by decide

/-! ### Bytes on the wire: one primitive of the sequencer; the events of V2 and V1 -/

/-- A macro command runs, its pointer in a channel procedure. -/
def running (q : Seq) (c : Chan) : State :=
  { opened with ready := true, busy := true, seq := q, cch := c, grain := .primitive }

theorem test_w_addr_write :
    pointed (exec (.wAddrWrite 0x3C) { running .sCur .start with opn := false }) =
      some (.ctrl, 0, [.start, .byte 0x78 true]) := by decide
theorem test_w_ctrl_cmd_keeps_dix : -- R130, R131: a command transaction writes no DIX
    pointed (exec .wCtrlCmd { running .sCmd .ctrl with dix := 5 }) = some (.payload, 5, [.byte 0x00 true]) := by decide
theorem test_w_ctrl_cmd : pointed (exec .wCtrlCmd (running .sCur .ctrl)) = some (.payload, 0, [.byte 0x00 true]) := by
  decide
theorem test_w_ctrl_data : pointed (exec .wCtrlData (running .sChr .ctrl)) = some (.payload, 0, [.byte 0x40 true]) := by
  decide
theorem test_d_page_addr :
    pointed (exec (.dPageAddr 3) (running .sCur .payload)) = some (.stop, 0, [.byte 0xB3 true]) := by decide
theorem test_d_col_low :
    pointed (exec (.dColLow 5) (running .sCur .payload)) = some (.stop, 0, [.byte 0x05 true]) := by decide
theorem test_d_col_high :
    pointed (exec (.dColHigh 2) (running .sCur .payload)) = some (.stop, 0, [.byte 0x12 true]) := by decide
theorem test_d_start_line :
    pointed (exec (.dStartLine 0) (running .sCmd .payload)) = some (.stop, 0, [.byte 0x40 true]) := by decide
theorem test_d_opcodes : -- R78, R141
    [Instr.dDisplayOff, .dClockDivide, .dMultiplex, .dDisplayOffset, .dChargePump, .dAddressingMode, .dSegmentRemap,
      .dComScanDec, .dContrast, .dPrecharge, .dVcomDeselect, .dFollowRam, .dNormalDisplay, .dDisplayOn].map
      (fun i => (pointed (exec i (running .sCmd .payload))).map (fun x => x.2.2)) =
    ([0xAE, 0xD5, 0xA8, 0xD3, 0x8D, 0x20, 0xA1, 0xC8, 0x81, 0xD9, 0xDB, 0xA4, 0xA6, 0xAF] : List Byte).map
      (fun b => some [.byte b true]) := by decide
theorem test_w_data_byte :
    pointed (exec (.wDataByte 0x7C) { running .sChr .payload with gidx := 16 }) = some (.payload, 1, [.byte 0x7C true]) := by
  decide
theorem test_w_data_byte_last :
    pointed (exec (.wDataByte 0x00) { running .sChr .payload with gidx := 16, dix := 5 }) =
      some (.stop, 5, [.byte 0x00 true]) := by decide
theorem test_wire_byte_out_of_position : nextOf (exec .dDisplayOn up) = none := by decide

/-! ### The step -/

theorem test_step_illegal : -- V11, R173
    seen (step { up with port := [presents 0x2079] }) = some (0x1052, []) := by decide
theorem test_step_word_while_busy : -- R176
    (nextOf (step { running .sCmd .ctrl with port := [presents 0x4000] })).map (fun s => (s.eCmd, s.last, s.trace)) =
      some (true, 0, [.byte 0x00 true]) := by decide
theorem test_fetch_word : -- withFetchWord, one row of each format
    (nextOf (step (State.reset.withFetchWord 16 0x1000))).map (·.en) = some true ∧
    (nextOf (step { (State.reset.withFetchWord 8 0xAF) with bytes := [.acked] })).map (·.trace) =
      some [.byte 0xAF true] := by decide

/-! ### The line engine: the waveforms V40, V41, V44, V45 -/

/-- A waveform as the vectors print it. -/
def drawn (l : List Bool) : String := String.ofList (l.map fun b => if b then '1' else '0')

theorem test_wave_start :
    drawn ((waveform 1 (items (.startIdle 0x78))).map (·.1)) = "00000110001100011000110001100011000110001100011000" ∧
    drawn ((waveform 1 (items (.startIdle 0x78))).map (·.2)) = "00011111111000000000000000000001111111111111110000" := by
  decide
theorem test_wave_stop :
    drawn ((waveform 1 (items .stop)).map (·.1)) = "11000000" ∧ drawn ((waveform 1 (items .stop)).map (·.2)) = "01111000" := by
  decide
theorem test_wave_restart :
    drawn ((waveform 1 (items (.restart 0x78))).map (·.1)) = "100000110001100011000110001100011000110001100011000" ∧
    drawn ((waveform 1 (items (.restart 0x78))).map (·.2)) = "000011111111000000000000000000001111111111111110000" := by
  decide
theorem test_wave_byte :
    drawn ((waveform 1 (items (.byte 0xA5))).map (·.1)) = "110001100011000110001100011000110001100011000" ∧
    drawn ((waveform 1 (items (.byte 0xA5))).map (·.2)) = "000000111110000011111111110000011111000000000" := by
  decide
theorem test_observer : -- V40
    observe .onIdle (linesOf (waveform 1 (items (.startIdle 0x78)))) = [.start, .byte 0x78 false] := by decide
theorem test_busy_cycles : -- V70, q = 65535
    progCycles 65535 1 (.startIdle 0) = 2621410 ∧ progCycles 65535 1 (.restart 0) = 2686945 ∧
      progCycles 65535 1 (.byte 0) = 2359269 ∧ progCycles 65535 1 .stop = 393212 := by decide

/-! ### Witnesses: for each obligation with hypotheses, states and operands that meet them -/

theorem witness_decodeEncodeRoundTrip : (Instr.setcur 7 127).wellFormed = true ∧ (Instr.start 0x3C false).wellFormed = true := by
  decide
theorem witness_encodeDecodeRoundTrip :
    decodeCode (.cmd16 0x777F) = some (.setcur 7 127) ∧ decodeCode (.wire8 .cmdPayload 0xB7) = some (.dPageAddr 7) := by decide

/-- A word for each clause, at the largest operands. -/
theorem witness_decodeFollowsTheTable :
    (0x0000 : Word16) &&& 0xFFFF = 0x0000 ∧ (0x1000 : Word16) &&& 0xFFFF = 0x1000 ∧ (0x20FE : Word16) &&& 0xFF01 = 0x2000 ∧
    (0x30FF : Word16) &&& 0xFF00 = 0x3000 ∧ (0x4000 : Word16) &&& 0xFFFF = 0x4000 ∧ (0x50FF : Word16) &&& 0xFF00 = 0x5000 ∧
    (0x6000 : Word16) &&& 0xFFFF = 0x6000 ∧ (0x777F : Word16) &&& 0xF880 = 0x7000 ∧ (0x80FF : Word16) &&& 0xFF00 = 0x8000 ∧
    (0x9000 : Word16) &&& 0xFFFF = 0x9000 := by decide
theorem witness_decodeFollowsTheTable_none :
    let w : Word16 := 0x2079
    w &&& 0xFFFF ≠ 0x0000 ∧ w &&& 0xFFFF ≠ 0x1000 ∧ w &&& 0xFF01 ≠ 0x2000 ∧ w &&& 0xFF00 ≠ 0x3000 ∧
      w &&& 0xFFFF ≠ 0x4000 ∧ w &&& 0xFF00 ≠ 0x5000 ∧ w &&& 0xFFFF ≠ 0x6000 ∧ w &&& 0xF880 ≠ 0x7000 ∧
      w &&& 0xFF00 ≠ 0x8000 ∧ w &&& 0xFFFF ≠ 0x9000 := by decide

/-- An idle block at whose port a word is presented. -/
def offered (w : Word16) (s : State) : State := { s with port := [presents w] }

theorem witness_acceptedCommandRuns_quiet : { up with port := [.quiet] }.port = .quiet :: [] ∧ up.busy = false := ⟨rfl, rfl⟩

/-- The hypotheses, then each clause's own, with an SCMD and a NOP. -/
theorem witness_acceptedCommandRuns :
    let s := offered 0x50AE up
    s.port = presents 0x50AE :: [] ∧ (presents 0x50AE).rst = false ∧ (presents 0x50AE).cmdValid = true ∧ s.busy = false ∧
      decode 0x50AE = .ok (.scmd 0xAE) ∧ s.grain = .command ∧
      immediate (.scmd 0xAE) { consume s with cmd := 0x50AE } = false ∧
      immediate .nop { consume (offered 0x0000 up) with cmd := 0x0000 } = true ∧ decode 0x0000 = .ok .nop ∧
      { s with grain := .primitive }.grain = .primitive ∧
      immediate (.scmd 0xAE) { consume { s with grain := .primitive } with cmd := 0x50AE } = false ∧
      { s with grain := .cycle }.grain = .cycle ∧
      immediate (.scmd 0xAE) { consume { s with grain := .cycle } with cmd := 0x50AE } = false := by
  refine ⟨rfl, rfl, rfl, rfl, by decide, rfl, by decide, by decide, by decide, rfl, by decide, rfl, by decide⟩

theorem witness_fetchedWireByteRuns :
    let s := running .sCmd .ctrl
    s.busy = true ∧ s.grain = .primitive ∧ (portHead s).rst = false ∧ (portHead s).cmdValid = false ∧
      named s = .byte .ctrlCmd 0x00 ∧ decodeWire .ctrlCmd 0x00 = some .wCtrlCmd := by
  refine ⟨rfl, rfl, rfl, rfl, by decide, by decide⟩
theorem witness_fetchedWireByteRuns_start :
    let s := running .sCmd .start
    s.busy = true ∧ s.grain = .primitive ∧ (portHead s).rst = false ∧ (portHead s).cmdValid = false ∧
      named s = .start 0x78 ∧ decodeWire .addr 0x78 = some (.wAddrWrite 0x3C) := by
  refine ⟨rfl, rfl, rfl, rfl, by decide, by decide⟩

/-- A state for each clause: an illegal word at the port, EN = 1, EN = 0, OPEN = 0, OPEN = 1, READY = 1, READY = 0. -/
theorem witness_refusalOnlyRecords :
    (offered 0xA000 up).port = presents 0xA000 :: [] ∧ (offered 0xA000 up).busy = false ∧ decode 0xA000 = .error .opcode ∧
      up.en = true ∧ fresh.en = false ∧ up.opn = false ∧ opened.opn = true ∧ opened.en = true ∧ readied.ready = true ∧
      up.ready = false := by
  refine ⟨rfl, rfl, by decide, rfl, rfl, rfl, rfl, rfl, rfl, rfl⟩
theorem witness_refusalOnlyRecords_clrerr : (nextOf (exec .clrerr readied)).isSome = true := by decide

theorem witness_wordDroppedWhileBusy :
    (running .sCmd .ctrl).busy = true ∧
      (nextOf (step { running .sCmd .ctrl with port := .quiet :: [] })).isSome = true := ⟨rfl, by decide⟩
theorem witness_resetEdge :
    let s : State := { running .sCmd .ctrl with port := [⟨true, true, 0x4000⟩] }
    s.port = ⟨true, true, 0x4000⟩ :: [] ∧ (⟨true, true, 0x4000⟩ : PortIn).rst = true := ⟨rfl, rfl⟩

/-- The invariant of a running command, at the bounds of its ranges. -/
theorem witness_stepKeepsInvariant :
    Inv { running .sChr .payload with
      ready := true, ipc := 22, dix := 5, gidx := 25, bitc := 8, qcnt := 131070, tmo := 5, last := 5
      php := none } ∧
    (nextOf (step { running .sChr .payload with
      ready := true, ipc := 22, dix := 5, gidx := 25, bitc := 8, qcnt := 131070, tmo := 5, last := 5
      php := none })).isSome = true := by
  refine ⟨⟨?_, ?_, ?_, ?_, ?_, ?_, ?_, ?_, ?_, ?_, ?_, ?_, ?_, ?_, ?_⟩, ?_⟩ <;> decide

/-- Idle states of the invariant: bus closed, bus open, disabled. -/
theorem witness_stepKeepsInvariant_idle : Inv up ∧ Inv opened ∧ Inv fresh := by
  refine ⟨⟨?_, ?_, ?_, ?_, ?_, ?_, ?_, ?_, ?_, ?_, ?_, ?_, ?_, ?_, ?_⟩,
    ⟨?_, ?_, ?_, ?_, ?_, ?_, ?_, ?_, ?_, ?_, ?_, ?_, ?_, ?_, ?_⟩,
    ⟨?_, ?_, ?_, ?_, ?_, ?_, ?_, ?_, ?_, ?_, ?_, ?_, ?_, ?_, ?_⟩⟩ <;> decide

/-- A step that is no reset and accepts no CLRERR, with flags set; it serves StickyFlagsStay, EnableReadyBaudStay and
TraceOnlyGrows. -/
theorem witness_stickyFlagsStay :
    let s : State := offered 0x0000 { readied with eTimeout := true, eNack := true, eInit := true, eGlyph := true, eCmd := true }
    (portHead s).rst = false ∧ ¬ (s.busy = false ∧ (portHead s).cmdValid = true ∧
      decode (portHead s).cmdData = .ok .clrerr) ∧ s.en = true ∧ s.ready = true ∧ (nextOf (step s)).isSome = true := by
  refine ⟨rfl, by decide, rfl, rfl, by decide⟩

/-- The last primitive of INIT sets READY. -/
theorem witness_readySetOnlyByInit :
    let s : State := { running .sInit .stop with ready := false, ipc := 22, ackl := false }
    s.ready = false ∧ (nextOf (step s)).map (·.ready) = some true := ⟨rfl, by decide⟩
theorem witness_parametersNeverChange : (nextOf (step (offered 0x1000 fresh))).isSome = true := by decide
theorem witness_nopClearsLast : (0x0001 : Word16).extractLsb' 12 4 = 0 ∧ (0x0001 : Word16).extractLsb' 0 12 ≠ 0 := by decide
theorem witness_clrerrClearsFlags : (0x9001 : Word16).extractLsb' 12 4 = 9 ∧ (0x9001 : Word16).extractLsb' 0 12 ≠ 0 := by decide
theorem witness_binit : fresh.en = false ∧ up.en = true ∧ 0 < par.fSclHz ∧ par.fClkHz ≤ 50 * (4 * par.fSclHz) := by decide

/-- Each answer of the environment to a START. -/
theorem witness_start :
    up.en = true ∧ opened.en = true ∧ (drawStart up).1 = .free ∧ (drawByte (drawStart up).2).1 = .acked ∧
      (drawStart { up with starts := [.expired] }).1 = .expired ∧
      (drawByte (drawStart { up with bytes := [.expired] }).2).1 = .expired ∧
      (drawByte (drawStart { up with bytes := [.nacked] }).2).1 = .nacked ∧ up.par.nackPolicy = .report ∧
      { up with par := parIgnore }.par.nackPolicy = .ignore := by decide
theorem witness_wbyte :
    opened.en = true ∧ opened.opn = true ∧ (drawByte opened).1 = .acked ∧
      (drawByte { opened with bytes := [.nacked] }).1 = .nacked ∧
      (drawByte { opened with bytes := [.expired] }).1 = .expired ∧ fresh.en = false ∧ up.opn = false ∧
      (0x3100 : Word16).extractLsb' 12 4 = 3 ∧ (0x3100 : Word16).extractLsb' 8 4 ≠ 0 := by decide
theorem witness_stop :
    opened.en = true ∧ opened.opn = true ∧ (drawStop opened).1 = .done ∧
      (drawStop { opened with stops := [.expired] }).1 = .expired ∧ fresh.en = false ∧ up.opn = false ∧
      (0x4001 : Word16).extractLsb' 12 4 = 4 ∧ (0x4001 : Word16).extractLsb' 0 12 ≠ 0 := by decide
theorem witness_timeoutAbort :
    (drawByte { opened with bytes := [.expired] }).1 = .expired ∧ (drawStart { up with starts := [.expired] }).1 = .expired ∧
      (drawStop { opened with stops := [.expired] }).1 = .expired := by decide
theorem witness_acknowledgePolicy :
    (drawByte { opened with bytes := [.nacked] }).1 = .nacked ∧ opened.par.nackPolicy = .report ∧
      parIgnore.nackPolicy = .ignore := by decide

/-- A well-behaved display for as long as an INIT asks: it serves every obligation with GoodDraws. -/
theorem witness_goodDraws :
    GoodDraws 23 69 23 up ∧ GoodDraws 1 3 1 up ∧ GoodDraws 3 9 3 readied ∧ GoodDraws 1 8 1 readied ∧
      GoodDraws 4 17 4 readied := by
  refine ⟨⟨?_, ?_, ?_⟩, ⟨?_, ?_, ?_⟩, ⟨?_, ?_, ?_⟩, ⟨?_, ?_, ?_⟩, ⟨?_, ?_, ?_⟩⟩ <;> decide
theorem witness_scmd : up.en = true ∧ up.opn = false ∧ GoodDraws 1 3 1 up := ⟨rfl, rfl, by decide, by decide, by decide⟩
theorem witness_scmdAbandons :
    let s : State := { up with bytes := [.acked, .acked, .nacked] }
    2 < 3 ∧ s.en = true ∧ s.opn = false ∧ s.par.nackPolicy = .report ∧ s.starts.take 1 = [.free] ∧
      s.bytes.take (2 + 1) = List.replicate 2 .acked ++ [.nacked] ∧ s.stops.take 1 = [.done] ∧
      { s with stops := [.expired] }.stops.take 1 = [.expired] := by decide
theorem witness_scmdAbandons_first :
    let s : State := { up with bytes := [.nacked] }
    0 < 3 ∧ s.bytes.take (0 + 1) = List.replicate 0 .acked ++ [.nacked] := by decide
theorem witness_scmdEndsAtTimeout :
    up.en = true ∧ up.opn = false ∧ { up with starts := [.expired] }.starts.take 1 = [.expired] ∧ up.starts.take 1 = [.free] ∧
      { up with bytes := [.expired] }.bytes.take (0 + 1) = List.replicate 0 .acked ++ [.expired] ∧
      { up with bytes := [.acked, .acked, .expired] }.bytes.take (2 + 1) = List.replicate 2 .acked ++ [.expired] ∧
      up.bytes.take 3 = [.acked, .acked, .acked] ∧ { up with stops := [.expired] }.stops.take 1 = [.expired] := by decide
/-- The last byte of the last step of a SETCUR, and the last byte of a WCHAR, are not acknowledged; the closing stop done, then
expired. -/
theorem witness_scmdAbandons_setcur :
    let s : State := { readied with bytes := List.replicate 8 .acked ++ [.nacked] }
    2 < 3 ∧ s.en = true ∧ s.opn = false ∧ s.ready = true ∧ s.par.nackPolicy = .report ∧
      NextDraws (List.replicate (2 + 1) .free) (List.replicate (3 * 2 + 2) .acked ++ [.nacked])
        (List.replicate 2 .done ++ [.done]) s ∧
      NextDraws (List.replicate (2 + 1) .free) (List.replicate (3 * 2 + 2) .acked ++ [.nacked])
        (List.replicate 2 .done ++ [.expired]) { s with stops := [.done, .done, .expired] } := by
  refine ⟨by decide, rfl, rfl, rfl, rfl, ⟨?_, ?_, ?_⟩, ⟨?_, ?_, ?_⟩⟩ <;> decide
theorem witness_scmdAbandons_wchar :
    let s : State := { readied with bytes := List.replicate 7 .acked ++ [.nacked] }
    7 < 8 ∧ s.par.nackPolicy = .report ∧ glyph s.par.toParams 0x30 = some [0x7C, 0x12, 0x11, 0x12, 0x7C] ∧
      NextDraws [.free] (List.replicate 7 .acked ++ [.nacked]) [.done] s ∧
      NextDraws [.free] (List.replicate 7 .acked ++ [.nacked]) [.expired] { s with stops := [.expired] } := by
  refine ⟨by decide, rfl, by decide, ⟨?_, ?_, ?_⟩, ⟨?_, ?_, ?_⟩⟩ <;> decide

/-- The start, the last byte and the stop of the last step of a SETCUR, and of a WCHAR, run out of time. -/
theorem witness_scmdEndsAtTimeout_setcur :
    NextDraws (List.replicate 2 .free ++ [.expired]) (List.replicate (3 * 2) .acked) (List.replicate 2 .done)
        { readied with starts := [.free, .free, .expired] } ∧
      NextDraws (List.replicate (2 + 1) .free) (List.replicate (3 * 2 + 2) .acked ++ [.expired]) (List.replicate 2 .done)
        { readied with bytes := List.replicate 8 .acked ++ [.expired] } ∧
      NextDraws (List.replicate (2 + 1) .free) (List.replicate (3 * 2 + 3) .acked) (List.replicate 2 .done ++ [.expired])
        { readied with stops := [.done, .done, .expired] } := by
  refine ⟨⟨?_, ?_, ?_⟩, ⟨?_, ?_, ?_⟩, ⟨?_, ?_, ?_⟩⟩ <;> decide
theorem witness_scmdEndsAtTimeout_wchar :
    NextDraws [.expired] [] [] { readied with starts := [.expired] } ∧
      NextDraws [.free] (List.replicate 7 .acked ++ [.expired]) []
        { readied with bytes := List.replicate 7 .acked ++ [.expired] } ∧
      NextDraws [.free] (List.replicate 8 .acked) [.expired] { readied with stops := [.expired] } := by
  refine ⟨⟨?_, ?_, ?_⟩, ⟨?_, ?_, ?_⟩, ⟨?_, ?_, ?_⟩⟩ <;> decide
theorem witness_dataBytes : GoodDraws 1 (([] : List Byte).length + 2) 1 up ∧ GoodDraws 1 (([0xFF] : List Byte).length + 2) 1 up := by
  refine ⟨⟨?_, ?_, ?_⟩, ⟨?_, ?_, ?_⟩⟩ <;> decide
theorem witness_macroLeavesBusClosed :
    isMacro (.scmd 0xAE) ∧ stateRefuses (.scmd 0xAE) up = false ∧ isMacro (.wchar 0x41) ∧
      stateRefuses (.wchar 0x41) readied = false ∧ up.busy = false ∧ up.sclOe = false ∧ up.sdaOe = false :=
  ⟨.inl ⟨_, rfl⟩, by decide, .inr (.inr (.inr ⟨_, rfl⟩)), by decide, rfl, rfl, rfl⟩
theorem witness_initRom :
    par.initClkdiv = 0x80 ∧ par.initOffset = 0x00 ∧ par.initStartline = 0 ∧ par.initContrast = 0xCF ∧
      par.initPrecharge = 0xF1 ∧ par.initVcomh = 0x40 := by decide

/-- It serves InitSendsTheSequence and InitSucceedsOrReports. -/
theorem witness_init : up.en = true ∧ up.opn = false ∧ up.ready = false ∧ GoodDraws 23 69 23 up :=
  ⟨rfl, rfl, rfl, by decide, by decide, by decide⟩
theorem witness_initStopsAtFirstFailure :
    let s : State := { up with starts := List.replicate 22 .free ++ [.expired] }
    22 < 23 ∧ s.en = true ∧ s.opn = false ∧ s.ready = false ∧ GoodDraws 22 (3 * 22) 22 s ∧ s.starts[22]? = some .expired ∧
      { up with starts := [.expired] }.starts[0]? = some .expired ∧ GoodDraws 0 (3 * 0) 0 { up with starts := [.expired] } := by
  refine ⟨by decide, rfl, rfl, rfl, ⟨?_, ?_, ?_⟩, ?_, rfl, ⟨?_, ?_, ?_⟩⟩ <;> decide

/-- The last byte and the stop of step 22, and the first byte of step 0. -/
theorem witness_initStopsAtFirstFailure_bytes :
    up.en = true ∧ up.opn = false ∧ up.ready = false ∧ up.par.nackPolicy = .report ∧
      NextDraws (List.replicate (22 + 1) .free) (List.replicate (3 * 22 + 2) .acked ++ [.nacked])
        (List.replicate 22 .done ++ [.done]) { up with bytes := List.replicate 68 .acked ++ [.nacked] } ∧
      NextDraws (List.replicate (0 + 1) .free) (List.replicate (3 * 0 + 0) .acked ++ [.nacked])
        (List.replicate 0 .done ++ [.expired]) { up with bytes := [.nacked], stops := [.expired] } ∧
      NextDraws (List.replicate (22 + 1) .free) (List.replicate (3 * 22 + 2) .acked ++ [.expired]) (List.replicate 22 .done)
        { up with bytes := List.replicate 68 .acked ++ [.expired] } ∧
      NextDraws (List.replicate (22 + 1) .free) (List.replicate (3 * 22 + 3) .acked) (List.replicate 22 .done ++ [.expired])
        { up with stops := List.replicate 22 .done ++ [.expired] } := by
  refine ⟨rfl, rfl, rfl, rfl, ⟨?_, ?_, ?_⟩, ⟨?_, ?_, ?_⟩, ⟨?_, ?_, ?_⟩, ⟨?_, ?_, ?_⟩⟩ <;> decide
theorem witness_setcur : readied.en = true ∧ readied.opn = false ∧ readied.ready = true ∧ GoodDraws 3 9 3 readied :=
  ⟨rfl, rfl, rfl, by decide, by decide, by decide⟩
theorem witness_glyphLookup :
    (0x20 : Byte) = 0x20 ∧ 0x30 ≤ (0x39 : Byte).toNat ∧ (0x39 : Byte).toNat ≤ 0x39 ∧
      ¬ ((0x3A : Byte) = 0x20 ∨ (0x3A : Byte) = 0x21 ∨ (0x30 ≤ (0x3A : Byte).toNat ∧ (0x3A : Byte).toNat ≤ 0x39)) := by decide

/-- It serves WcharSendsOneCell and CursorThenCharacter. -/
theorem witness_wchar :
    readied.en = true ∧ readied.opn = false ∧ readied.ready = true ∧
      glyph readied.par.toParams 0x30 = some [0x7C, 0x12, 0x11, 0x12, 0x7C] ∧ GoodDraws 1 8 1 readied ∧ GoodDraws 4 17 4 readied := by
  refine ⟨rfl, rfl, rfl, by decide, ⟨?_, ?_, ?_⟩, ⟨?_, ?_, ?_⟩⟩ <;> decide
theorem witness_unsupportedGlyph :
    (∀ k ∈ ([0x1F, 0x22, 0x2F, 0x3A, 0xFF] : List Byte),
      ¬ (k = 0x20 ∨ k = 0x21 ∨ (0x30 ≤ k.toNat ∧ k.toNat ≤ 0x39))) ∧ readied.en = true ∧ readied.opn = false ∧ readied.ready = true ∧ up.ready = false := by
  decide
theorem witness_string :
    readied.en = true ∧ readied.opn = false ∧ readied.ready = true ∧
      (∀ k ∈ ([0x20, 0x39] : List Byte), (glyph readied.par.toParams k).isSome = true) ∧ GoodDraws 2 (8 * 2) 2 readied := by
  refine ⟨rfl, rfl, rfl, by decide, ⟨?_, ?_, ?_⟩⟩ <;> decide

/-- It serves PossibleResultCodes, StickyFlagsBlockNothing and ScratchRegistersNotRead. -/
theorem witness_hostCommand :
    isHostCommand (.wchar 0x30) ∧ (nextOf (exec (.wchar 0x30) readied)).isSome = true ∧
      immediate (.wchar 0x30) readied = false ∧ immediate (.wchar 0x41) readied = true ∧
      parIgnore.nackPolicy = .ignore := ⟨⟨_, rfl⟩, by decide, by decide, by decide, rfl⟩
theorem witness_possibleResultCodes :
    (nextOf (exec .nop up)).isSome = true ∧ (nextOf (exec .clrerr up)).isSome = true ∧ (nextOf (exec .binit up)).isSome = true ∧
      (nextOf (exec (.start 0 true) up)).isSome = true ∧ (nextOf (exec (.wbyte 0) up)).isSome = true ∧
      (nextOf (exec .stop up)).isSome = true ∧ (nextOf (exec (.scmd 0) up)).isSome = true ∧
      (nextOf (exec .init up)).isSome = true ∧ (nextOf (exec (.setcur 0 0) up)).isSome = true ∧
      (nextOf (exec (.wchar 0) up)).isSome = true ∧ (nextOf (step (offered 0xA000 up))).isSome = true := by decide
theorem witness_sequencerRefines :
    let s : State := { up with cmd := 0x6000, grain := .primitive }
    decode 0x6000 = .ok .init ∧ s.cmd = 0x6000 ∧ s.grain = .primitive ∧ s.port = [] ∧ s.busy = false ∧
      immediate .init s = false := by
  refine ⟨by decide, rfl, rfl, rfl, rfl, by decide⟩

/-- A byte that returns Ok: acknowledged, or not under Ignore. -/
theorem goesOn_acked {s : State} {o : ByteOutcome} (h : o = .acked) : goesOn s o true := .inl ⟨h, rfl⟩
theorem goesOn_ignored {s : State} {o : ByteOutcome} (h : o = .nacked) (p : s.par.nackPolicy = .ignore) : goesOn s o false :=
  .inr ⟨h, p, rfl⟩

/-- A host primitive runs whose word is `w`. -/
def hostRunning (w : Word16) : State := { running .prim .start with cmd := w }

/-- In a macro command, and in a host START. -/
theorem witness_addressByte :
    let s : State := { running .sCur .start with opn := false }
    atPos .addr s = true ∧ s.seq ≠ .prim ∧ (drawStart s).1 = .free ∧ goesOn s (drawByte (drawStart s).2).1 true ∧
      atPos .addr (hostRunning 0x2078) = true ∧ (hostRunning 0x2078).seq = .prim ∧
      goesOn (hostRunning 0x2078) (drawByte (drawStart (hostRunning 0x2078)).2).1 true :=
  ⟨by decide, by decide, by decide, goesOn_acked (by decide), by decide, rfl, goesOn_acked (by decide)⟩

/-- The control bytes, acknowledged and not; it serves DisplayOpcodeSent and DataByteSent too where the byte is not. -/
theorem witness_controlByte :
    let n : State := { running .sCmd .ctrl with bytes := [.nacked], par := parIgnore }
    atPos .ctrlCmd (running .sCmd .ctrl) = true ∧ goesOn (running .sCmd .ctrl) (drawByte (running .sCmd .ctrl)).1 true ∧
      atPos .ctrlData (running .sChr .ctrl) = true ∧ goesOn (running .sChr .ctrl) (drawByte (running .sChr .ctrl)).1 true ∧
      atPos .ctrlCmd n = true ∧ goesOn n (drawByte n).1 false :=
  ⟨by decide, goesOn_acked (by decide), by decide, goesOn_acked (by decide), by decide, goesOn_ignored (by decide) rfl⟩
theorem witness_displayOpcode :
    encode .dDisplayOn = .wire8 .cmdPayload 0xAF ∧ encode (.dColHigh 7) = .wire8 .cmdPayload 0x17 ∧
      atPos .cmdPayload (running .sCmd .payload) = true ∧
      goesOn (running .sCmd .payload) (drawByte (running .sCmd .payload)).1 true :=
  ⟨by decide, by decide, by decide, goesOn_acked (by decide)⟩

/-- The first and the last data byte of a WCHAR, and a host WBYTE. -/
theorem witness_dataByte :
    let s := running .sChr .payload
    s.seq = .sChr ∧ atPos .dataPayload s = true ∧ s.dix.toNat ≤ 5 ∧ goesOn s (drawByte s).1 true ∧ s.dix.toNat < 5 ∧
      atPos .dataPayload { s with dix := 5 } = true ∧ { s with dix := 5 }.dix.toNat = 5 ∧
      atPos .dataPayload (hostRunning 0x3055) = true ∧ (hostRunning 0x3055).seq = .prim ∧
      goesOn (hostRunning 0x3055) (drawByte (hostRunning 0x3055)).1 true :=
  ⟨rfl, by decide, by decide, goesOn_acked (by decide), by decide, by decide, rfl, by decide, rfl, goesOn_acked (by decide)⟩

/-- A later byte of a macro command, of INIT, and of a host primitive; each failure. -/
theorem witness_wireByteFailure :
    encode .wCtrlCmd = .wire8 .ctrlCmd 0x00 ∧ (WirePos.ctrlCmd = .addr → (drawStart (running .sCmd .ctrl)).1 = .free) ∧
      atPos .ctrlCmd (running .sCmd .ctrl) = true ∧ (running .sCmd .ctrl).seq ≠ .prim ∧
      wireDraw .ctrlCmd { running .sCmd .ctrl with bytes := [.nacked] } = .nacked ∧
      (running .sCmd .ctrl).par.nackPolicy = .report ∧
      wireDraw .ctrlCmd { running .sCmd .ctrl with bytes := [.expired] } = .expired ∧
      atPos .ctrlCmd (running .sInit .ctrl) = true ∧ (running .sInit .ctrl).seq = .sInit ∧
      encode (.wDataByte 0x55) = .wire8 .dataPayload 0x55 ∧ atPos .dataPayload (hostRunning 0x3055) = true ∧
      (hostRunning 0x3055).seq = .prim := by decide

/-- The address byte: of INIT and of a host START; each failure, the start's own among them. -/
theorem witness_wireByteFailure_address :
    encode (.wAddrWrite 0x3C) = .wire8 .addr 0x78 ∧ atPos .addr (running .sInit .start) = true ∧
      (drawStart (running .sInit .start)).1 = .free ∧ atPos .addr (hostRunning 0x2078) = true ∧
      wireDraw .addr { running .sInit .start with bytes := [.nacked] } = .nacked ∧
      wireDraw .addr { running .sInit .start with bytes := [.expired] } = .expired ∧
      (drawStart { running .sInit .start with starts := [.expired] }).1 = .expired ∧
      (running .sInit .start).seq = .sInit := by decide
theorem witness_outOfPosition : encode .dDisplayOn = .wire8 .cmdPayload 0xAF ∧ atPos .cmdPayload up = false := by decide

/-- A command at cycle grain whose line engine stands at item `j` of a program. -/
def clocking (g : Prog) (j : Nat) : State :=
  { running .sCmd .start with grain := .cycle, php := some ⟨g, j⟩, pulls := [⟨true, false⟩] }

/-- SCL is held low: one cycle before the limit and at the limit. -/
theorem witness_waitCounts :
    let s : State := clocking (.startIdle 0x78) 0
    s.grain = .cycle ∧ s.busy = true ∧ (portHead s).rst = false ∧ (portHead s).cmdValid = false ∧ s.php = some ⟨.startIdle 0x78, 0⟩ ∧
      (items (.startIdle 0x78))[0]? = some (.wait false false .both1) ∧
      holds .both1 (sclLine s (pullHead s)) (sdaLine s (pullHead s)) = false ∧ s.tmo + 1 < s.par.timeoutLimit ∧
      { s with tmo := 4 }.tmo + 1 = s.par.timeoutLimit ∧ s.seq = .sCmd := by decide
theorem witness_driveCountsDown :
    let s : State := { clocking (.byte 0xA5) 0 with qcnt := 2 }
    s.grain = .cycle ∧ s.busy = true ∧ (portHead s).rst = false ∧ (portHead s).cmdValid = false ∧ s.php = some ⟨.byte 0xA5, 0⟩ ∧
      (items (.byte 0xA5))[0]? = some (.drive true false 1) ∧ 1 < s.qcnt.toNat := by decide
/-- Each of the three programs at its acknowledge cell. -/
theorem witness_acknowledgeSampled :
    ∀ x ∈ [(Prog.byte 0xA5, 35), (.startIdle 0x78, 39), (.restart 0x78, 40)],
      let s : State := { clocking x.1 x.2 with qcnt := 1 }
      s.grain = .cycle ∧ s.busy = true ∧ (portHead s).rst = false ∧ (portHead s).cmdValid = false ∧
        s.php = some ⟨x.1, x.2⟩ ∧ s.qcnt.toNat ≤ 1 ∧ (items x.1)[x.2]? = some (.drive false false 1) ∧
        (items x.1)[x.2 + 1]? = some .smp := by decide

/-- `q = 1`. -/
theorem witness_hostByte :
    let s : State :=
      { opened with
        grain := .cycle, baud := 1, port := [presents (cmdWord 0x3 0 0xA5)], pulls := List.replicate 46 ⟨false, false⟩ }
    s.grain = .cycle ∧ s.busy = false ∧ s.en = true ∧ s.opn = true ∧ 0 < s.baud.toNat ∧
      s.port = [presents (cmdWord 0x3 0 0xA5)] ∧
      s.pulls = List.replicate (36 * s.baud.toNat + 10) ⟨false, false⟩ ++ [] := by decide
theorem witness_observer : 0 < 1 := by decide

/-- The last cell of a row, and one before it. -/
theorem witness_displayHoldsTheCell :
    (122 : BitVec 7).toNat + 6 ≤ 128 ∧ (122 : BitVec 7).toNat + 6 = 128 ∧ (121 : BitVec 7).toNat + 6 < 128 := by decide
theorem test_display_cell : -- program P2
    let d := displayAfter .unknown ((cursorBytes 3 37).flatMap commandEvents ++ dataEvents (cellBytes par.toParams 16))
    d.mem = [(421, 0x7C), (422, 0x12), (423, 0x11), (424, 0x12), (425, 0x7C), (426, 0x00)] ∧ d.column = some 43 := by decide
theorem test_display_after_parameter_opcode : -- R56 (a): after SETCUR the pointers are the row and the column, whatever came before
    let d := displayAfter .unknown (commandEvents 0x81 ++ (cursorBytes 3 37).flatMap commandEvents)
    d.page = some 3 ∧ d.column = some 37 := by decide
theorem test_display_receiver_unknown : -- U8, R219: after a T the receiver may be anywhere
    (displayAfter .unknown (commandEvents 0xAE ++ [.start, .timeout])).heard = false := by decide
theorem test_display_init_keeps_memory : -- R214: after INIT the display memory holds whatever it held
    (displayAfter { Display.unknown with mem := [(421, 0x7C)] } ((irom par.toParams).flatMap commandEvents)).mem =
      [(421, 0x7C)] := by decide
theorem test_display_column_127 : -- R56 (b), N14, U3: the byte at column 127 is stored, and the pointers are then unspecified
    let d := displayAfter .unknown ((cursorBytes 3 127).flatMap commandEvents ++ dataEvents [0x7C])
    d.mem = [(511, 0x7C)] ∧ d.page = none ∧ d.column = none := by decide
theorem test_display_other_control_byte : -- R33, R55: no data transaction, so the memory is not reached
    (displayAfter { Display.unknown with mem := [(421, 0x7C)] }
      [.start, .byte 0x78 true, .byte 0xC0 false, .byte 0x55 true, .stop]).mem = [(421, 0x7C)] := by decide

end Sys2Proof.Tests
end

section
/-! Proofs of the statements about the state. First the inversion lemmas that every one of them uses: what the decoder
answers, what a host command is, what a primitive, the move of the pointer and a clock edge can do. -/

namespace Sys2Proof.Machine

/-! ### What the decoder answers (R72, R74) -/

theorem bare_ok {w : Word16} {i j : Instr} (h : bare w i = .ok j) : j = i := by
  unfold bare at h; split at h <;> simp_all

theorem withLo_ok {w : Word16} {f : Byte → Instr} {j : Instr} (h : withLo w f = .ok j) : j = f (loField w) := by
  unfold withLo at h; split at h <;> simp_all

theorem addrByte_false_toNat (a : BitVec 7) : (addrByte a false).toNat = 2 * a.toNat := by
  have e : (addrByte a false).toNat = _ := BitVec.toNat_append a (BitVec.ofBool false)
  simpa [Nat.shiftLeft_eq, Nat.mul_comm] using e

/-- The low byte of a word whose bit 0 is clear is the address byte of its address field. -/
theorem loField_eq_addrByte {w : Word16} (h : w.getLsbD 0 = false) : loField w = addrByte (addrField w) false := by
  have even : w.toNat % 2 = 0 := by simpa [BitVec.getLsbD] using h
  apply BitVec.eq_of_toNat_eq
  rw [addrByte_false_toNat]
  simp [loField, addrField, Nat.shiftRight_eq_div_pow]
  omega

theorem decodeStart_ok {w : Word16} {j : Instr} (h : decodeStart w = .ok j) :
    j = .start (addrField w) false ∧ loField w = addrByte (addrField w) false := by
  unfold decodeStart at h
  split at h
  · split at h
    · simp at h
    · next h0 => exact ⟨by simpa using h.symm, loField_eq_addrByte (by simpa using h0)⟩
  · simp at h

theorem decodeSetcur_ok {w : Word16} {j : Instr} (h : decodeSetcur w = .ok j) :
    j = .setcur (pageField w) (colField w) := by
  unfold decodeSetcur at h; split at h <;> simp_all

/-- What a legal word decodes to, with the fields of the word that its operands are (R72). -/
inductive Decoded (w : Word16) : Instr → Prop
  | nop : Decoded w .nop
  | binit : Decoded w .binit
  | start (op : (opField w).toNat = 2) (lo : loField w = addrByte (addrField w) false) :
      Decoded w (.start (addrField w) false)
  | wbyte (op : (opField w).toNat = 3) : Decoded w (.wbyte (loField w))
  | stop (op : (opField w).toNat = 4) : Decoded w .stop
  | scmd : Decoded w (.scmd (loField w))
  | init : Decoded w .init
  | setcur : Decoded w (.setcur (pageField w) (colField w))
  | wchar : Decoded w (.wchar (loField w))
  | clrerr : Decoded w .clrerr

theorem decode_ok {w : Word16} {i : Instr} (h : decode w = .ok i) : Decoded w i := by
  unfold decode at h
  split at h
  · rw [bare_ok h]; exact .nop
  · rw [bare_ok h]; exact .binit
  · next op => obtain ⟨rfl, lo⟩ := decodeStart_ok h; exact .start op lo
  · next op => rw [withLo_ok h]; exact .wbyte op
  · next op => rw [bare_ok h]; exact .stop op
  · rw [withLo_ok h]; exact .scmd
  · rw [bare_ok h]; exact .init
  · rw [decodeSetcur_ok h]; exact .setcur
  · rw [withLo_ok h]; exact .wchar
  · rw [bare_ok h]; exact .clrerr
  · simp at h

theorem Decoded.isHostCommand {w : Word16} {i : Instr} (h : Decoded w i) : isHostCommand i := by
  cases h <;> exact ⟨_, rfl⟩

/-! ### Host commands: immediate ones, and bus commands as a body and an end (R172) -/

/-- What a bus command does before its end: its primitive, procedure or loop, from BUSY and SEQ set (R93 to R96, R130,
R140, R160, R161). -/
def body (i : Instr) (s : State) : Result × State :=
  match i with
  | .start a r => primStart (addrByte a r) (runs .prim s)
  | .wbyte v => xmit v (runs .prim s)
  | .stop => primStop (runs .prim s)
  | .scmd v => sendCommand v (runs .sCmd s)
  | .init => sendCommands (irom s.par.toParams) (clearIpc (runs .sInit s))
  | .setcur p c => sendCommands (cursorBytes p c) (clearIpc (runs .sCur s))
  | .wchar k =>
    sendDataBytes (cellBytes s.par.toParams ((glyphIndex k).getD 0)) (loadGidx ((glyphIndex k).getD 0) (runs .sChr s))
  | _ => (.ok, s)

/-- The end of a bus command: INIT has its own (R140), the others end with the code of their result. -/
def finish (i : Instr) (x : Result × State) : State := if i = .init then endInit x else endWithResult x

/-- What a host command that is not refused does. -/
def effect (i : Instr) (s : State) : State :=
  match i with
  | .nop => setLast .ok s
  | .clrerr => setLast .ok (clearSticky s)
  | .binit => setLast .ok { s with baud := qdivWord s.par.toParams, en := true }
  | .wchar k =>
    match glyphIndex k with
    | none => setLast .unsupportedGlyph (setSticky .unsupportedGlyph s)
    | some _ => finish i (body i s)
  | _ => finish i (body i s)

/-- A host command is refused, or has its effect (R173, R174). -/
theorem exec_effect {i : Instr} (hi : isHostCommand i) (s : State) : exec i s = unlessRefused i s (effect i s) := by
  obtain ⟨w, hw⟩ := hi
  cases i with
  | wchar k => cases hg : glyphIndex k <;> simp [exec, execWchar, renderChar, effect, finish, body, hg]
  | nop | binit | start a r | wbyte v | stop | scmd v | init | setcur p c | clrerr => rfl
  | _ => simp [encode] at hw

/-- The bus commands that are not refused, and whose character is supported. -/
inductive BusCommand (s : State) : Instr → Prop
  | start (a : BitVec 7) (en : s.en = true) : BusCommand s (.start a false)
  | wbyte (v : Byte) (en : s.en = true) (opn : s.opn = true) : BusCommand s (.wbyte v)
  | stop (en : s.en = true) (opn : s.opn = true) : BusCommand s .stop
  | scmd (v : Byte) (en : s.en = true) : BusCommand s (.scmd v)
  | init (en : s.en = true) : BusCommand s .init
  | setcur (p : BitVec 3) (c : BitVec 7) (en : s.en = true) : BusCommand s (.setcur p c)
  | wchar (k : Byte) (idx : Nat) (en : s.en = true) (glyph : glyphIndex k = some idx) : BusCommand s (.wchar k)

theorem busCommand_of_not_immediate {i : Instr} {s : State} (h : immediate i s = false) : BusCommand s i := by
  obtain ⟨hr, hi⟩ := Bool.or_eq_false_iff.mp h
  cases i with
  | start a r =>
    obtain ⟨rfl, en⟩ : r = false ∧ s.en = true := by simpa [stateRefuses] using hr
    exact .start a en
  | wbyte v =>
    obtain ⟨en, opn⟩ : s.en = true ∧ s.opn = true := by simpa [stateRefuses] using hr
    exact .wbyte v en opn
  | stop =>
    obtain ⟨en, opn⟩ : s.en = true ∧ s.opn = true := by simpa [stateRefuses] using hr
    exact .stop en opn
  | scmd v => exact .scmd v (by simp [stateRefuses] at hr; exact hr.1)
  | init => exact .init (by simp [stateRefuses] at hr; exact hr.1.1)
  | setcur p c => exact .setcur p c (by simp [stateRefuses] at hr; exact hr.1.1)
  | wchar k =>
    obtain ⟨idx, glyph⟩ : ∃ idx, glyphIndex k = some idx := Option.isSome_iff_exists.mp (by simpa using hi)
    exact .wchar k idx (by simp [stateRefuses] at hr; exact hr.1.1) glyph
  | _ => simp at hi

theorem BusCommand.en {i : Instr} {s : State} (h : BusCommand s i) : s.en = true := by cases h <;> assumption

theorem BusCommand.isHostCommand {i : Instr} {s : State} (h : BusCommand s i) : isHostCommand i := by
  cases h <;> exact ⟨_, rfl⟩

theorem BusCommand.effect {i : Instr} {s : State} (h : BusCommand s i) : effect i s = finish i (body i s) := by
  cases h with
  | wchar k idx en glyph => simp only [Machine.effect, glyph]
  | _ => rfl

/-- A bus command is its body and its end. -/
theorem exec_of_not_immediate {i : Instr} {s : State} (h : immediate i s = false) :
    exec i s = .next (finish i (body i s)) := by
  have hr := (Bool.or_eq_false_iff.mp h).1
  have hb := busCommand_of_not_immediate h
  rw [exec_effect hb.isHostCommand, unlessRefused_runs hr, hb.effect]

/-- What a command that completes at the accepting edge does (R92, R170, R171, R173, R184). -/
inductive Immediate (s : State) : Instr → State → Prop
  | refused (i : Instr) : Immediate s i (refuse s)
  | nop : Immediate s .nop (setLast .ok s)
  | clrerr : Immediate s .clrerr (setLast .ok (clearSticky s))
  | binit (en : s.en = false) : Immediate s .binit (setLast .ok { s with baud := qdivWord s.par.toParams, en := true })
  | wchar (k : Byte) : Immediate s (.wchar k) (setLast .unsupportedGlyph (setSticky .unsupportedGlyph s))

theorem exec_of_immediate {i : Instr} {s t : State} (hi : isHostCommand i) (h : immediate i s = true)
    (e : exec i s = .next t) : Immediate s i t := by
  rw [exec_effect hi] at e
  cases hr : stateRefuses i s with
  | true =>
    rw [unlessRefused_refused hr] at e
    cases e
    exact .refused i
  | false =>
    obtain rfl : effect i s = t := by simpa [unlessRefused_runs hr] using e
    obtain ⟨w, hw⟩ := hi
    cases i with
    | nop => exact .nop
    | clrerr => exact .clrerr
    | binit => exact .binit hr
    | wchar k =>
      have none : glyphIndex k = none := by simpa [immediate, hr] using h
      simp only [effect, none]
      exact .wchar k
    | start | wbyte | stop | scmd | init | setcur => simp [immediate, hr] at h
    | _ => simp [encode] at hw

/-! ### One primitive at the sequencer pointer (R31, R74) -/

theorem encode_of_decodeOpcode : ∀ b : Byte,
    decodeOpcode b = none ∨ (decodeOpcode b).map encode = some (.wire8 .cmdPayload b) := by decide

theorem addrByte_of_even {b : Byte} (h : b.getLsbD 0 = false) : addrByte (b.extractLsb' 1 7) false = b := by
  have even : b.toNat % 2 = 0 := by simpa [BitVec.getLsbD] using h
  apply BitVec.eq_of_toNat_eq
  rw [addrByte_false_toNat]
  simp [Nat.shiftRight_eq_div_pow]
  omega

/-- The row that a byte is at its position has that byte and position as its code (R74 to R79). -/
theorem encode_of_decodeWire {pos : WirePos} {b : Byte} {i : Instr} (h : decodeWire pos b = some i) :
    encode i = .wire8 pos b := by
  cases pos with
  | addr =>
    obtain ⟨h0, rfl⟩ : b.getLsbD 0 = false ∧ .wAddrWrite (b.extractLsb' 1 7) = i := by
      simpa [decodeWire] using h
    simp [encode, addrByte_of_even h0]
  | ctrlCmd => obtain ⟨rfl, rfl⟩ : b = ctrlCmdByte ∧ .wCtrlCmd = i := by simpa [decodeWire] using h
               rfl
  | ctrlData => obtain ⟨rfl, rfl⟩ : b = ctrlDataByte ∧ .wCtrlData = i := by simpa [decodeWire] using h
                rfl
  | cmdPayload =>
    obtain e | e := encode_of_decodeOpcode b
    · simp [decodeWire, e] at h
    · simpa [show decodeOpcode b = some i from h] using e
  | param => simp [decodeWire] at h
  | dataPayload => cases h; rfl

/-- A row for the first byte of a transaction sends its byte as an address. -/
theorem exec_addr {i : Instr} {b : Byte} (s : State) (h : encode i = .wire8 .addr b) :
    ∃ name, exec i s = sendAddress name b s := by
  cases i <;> simp only [encode, Code.wire8.injEq, reduceCtorEq, false_and] at h
  obtain ⟨-, rfl⟩ := h
  exact ⟨_, rfl⟩

/-- A primitive at the pointer that names a start, whether its byte is a row or not (R93; log entry 12). -/
theorem primitiveStep_start {s : State} {ab : Byte} (h : named s = .start ab) :
    ∃ name, primitiveStep s = sendAddress name ab s := by
  simp only [primitiveStep, h]
  split
  · next e => exact exec_addr s (encode_of_decodeWire e)
  · exact ⟨_, rfl⟩

/-- A primitive at the pointer that names a byte, whether it is a row or not (R97; log entry 12). -/
theorem primitiveStep_byte {s : State} {pos : WirePos} {v : Byte} (h : named s = .byte pos v) (hp : pos ≠ .addr) :
    ∃ name, primitiveStep s = sendAt name pos v s := by
  simp only [primitiveStep, h]
  split
  · next e => exact exec_wire _ pos v s (encode_of_decodeWire e) hp
  · exact ⟨_, rfl⟩

theorem primitiveStep_stop {s : State} (h : named s = .stop) : primitiveStep s = sendStop s := by
  simp only [primitiveStep, h]

theorem dataByteAt_ne_addr (s : State) (v : Byte) : dataByteAt s ≠ .byte .addr v := by
  obtain ⟨w, e⟩ | ⟨a, e⟩ := dataByteAt_cases s <;> simp [e]

theorem channelPrimitive_ne_addr (s : State) (v : Byte) : channelPrimitive s ≠ .byte .addr v := by
  unfold channelPrimitive
  split
  · simp
  · split <;> simp
  · split
    · exact dataByteAt_ne_addr s v
    · split <;> simp
  · simp

theorem hostPrimitive_ne_addr (s : State) (v : Byte) : hostPrimitive s ≠ .byte .addr v := by
  unfold hostPrimitive; split <;> simp

/-- The first byte of a transaction is named with its start, never as a byte (R93). -/
theorem named_byte_pos {s : State} {pos : WirePos} {v : Byte} (h : named s = .byte pos v) : pos ≠ .addr := by
  rintro rfl
  unfold named at h
  split at h
  · simp at h
  · exact hostPrimitive_ne_addr s v h
  all_goals exact channelPrimitive_ne_addr s v h

/-- The primitive that the pointer names, run to its end by the environment's answer. -/
inductive Primitive (s : State) : Result × State → Prop
  | start (ab : Byte) (name : named s = .start ab) : Primitive s (primStart ab s)
  | byte (pos : WirePos) (v : Byte) (name : named s = .byte pos v) (opn : s.opn = true) : Primitive s (xmit v s)
  | stop (name : named s = .stop) : Primitive s (primStop s)

/-- A step at primitive grain is one primitive and the move of the pointer by its result (R31, R178). -/
theorem primitiveStep_cases {s t : State} (h : primitiveStep s = .next t) :
    ∃ x, Primitive s x ∧ t = movePointer x := by
  cases hn : named s with
  | start ab =>
    obtain ⟨name, e⟩ := primitiveStep_start hn
    simp only [e, sendAddress] at h
    split at h
    · exact ⟨_, .start ab hn, by simpa using h.symm⟩
    · simp at h
  | byte pos v =>
    have hp := named_byte_pos hn
    obtain ⟨name, e⟩ := primitiveStep_byte hn hp
    simp only [e, sendAt] at h
    split at h
    · next ha =>
      obtain ⟨-, -, ho, -⟩ := (atPos_iff pos s).mp ha
      exact ⟨_, .byte pos v hn (ho.resolve_right hp), by simpa using h.symm⟩
    · simp at h
  | stop =>
    simp only [primitiveStep_stop hn, sendStop] at h
    split at h
    · exact ⟨_, .stop hn, by simpa using h.symm⟩
    · simp at h
  | noRom a => simp [primitiveStep, hn] at h
  | nothing => simp [primitiveStep, hn] at h

theorem Primitive.frame {s : State} {x : Result × State} (h : Primitive s x) : ChannelFrame s x.2 := by
  cases h with
  | start ab => exact primStart_frame ab s
  | byte pos v => exact xmit_frame v s
  | stop => exact primStop_frame s

/-! ### The move of the sequencer pointer (R31, R178) -/

/-- How a bus command ends: with a code, or as INIT does, whose success sets READY (R140, R186). `init` says that it is one. -/
inductive CommandEnd (init : Prop) (s : State) : State → Prop
  | code (c : ResultCode) : CommandEnd init s (endCommand c s)
  | initFails : CommandEnd init s (fail .initFailure s)
  | initSucceeds (h : init) : CommandEnd init s (endCommand .ok (setReady s))

/-- A bus command's body is followed by such an end. -/
theorem finish_ends (i : Instr) (x : Result × State) : CommandEnd (i = .init) x.2 (finish i x) := by
  obtain ⟨r, s⟩ := x
  unfold finish
  split
  · next hi =>
    cases r
    · exact .initSucceeds hi
    · exact .initFails
    · exact .initFails
  · exact .code _

/-- What a move of the pointer does. -/
inductive Moved (s : State) : State → Prop
  | stays : Moved s s
  | channel (c : Chan) : Moved s (atChan c s)
  | data (c : Chan) (j : Nat) (range : j ≤ 5) : Moved s (atChan c (loadDix j s))
  | command (b : Byte) (range : s.ipc.toNat < 22) : Moved s (nextCommand b s)
  | ends {t : State} (how : CommandEnd (s.seq = .sInit) s t) : Moved s t

theorem procFailed_moved (r : Result) (s : State) : Moved s (procFailed r s) := by
  unfold procFailed; split
  · exact .ends .initFails
  · exact .ends (.code _)

theorem procOk_moved (s : State) : Moved s (procOk s) := by
  unfold procOk
  split
  · next q =>
    split
    · next h => exact .command _ h
    · exact .ends (.initSucceeds q)
  · split
    · next h => exact .command _ (by omega)
    · exact .ends (.code _)
  all_goals exact .ends (.code _)

theorem nextPrimitive_moved (s : State) : Moved s (nextPrimitive s) := by
  unfold nextPrimitive
  split
  · exact .channel _
  · split
    · exact .data _ 0 (by omega)
    · exact .channel _
  · split
    · next h => exact .data s.cch (s.dix.toNat + 1) (by simpa [glyphW] using h.2)
    · exact .channel _
  · exact procOk_moved s

theorem channelDone_moved (r : Result) (s : State) : Moved s (channelDone r s) := by
  unfold channelDone
  split
  · split
    · exact procFailed_moved _ s
    · cases r
      · exact procOk_moved s
      · exact procFailed_moved _ s
      · exact procFailed_moved _ s
  · cases r
    · exact nextPrimitive_moved s
    · exact procFailed_moved _ s
    · exact .channel _

theorem movePointer_moved (x : Result × State) : Moved x.2 (movePointer x) := by
  unfold movePointer
  split
  · exact .stays
  · exact .ends (.code _)
  all_goals exact channelDone_moved _ _

/-! ### One clock edge of a running command (R113, R119) -/

/-- The registers and the outputs of the bus engine are no part of the frame. -/
theorem engine_frame (s : State) (php : Option Phase) (c d : Bool) (q : BitVec 17) (n : Nat) (v : Byte) (b : BitVec 4) :
    ChannelFrame s { s with php := php, sclOe := c, sdaOe := d, qcnt := q, tmo := n, shr := v, bitc := b } :=
  ⟨⟨rfl, rfl, rfl, rfl, rfl, rfl, rfl, rfl, rfl, rfl⟩, rfl, rfl, rfl, rfl, rfl, rfl, rfl, rfl, ⟨[], by simp⟩, id, id⟩

theorem markCell_frame (g : Prog) (j : Nat) (s : State) : ChannelFrame s (markCell g j s) := by
  unfold markCell
  split
  · exact .refl s
  · split
    · exact engine_frame s s.php s.sclOe s.sdaOe s.qcnt s.tmo _ _
    · split
      · exact engine_frame s s.php s.sclOe s.sdaOe s.qcnt s.tmo _ _
      · exact .refl s

theorem closeBus_frame (s : State) : ChannelFrame s (closeBus s) :=
  ⟨⟨rfl, rfl, rfl, rfl, rfl, rfl, rfl, rfl, rfl, rfl⟩, rfl, rfl, rfl, rfl, rfl, rfl, rfl, rfl, ⟨[], by simp⟩, id, id⟩

theorem enter_frame (sda : Bool) (g : Prog) (j : Nat) (rest : List Item) (s : State) :
    ChannelFrame s (enter sda g j rest s).1 := by
  induction rest generalizing j s with
  | nil => exact .refl s
  | cons item rest ih =>
    cases item with
    | drive c d n => exact (markCell_frame g j s).trans (engine_frame _ _ _ _ _ _ _ _)
    | wait c d cond => exact engine_frame s _ _ _ _ _ s.shr s.bitc
    | smp => exact (setAckl_frame _ s).trans (ih _ _)
    | evStart => exact (startDone_frame s).trans (ih _ _)
    | evByte v => exact (logEvent_frame _ s).trans (ih _ _)
    | evStop => exact ((closeBus_frame s).trans (logEvent_frame _ _)).trans (ih _ _)

theorem restLines_frame (s : State) : ChannelFrame s (restLines s) := by
  unfold restLines; split
  · exact toHold_frame s
  · exact engine_frame s s.php false false s.qcnt s.tmo s.shr s.bitc

/-- What one edge does to the running program before the pointer moves: it enters an item, counts in a phase, samples the
result of a program that has ended, or gives up a wait. -/
inductive LineStep (s : State) : State → Prop
  | enters (sda : Bool) (g : Prog) (j : Nat) (rest : List Item) (part : rest <:+ items g) :
      LineStep s (enter sda g j rest s).1
  | counts (running : 1 < s.qcnt.toNat) : LineStep s { s with qcnt := s.qcnt - 1 }
  | waits (below : s.tmo + 1 < s.par.timeoutLimit) : LineStep s { s with tmo := s.tmo + 1 }
  | ended (sda : Bool) (g : Prog) (j : Nat) (rest : List Item) (part : rest <:+ items g) :
      LineStep s (progResult g (enter sda g j rest s).1).2
  | expired : LineStep s (timeoutAbort s)

theorem loadProgram_cases {s t : State} (h : loadProgram s = .next t) :
    ∃ g, t = (enter false g 0 (items g) s).1 := by
  unfold loadProgram at h
  split at h
  · simp at h
  · simp at h
  · split at h
    · next g _ => exact ⟨g, by simpa using h.symm⟩
    · simp at h

theorem loadProgram_lineStep {s t : State} (h : loadProgram s = .next t) : LineStep s t := by
  obtain ⟨g, rfl⟩ := loadProgram_cases h
  exact .enters false g 0 (items g) (List.suffix_refl _)

/-- The end of an item: the next one is entered, or the primitive has its result and the pointer moves. -/
theorem itemDone_cases {sda : Bool} {ph : Phase} {s t : State} (h : itemDone sda ph s = .next t) :
    LineStep s t ∨ ∃ r u, LineStep s u ∧ proceed (movePointer (r, u)) = .next t := by
  have part := List.drop_suffix (ph.idx + 1) (items ph.prog)
  unfold itemDone at h
  split at h
  · next u e =>
    cases h
    obtain rfl : (enter _ _ _ _ _).1 = t := congrArg Prod.fst e
    exact .inl (.enters sda ph.prog (ph.idx + 1) _ part)
  · next u e =>
    obtain rfl : (enter _ _ _ _ _).1 = u := congrArg Prod.fst e
    exact .inr ⟨_, _, .ended sda ph.prog (ph.idx + 1) _ part, h⟩

theorem lineEdge_cases {p : Pull} {s t : State} (h : lineEdge p s = .next t) :
    LineStep s t ∨ ∃ r u, LineStep s u ∧ proceed (movePointer (r, u)) = .next t := by
  unfold lineEdge at h
  split at h
  · exact .inl (loadProgram_lineStep h)
  · split at h
    · split at h
      · exact itemDone_cases h
      · next hq => cases h; exact .inl (.counts (by omega))
    · split at h
      · exact itemDone_cases h
      · split at h
        · exact .inr ⟨_, _, .expired, h⟩
        · next hl => cases h; exact .inl (.waits (by omega))
    · exact itemDone_cases h

theorem progResult_frame (g : Prog) (s : State) : ChannelFrame s (progResult g s).2 := by
  cases g
  case stop => exact .refl s
  all_goals exact byteResult_frame s

theorem LineStep.frame {s u : State} (h : LineStep s u) : ChannelFrame s u := by
  cases h with
  | enters sda g j rest => exact enter_frame sda g j rest s
  | counts => exact engine_frame s s.php s.sclOe s.sdaOe _ s.tmo s.shr s.bitc
  | waits => exact engine_frame s s.php s.sclOe s.sdaOe s.qcnt _ s.shr s.bitc
  | ended sda g j rest => exact (enter_frame sda g j rest s).trans (progResult_frame g _)
  | expired => exact timeoutAbort_frame s

/-- After the pointer has moved: the lines at rest, or the next program loaded. -/
theorem proceed_cases {s t : State} (h : proceed s = .next t) :
    (s.busy = false ∧ t = restLines s) ∨ (s.busy = true ∧ LineStep s t) := by
  unfold proceed at h
  split at h
  · next hb => exact .inr ⟨hb, loadProgram_lineStep h⟩
  · next hb => exact .inl ⟨by simpa using hb, by simpa using h.symm⟩

theorem proceed_frame {s t : State} (h : proceed s = .next t) : ChannelFrame s t := by
  obtain ⟨-, rfl⟩ | ⟨-, l⟩ := proceed_cases h
  · exact restLines_frame s
  · exact l.frame

theorem goOn_of_cycle (p : Pull) {s : State} (hg : s.grain = .cycle) : goOn p s = lineEdge p s := by
  simp only [goOn, hg]

theorem goOn_of_coarse (p : Pull) {s : State} (hg : s.grain ≠ .cycle) : goOn p s = primitiveStep s := by
  unfold goOn; split
  · next e => exact absurd e hg
  · rfl
  · rfl

/-- A running command going on, at every grain: what the primitive does, one move of the pointer, and what follows it. -/
theorem goOn_cases {p : Pull} {s t : State} (h : goOn p s = .next t) :
    ∃ u w, ChannelFrame s u ∧ Moved u w ∧ ChannelFrame w t := by
  by_cases hg : s.grain = .cycle
  · rw [goOn_of_cycle p hg] at h
    obtain l | ⟨r, u, l, k⟩ := lineEdge_cases h
    · exact ⟨t, t, l.frame, .stays, .refl t⟩
    · exact ⟨u, _, l.frame, movePointer_moved (r, u), proceed_frame k⟩
  · rw [goOn_of_coarse p hg] at h
    obtain ⟨x, hx, rfl⟩ := primitiveStep_cases h
    exact ⟨x.2, _, hx.frame, movePointer_moved x, .refl _⟩

/-- A command that begins stands at its first primitive, loaded already at cycle grain (R172). -/
theorem beginAt_cases {i : Instr} {s t : State} (h : beginAt i s = .next t) : t = begin i s ∨ LineStep (begin i s) t := by
  unfold beginAt at h
  split at h
  · exact .inr (loadProgram_lineStep h)
  · exact .inl (by simpa using h.symm)
  · exact .inl (by simpa using h.symm)

/-! ### What the body of a bus command leaves unchanged -/

/-- What a body keeps: all that `ChannelFrame` does but the sequencer's own registers. -/
structure BodyFrame (s t : State) : Prop where
  bus : BusFrame s t
  ready : t.ready = s.ready
  eInit : t.eInit = s.eInit
  grows : ∃ evs, t.trace = s.trace ++ evs
  eTimeout : s.eTimeout = true → t.eTimeout = true
  eNack : s.eNack = true → t.eNack = true

theorem ChannelFrame.body {s t : State} (f : ChannelFrame s t) : BodyFrame s t :=
  ⟨f.bus, f.ready, f.eInit, f.grows, f.eTimeout, f.eNack⟩

theorem BodyFrame.trans {s t u : State} (h : BodyFrame s t) (k : BodyFrame t u) : BodyFrame s u where
  bus := h.bus.trans k.bus
  ready := k.ready.trans h.ready
  eInit := k.eInit.trans h.eInit
  grows := by
    obtain ⟨a, ha⟩ := h.grows
    obtain ⟨b, hb⟩ := k.grows
    exact ⟨a ++ b, by rw [hb, ha, List.append_assoc]⟩
  eTimeout x := k.eTimeout (h.eTimeout x)
  eNack x := k.eNack (h.eNack x)

/-- The sequencer's own registers are no part of the frame. -/
theorem registers_body (s : State) (busy : Bool) (seq : Seq) (ipc gidx : BitVec 5) :
    BodyFrame s { s with busy := busy, seq := seq, ipc := ipc, gidx := gidx } :=
  ⟨⟨rfl, rfl, rfl, rfl, rfl, rfl, rfl, rfl, rfl, rfl⟩, rfl, rfl, ⟨[], by simp⟩, id, id⟩

theorem runs_body (q : Seq) (s : State) : BodyFrame s (runs q s) := registers_body s true q s.ipc s.gidx
theorem clearIpc_body (s : State) : BodyFrame s (clearIpc s) := registers_body s s.busy s.seq 0 s.gidx
theorem advanceIpc_body (s : State) : BodyFrame s (advanceIpc s) := registers_body s s.busy s.seq (s.ipc + 1) s.gidx
theorem loadGidx_body (n : Nat) (s : State) : BodyFrame s (loadGidx n s) := registers_body s s.busy s.seq s.ipc _

/-- The loop goes on with the next byte after a `sendCommand` that returned Ok, and ends with its result otherwise (R140). -/
theorem sendCommands_cons (b c : Byte) (rest : List Byte) (s : State) :
    sendCommands (b :: c :: rest) s =
      if (sendCommand b s).1 = .ok then sendCommands (c :: rest) (advanceIpc (sendCommand b s).2)
      else sendCommand b s := by
  rw [sendCommands]; split <;> simp [*]

theorem sendCommands_body (bs : List Byte) (s : State) : BodyFrame s (sendCommands bs s).2 := by
  induction bs generalizing s with
  | nil => exact (ChannelFrame.refl s).body
  | cons b rest ih =>
    have f := (sendCommand_frame b s).body
    cases rest with
    | nil => exact f
    | cons c rest =>
      rw [sendCommands_cons]
      split
      · exact (f.trans (advanceIpc_body _)).trans (ih _)
      · exact f

theorem body_frame (i : Instr) (s : State) : BodyFrame s (body i s).2 := by
  cases i with
  | start a r => exact (runs_body _ s).trans (primStart_frame _ _).body
  | wbyte v => exact (runs_body _ s).trans (xmit_frame _ _).body
  | stop => exact (runs_body _ s).trans (primStop_frame _).body
  | scmd v => exact (runs_body _ s).trans (sendCommand_frame _ _).body
  | init => exact ((runs_body _ s).trans (clearIpc_body _)).trans (sendCommands_body _ _)
  | setcur p c => exact ((runs_body _ s).trans (clearIpc_body _)).trans (sendCommands_body _ _)
  | wchar k => exact ((runs_body _ s).trans (loadGidx_body _ _)).trans (sendDataBytes_frame _ _).body
  | _ => exact (ChannelFrame.refl s).body

/-! ### The invariant of an enabled block (R38) -/

/-- The invariant of a block with `EN = 1`, but for the lines, which a running command drives. -/
structure Powered (s : State) : Prop where
  en : s.en = true
  baud : s.baud = qdivWord s.par.toParams
  paired : s.busy = false ↔ s.seq = .idle
  lastKnown : s.last.toNat ≤ 5
  ipcRange : s.ipc.toNat ≤ 22
  dixRange : s.dix.toNat ≤ 5
  gidxRange : s.gidx.toNat ≤ 25
  bitcRange : s.bitc.toNat ≤ 8
  qcntRange : s.qcnt.toNat ≤ 131070
  tmoRange : s.tmo ≤ s.par.timeoutLimit

/-- The outputs of a block in which no primitive runs: SDA released, SCL kept low while the bus is open (R114). -/
def AtRest (s : State) : Prop := s.sclOe = s.opn ∧ s.sdaOe = false

theorem Inv.powered {s : State} (h : Inv s) (en : s.en = true) : Powered s where
  en := en
  baud := h.programmed en
  paired := h.busyRuns
  lastKnown := h.lastKnown
  ipcRange := h.ipcRange
  dixRange := h.dixRange
  gidxRange := h.gidxRange
  bitcRange := h.bitcRange
  qcntRange := h.qcntRange
  tmoRange := h.tmoRange

theorem Powered.inv {s : State} (h : Powered s) (lines : s.busy = false → AtRest s) : Inv s where
  openEnabled _ := h.en
  readyEnabled _ := h.en
  busyEnabled _ := h.en
  busyRuns := h.paired
  disabled en := absurd (h.en.symm.trans en) (by simp)
  programmed _ := h.baud
  idleLines idle closed := ⟨(lines idle).1.trans closed, (lines idle).2⟩
  holdLines idle opened := ⟨(lines idle).1.trans opened, (lines idle).2⟩
  lastKnown := h.lastKnown
  ipcRange := h.ipcRange
  dixRange := h.dixRange
  gidxRange := h.gidxRange
  bitcRange := h.bitcRange
  qcntRange := h.qcntRange
  tmoRange := h.tmoRange

theorem Powered.running {s : State} (h : Powered s) (busy : s.busy = true) : Inv s :=
  h.inv fun idle => absurd (busy.symm.trans idle) (by simp)

/-- The command word, the result code, the sticky flags and the inputs matter to the invariant only by the range of LAST. -/
theorem Inv.record {s : State} (h : Inv s) {l : BitVec 3} (range : l.toNat ≤ 5) (w : Word16) (a b c d e : Bool)
    (port : List PortIn) (pulls : List Pull) (n : Nat) :
    Inv { s with cmd := w, last := l, eTimeout := a, eNack := b, eInit := c, eGlyph := d, eCmd := e, port := port,
                 pulls := pulls, cycle := n } :=
  { h with lastKnown := range }

/-- A step uses up inputs of the port and the lines and changes nothing else. -/
theorem consume_keeps (s : State) :
    ∃ port pulls n, consume s = { s with port := port, pulls := pulls, cycle := n } := by
  unfold consume; split <;> exact ⟨_, _, _, rfl⟩

theorem Inv.consume {s : State} (h : Inv s) : Inv (consume s) := by
  obtain ⟨port, pulls, n, e⟩ := consume_keeps s
  exact e ▸ h.record h.lastKnown _ _ _ _ _ _ _ _ _

theorem Inv.dropWord {s : State} (h : Inv s) : Inv (dropWord s) := h.record h.lastKnown _ _ _ _ _ _ _ _ _

theorem Inv.refuse {s : State} (h : Inv s) : Inv (refuse s) := h.record (by decide) _ _ _ _ _ _ _ _ _

theorem inv_reset : Inv State.reset := by constructor <;> simp [State.reset]

theorem resetEdge_inv (s : State) : Inv (resetEdge s) := by constructor <;> simp [resetEdge, State.reset]

/-! ### What keeps an enabled block's invariant -/

theorem codeBits_le (c : ResultCode) : (codeBits c).toNat ≤ 5 := by cases c <;> decide

/-- A bus command ends within the ranges whatever came before: the registers of U9 hold values in them. -/
theorem endCommand_powered (c : ResultCode) {s : State} (en : s.en = true) (baud : s.baud = qdivWord s.par.toParams) :
    Powered (endCommand c s) where
  en := en
  baud := baud
  paired := by simp
  lastKnown := codeBits_le c
  ipcRange := by simp [endCommand, forget]; omega
  dixRange := by simp [endCommand, forget]; omega
  gidxRange := by simp [endCommand, forget]; omega
  bitcRange := by simp [endCommand, forget]; omega
  qcntRange := by simp [endCommand, forget]; omega
  tmoRange := by simp [endCommand, forget]

theorem CommandEnd.powered {init : Prop} {s t : State} (how : CommandEnd init s t) (en : s.en = true)
    (baud : s.baud = qdivWord s.par.toParams) : Powered t := by
  cases how with
  | code c => exact endCommand_powered c en baud
  | initFails => exact endCommand_powered _ (by simpa using en) (by simpa using baud)
  | initSucceeds => exact endCommand_powered .ok (s := setReady s) en baud

theorem logEvent_powered (e : Event) {s : State} (h : Powered s) : Powered (logEvent e s) := { h with }
theorem toHold_powered {s : State} (h : Powered s) : Powered (toHold s) := { h with }
theorem toIdle_powered {s : State} (h : Powered s) : Powered (toIdle s) := { h with }
theorem setAckl_powered (a : Bool) {s : State} (h : Powered s) : Powered (setAckl a s) := { h with }
theorem closeBus_powered {s : State} (h : Powered s) : Powered (closeBus s) := { h with }
theorem loadShr_powered (v : Byte) {s : State} (h : Powered s) : Powered (loadShr v s) := { h with }
theorem atChan_powered (c : Chan) {s : State} (h : Powered s) : Powered (atChan c s) := { h with }
theorem loadPb_powered (v : Byte) {s : State} (h : Powered s) : Powered (loadPb v s) := { h with }
theorem startDone_powered {s : State} (h : Powered s) : Powered (startDone s) := { h with }

theorem setSticky_powered (c : ResultCode) {s : State} (h : Powered s) : Powered (setSticky c s) := by
  cases c <;> exact { h with }

theorem loadDix_powered {j : Nat} (range : j ≤ 5) {s : State} (h : Powered s) : Powered (loadDix j s) :=
  { h with dixRange := by simp; omega }

theorem advanceIpc_powered {s : State} (range : s.ipc.toNat < 22) (h : Powered s) : Powered (advanceIpc s) :=
  { h with ipcRange := by simp [BitVec.toNat_add]; omega }

theorem Moved.powered {s t : State} (m : Moved s t) (h : Powered s) : Powered t := by
  cases m with
  | stays => exact h
  | channel c => exact atChan_powered c h
  | data c j range => exact atChan_powered c (loadDix_powered range h)
  | command b range => exact atChan_powered _ (loadPb_powered b (advanceIpc_powered range h))
  | ends how => exact how.powered h.en h.baud

theorem drawStart_powered {s : State} (h : Powered s) : Powered (drawStart s).2 := by
  obtain ⟨rs, n, e⟩ := drawStart_keeps s; rw [e]; exact { h with }

theorem drawByte_powered {s : State} (h : Powered s) : Powered (drawByte s).2 := by
  obtain ⟨rs, n, e⟩ := drawByte_keeps s; rw [e]; exact { h with }

theorem drawStop_powered {s : State} (h : Powered s) : Powered (drawStop s).2 := by
  obtain ⟨rs, n, e⟩ := drawStop_keeps s; rw [e]; exact { h with }

theorem timeoutAbort_powered {s : State} (h : Powered s) : Powered (timeoutAbort s) :=
  logEvent_powered _ (setSticky_powered _ (closeBus_powered (toIdle_powered h)))

theorem byteResult_powered {s : State} (h : Powered s) : Powered (byteResult s).2 := by
  unfold byteResult; split
  · exact setSticky_powered .busNack h
  · exact h

theorem byteDone_powered (v : Byte) (a : Bool) {s : State} (h : Powered s) : Powered (byteDone v a s).2 :=
  byteResult_powered (logEvent_powered _ (toHold_powered (setAckl_powered _ h)))

theorem xmit_powered (v : Byte) {s : State} (h : Powered s) : Powered (xmit v s).2 := by
  have hd := drawByte_powered (loadShr_powered v h)
  cases o : (drawByte s).1 with
  | acked => rw [xmit_acked v s o]; exact logEvent_powered _ (toHold_powered (setAckl_powered _ hd))
  | nacked => rw [xmit_nacked v s o]; exact byteDone_powered v false hd
  | expired => rw [xmit_expired v s o]; exact timeoutAbort_powered hd

theorem primStart_powered (ab : Byte) {s : State} (h : Powered s) : Powered (primStart ab s).2 := by
  have hd := drawStart_powered h
  cases o : (drawStart s).1 with
  | free => rw [primStart_free ab s o]; exact xmit_powered ab (startDone_powered hd)
  | expired => rw [primStart_expired ab s o]; exact timeoutAbort_powered hd

theorem primStop_powered {s : State} (h : Powered s) : Powered (primStop s).2 := by
  have hd := drawStop_powered h
  cases o : (drawStop s).1 with
  | done => rw [primStop_done s o]; exact logEvent_powered _ (closeBus_powered (toIdle_powered hd))
  | expired => rw [primStop_expired s o]; exact timeoutAbort_powered hd

theorem Primitive.powered {s : State} {x : Result × State} (p : Primitive s x) (h : Powered s) : Powered x.2 := by
  cases p with
  | start ab => exact primStart_powered ab h
  | byte pos v => exact xmit_powered v h
  | stop => exact primStop_powered h

/-! ### The bus engine keeps its counters in range (R32, R34) -/

/-- A drive phase lasts at most two quarters, so that it fits QCNT (R113, R196). -/
def shortDrive : Item → Bool
  | .drive _ _ n => n ≤ 2
  | _ => true

theorem items_shortDrive (g : Prog) : (items g).all shortDrive = true := by cases g <;> rfl

theorem quarters_le {n : Nat} (s : State) (h : n ≤ 2) : (quarters n s).toNat ≤ 131070 := by
  have hb : n * s.baud.toNat ≤ 2 * 65535 := Nat.mul_le_mul h (by omega)
  simp [quarters]; omega

theorem markCell_powered (g : Prog) (j : Nat) {s : State} (h : Powered s) : Powered (markCell g j s) := by
  unfold markCell
  split
  · exact h
  · split
    · exact { h with bitcRange := by simp }
    · split
      · exact { h with bitcRange := by simp; omega }
      · exact h

theorem enter_powered (sda : Bool) (g : Prog) (j : Nat) {rest : List Item} {s : State}
    (short : ∀ item ∈ rest, shortDrive item = true) (h : Powered s) : Powered (enter sda g j rest s).1 := by
  induction rest generalizing j s with
  | nil => exact h
  | cons item rest ih =>
    obtain ⟨hd, tl⟩ := List.forall_mem_cons.mp short
    cases item with
    | drive c d n =>
      have hm := markCell_powered g j h
      exact { hm with qcntRange := quarters_le _ (by simpa [shortDrive] using hd) }
    | wait c d cond => exact { h with tmoRange := Nat.zero_le _ }
    | smp => exact ih _ tl (setAckl_powered sda h)
    | evStart => exact ih _ tl (startDone_powered h)
    | evByte v => exact ih _ tl (logEvent_powered _ h)
    | evStop => exact ih _ tl (logEvent_powered _ (closeBus_powered h))

theorem shortDrive_of_suffix {g : Prog} {rest : List Item} (part : rest <:+ items g) :
    ∀ item ∈ rest, shortDrive item = true :=
  fun item mem => List.all_eq_true.mp (items_shortDrive g) item (part.subset mem)

theorem LineStep.powered {s u : State} (l : LineStep s u) (h : Powered s) : Powered u := by
  cases l with
  | enters sda g j rest part => exact enter_powered sda g j (shortDrive_of_suffix part) h
  | counts running =>
    have := h.qcntRange
    exact { h with qcntRange := by simp [BitVec.toNat_sub]; omega }
  | waits below => exact { h with tmoRange := Nat.le_of_lt below }
  | ended sda g j rest part =>
    have he := enter_powered sda g j (shortDrive_of_suffix part) h
    cases g
    case stop => exact he
    all_goals exact byteResult_powered he
  | expired => exact timeoutAbort_powered h

/-! ### The lines at rest (R114) -/

theorem Closed.atRest {s : State} (h : Closed s) : AtRest s := by
  obtain ⟨ho, hc, hd⟩ := h
  exact ⟨hc.trans ho.symm, hd⟩

theorem byteDone_atRest (v : Byte) (a : Bool) {s : State} (h : s.opn = true) : AtRest (byteDone v a s).2 := by
  unfold byteDone byteResult
  split <;> simp [AtRest, h]

theorem xmit_atRest (v : Byte) {s : State} (h : s.opn = true) : AtRest (xmit v s).2 := by
  have ho : (drawByte (loadShr v s)).2.opn = true := by simpa using h
  cases o : (drawByte s).1 with
  | acked => rw [xmit_acked v s o]; simpa [AtRest] using ho
  | nacked => rw [xmit_nacked v s o]; exact byteDone_atRest v false ho
  | expired => rw [xmit_expired v s o]; simp [AtRest]

theorem primStart_atRest (ab : Byte) (s : State) : AtRest (primStart ab s).2 := by
  cases o : (drawStart s).1 with
  | free => rw [primStart_free ab s o]; exact xmit_atRest ab rfl
  | expired => rw [primStart_expired ab s o]; simp [AtRest]

theorem Primitive.atRest {s : State} {x : Result × State} (p : Primitive s x) : AtRest x.2 := by
  cases p with
  | start ab => exact primStart_atRest ab s
  | byte pos v name opn => exact xmit_atRest v opn
  | stop => exact (primStop_closed s).atRest

theorem CommandEnd.atRest {init : Prop} {s t : State} (how : CommandEnd init s t) (h : AtRest s) : AtRest t := by
  cases how <;> simpa [AtRest, fail] using h

theorem Moved.atRest {s t : State} (m : Moved s t) (h : AtRest s) : AtRest t := by
  cases m with
  | ends how => exact how.atRest h
  | _ => simpa [AtRest] using h

theorem restLines_atRest (s : State) : AtRest (restLines s) := by
  unfold restLines
  split
  · next ho => exact ⟨ho.symm, rfl⟩
  · next ho => exact ⟨by simpa using ho, rfl⟩

theorem restLines_powered {s : State} (h : Powered s) : Powered (restLines s) := by
  unfold restLines; split
  · exact toHold_powered h
  · exact toIdle_powered h

/-- The lines are at rest at the end of every bus command. -/
theorem body_atRest {i : Instr} {s : State} (h : BusCommand s i) : AtRest (body i s).2 := by
  cases h with
  | start a => exact primStart_atRest _ _
  | wbyte v en opn => exact xmit_atRest v opn
  | stop => exact (primStop_closed _).atRest
  | scmd v => exact (sendCommand_closed v _).atRest
  | init => exact (sendCommands_closed _ _ (by simp [irom])).atRest
  | setcur p c => exact (sendCommands_closed _ _ (by simp [cursorBytes])).atRest
  | wchar k => exact (sendDataBytes_closed _ _).atRest

/-! ### The step -/

theorem exec_inv {i : Instr} {s t : State} (hi : isHostCommand i) (h : Inv s)
    (e : exec i s = .next t) : Inv t := by
  cases him : immediate i s with
  | true =>
    cases exec_of_immediate hi him e with
    | refused => exact h.refuse
    | nop => exact h.record (by decide) _ _ _ _ _ _ _ _ _
    | clrerr => exact h.record (by decide) _ _ _ _ _ _ _ _ _
    | wchar => exact h.record (by decide) _ _ _ _ _ _ _ _ _
    | binit en =>
      exact { h with
        openEnabled := fun _ => rfl, readyEnabled := fun _ => rfl, busyEnabled := fun _ => rfl
        disabled := fun en => by simp at en
        programmed := fun _ => rfl, lastKnown := codeBits_le .ok }
  | false =>
    obtain rfl : finish i (body i s) = t := by simpa [exec_of_not_immediate him] using e
    have hb := busCommand_of_not_immediate him
    have f := (body_frame i s).bus
    have en : (body i s).2.en = true := f.en.trans hb.en
    have baud : (body i s).2.baud = qdivWord (body i s).2.par.toParams := by
      rw [f.baud, f.par, h.programmed hb.en]
    have how := finish_ends i (body i s)
    exact (how.powered en baud).inv fun _ => how.atRest (body_atRest hb)

theorem glyphIndex_le {k : Byte} {idx : Nat} (h : glyphIndex k = some idx) : idx ≤ 25 := by
  unfold glyphIndex at h
  split at h
  · simp at h
  · split at h
    · simp [glyphBase, glyphN] at *; omega
    · simp at h

theorem begin_busy {i : Instr} {s : State} (h : BusCommand s i) : (begin i s).busy = true := by cases h <;> rfl

theorem begin_powered {i : Instr} {s : State} (hb : BusCommand s i) (h : Powered s) : Powered (begin i s) := by
  cases hb with
  | start | wbyte | stop | scmd => exact { h with paired := by simp [begin] }
  | init | setcur => exact { h with paired := by simp [begin], ipcRange := by simp [begin] }
  | wchar k idx en glyph =>
    have := glyphIndex_le glyph
    exact { h with paired := by simp [begin], gidxRange := by simp [begin, glyph]; omega }

theorem beginAt_inv {i : Instr} {s t : State} (hb : BusCommand s i) (h : Inv s) (e : beginAt i s = .next t) :
    Inv t := by
  have hp := begin_powered hb (h.powered hb.en)
  have busy := begin_busy hb
  obtain rfl | l := beginAt_cases e
  · exact hp.running busy
  · exact (l.powered hp).running (l.frame.busy.trans busy)

theorem accept_inv {w : Word16} {s t : State} (h : Inv s) (e : accept w s = .next t) :
    Inv t := by
  have hw : Inv { s with cmd := w } := h.record h.lastKnown _ _ _ _ _ _ _ _ _
  obtain ⟨_, -, rfl⟩ | ⟨i, d, -, e⟩ | ⟨i, -, -, him, e⟩ := accept_cases e
  · exact hw.refuse
  · exact exec_inv (s := { s with cmd := w }) (decode_ok d).isHostCommand hw e
  · exact beginAt_inv (s := { s with cmd := w }) (busCommand_of_not_immediate him) hw e

theorem goOn_inv {p : Pull} {s t : State} (busy : s.busy = true) (h : Inv s) (e : goOn p s = .next t) : Inv t := by
  have hp := h.powered (h.busyEnabled busy)
  by_cases hg : s.grain = .cycle
  · rw [goOn_of_cycle p hg] at e
    obtain l | ⟨r, u, l, k⟩ := lineEdge_cases e
    · exact (l.powered hp).running (l.frame.busy.trans busy)
    · have hm := (movePointer_moved (r, u)).powered (l.powered hp)
      obtain ⟨-, rfl⟩ | ⟨hb, l⟩ := proceed_cases k
      · exact (restLines_powered hm).inv fun _ => restLines_atRest _
      · exact (l.powered hm).running (l.frame.busy.trans hb)
  · rw [goOn_of_coarse p hg] at e
    obtain ⟨x, hx, rfl⟩ := primitiveStep_cases e
    have m := movePointer_moved x
    exact (m.powered (hx.powered hp)).inv fun _ => m.atRest hx.atRest

/-- Settles O13: the invariant of an enabled block is kept by every primitive, every item of a phase program and every move
of the pointer, and at the end of a command the lines are at rest. -/
theorem stepKeepsInvariant : Obligations.StepKeepsInvariant := by
  intro s t h e
  have hb : (consume s).busy = s.busy := by unfold consume; split <;> rfl
  obtain ⟨-, rfl⟩ | ⟨-, busy, v, k, rfl⟩ | ⟨-, -, -, k⟩ | ⟨-, -, -, rfl⟩ := step_cases e
  · exact resetEdge_inv _
  · have hv := goOn_inv (hb.trans busy) h.consume k
    split
    · exact hv.dropWord
    · exact hv
  · exact accept_inv h.consume k
  · exact h.consume

/-- Settles O12: every clause reads off the reset values of R37. -/
theorem invariantAtReset : Obligations.InvariantAtReset := inv_reset

/-! ### What no step takes back: EN, READY, BAUD, the sticky flags and the trace (R24, R26, R29, R30, R33) -/

/-- Nothing that the host has seen is taken back. -/
structure Onward (s t : State) : Prop where
  en : s.en = true → t.en = true
  ready : s.ready = true → t.ready = true
  baud : s.en = true → t.baud = s.baud
  sticky : StickyKept s t
  grows : ∃ evs, t.trace = s.trace ++ evs

theorem StickyKept.trans {s t u : State} (h : StickyKept s t) (k : StickyKept t u) : StickyKept s u where
  eTimeout x := k.eTimeout (h.eTimeout x)
  eNack x := k.eNack (h.eNack x)
  eInit x := k.eInit (h.eInit x)
  eGlyph x := k.eGlyph (h.eGlyph x)
  eCmd x := k.eCmd (h.eCmd x)

theorem Onward.trans {s t u : State} (h : Onward s t) (k : Onward t u) : Onward s u where
  en x := k.en (h.en x)
  ready x := k.ready (h.ready x)
  baud x := (k.baud (h.en x)).trans (h.baud x)
  sticky := h.sticky.trans k.sticky
  grows := by
    obtain ⟨a, ha⟩ := h.grows
    obtain ⟨b, hb⟩ := k.grows
    exact ⟨a ++ b, by rw [hb, ha, List.append_assoc]⟩

theorem BodyFrame.onward {s t : State} (f : BodyFrame s t) : Onward s t where
  en := f.bus.en.trans
  ready := f.ready.trans
  baud _ := f.bus.baud
  sticky := ⟨f.eTimeout, f.eNack, f.eInit.trans, f.bus.eGlyph.trans, f.bus.eCmd.trans⟩
  grows := f.grows

theorem ChannelFrame.onward {s t : State} (f : ChannelFrame s t) : Onward s t := f.body.onward

/-- A change of the pointer, the data registers, LAST, BUSY, SEQ, CMD and the inputs takes nothing back. -/
theorem onward_of_eq {s t : State} (en : t.en = s.en) (ready : t.ready = s.ready) (baud : t.baud = s.baud)
    (sticky : StickyKept s t) (trace : t.trace = s.trace) : Onward s t :=
  ⟨en.trans, ready.trans, fun _ => baud, sticky, [], by simpa using trace⟩

theorem endCommand_onward (c : ResultCode) (s : State) : Onward s (endCommand c s) :=
  onward_of_eq rfl rfl rfl ⟨id, id, id, id, id⟩ rfl

theorem setSticky_onward (c : ResultCode) (s : State) : Onward s (setSticky c s) :=
  onward_of_eq (by simp) (by simp) (by simp) (by cases c <;> exact ⟨by simp [setSticky], by simp [setSticky],
    by simp [setSticky], by simp [setSticky], by simp [setSticky]⟩) (by simp)

theorem setReady_onward (s : State) : Onward s (setReady s) :=
  ⟨id, fun _ => rfl, fun _ => rfl, ⟨id, id, id, id, id⟩, [], by simp⟩

theorem CommandEnd.onward {init : Prop} {s t : State} (how : CommandEnd init s t) : Onward s t := by
  cases how with
  | code c => exact endCommand_onward c s
  | initFails => exact (setSticky_onward _ s).trans (endCommand_onward _ _)
  | initSucceeds => exact (setReady_onward s).trans (endCommand_onward _ _)

theorem Moved.onward {s t : State} (m : Moved s t) : Onward s t := by
  cases m with
  | stays => exact (ChannelFrame.refl s).onward
  | channel c => exact (atChan_frame c s).onward
  | data c j => exact ((loadDix_frame j s).trans (atChan_frame c _)).onward
  | command b => exact (advanceIpc_body s).onward.trans ((loadPb_frame b _).trans (atChan_frame _ _)).onward
  | ends how => exact how.onward

theorem goOn_onward {p : Pull} {s t : State} (h : goOn p s = .next t) : Onward s t := by
  obtain ⟨u, w, f, m, g⟩ := goOn_cases h
  exact (f.onward.trans m.onward).trans g.onward

theorem Immediate.onward {i : Instr} {s t : State} (h : Immediate s i t) (hi : i ≠ .clrerr) : Onward s t := by
  cases h with
  | refused => exact onward_of_eq rfl rfl rfl ⟨id, id, id, id, fun _ => rfl⟩ rfl
  | nop => exact onward_of_eq rfl rfl rfl ⟨id, id, id, id, id⟩ rfl
  | clrerr => exact absurd rfl hi
  | binit en =>
    exact ⟨fun _ => rfl, id, fun h => absurd (h.symm.trans en) (by simp), ⟨id, id, id, id, id⟩, [], by simp⟩
  | wchar k => exact onward_of_eq rfl rfl rfl ⟨id, id, id, fun _ => rfl, id⟩ rfl

theorem exec_onward {i : Instr} {s t : State} (hi : isHostCommand i) (hc : i ≠ .clrerr) (e : exec i s = .next t) :
    Onward s t := by
  cases him : immediate i s with
  | true => exact (exec_of_immediate hi him e).onward hc
  | false =>
    obtain rfl : finish i (body i s) = t := by simpa [exec_of_not_immediate him] using e
    exact (body_frame i s).onward.trans (finish_ends i _).onward

/-- Where a command begins, only BUSY and registers of the sequencer and the bus engine change. -/
theorem begin_keeps (i : Instr) (s : State) :
    ∃ busy seq ipc cch pb gidx, begin i s =
      { s with php := none, busy := busy, seq := seq, ipc := ipc, cch := cch, pb := pb, gidx := gidx } := by
  cases i <;> exact ⟨_, _, _, _, _, _, rfl⟩

theorem begin_onward (i : Instr) (s : State) : Onward s (begin i s) := by
  obtain ⟨_, _, _, _, _, _, e⟩ := begin_keeps i s
  rw [e]; exact onward_of_eq rfl rfl rfl ⟨id, id, id, id, id⟩ rfl

theorem beginAt_frame {i : Instr} {s t : State} (e : beginAt i s = .next t) : ChannelFrame (begin i s) t := by
  obtain rfl | l := beginAt_cases e
  · exact .refl _
  · exact l.frame

theorem consume_onward (s : State) : Onward s (consume s) := by
  obtain ⟨_, _, _, e⟩ := consume_keeps s
  rw [e]; exact onward_of_eq rfl rfl rfl ⟨id, id, id, id, id⟩ rfl

theorem loadCmd_onward (w : Word16) (s : State) : Onward s { s with cmd := w } :=
  onward_of_eq rfl rfl rfl ⟨id, id, id, id, id⟩ rfl

theorem dropWord_onward (s : State) : Onward s (dropWord s) :=
  onward_of_eq rfl rfl rfl ⟨id, id, id, id, fun _ => rfl⟩ rfl

theorem accept_onward {w : Word16} {s t : State} (hc : decode w ≠ .ok .clrerr) (h : accept w s = .next t) :
    Onward s t := by
  have hw := loadCmd_onward w s
  obtain ⟨_, -, rfl⟩ | ⟨i, d, -, e⟩ | ⟨i, -, -, -, e⟩ := accept_cases h
  · exact hw.trans ((Immediate.refused .nop).onward (by simp))
  · exact hw.trans (exec_onward (decode_ok d).isHostCommand (fun hi => hc (hi ▸ d)) e)
  · exact (hw.trans (begin_onward i _)).trans (beginAt_frame e).onward

/-- A step without reset that accepts no CLRERR takes nothing back. -/
theorem step_onward {s t : State} (hr : (portHead s).rst = false)
    (hc : ¬ (s.busy = false ∧ (portHead s).cmdValid = true ∧ decode (portHead s).cmdData = .ok .clrerr))
    (h : step s = .next t) : Onward s t := by
  have f := consume_onward s
  obtain ⟨r, -⟩ | ⟨-, -, v, k, rfl⟩ | ⟨-, idle, valid, k⟩ | ⟨-, -, -, rfl⟩ := step_cases h
  · simp [hr] at r
  · have g := f.trans (goOn_onward k)
    split
    · exact g.trans (dropWord_onward v)
    · exact g
  · exact f.trans (accept_onward (fun d => hc ⟨idle, valid, d⟩) k)
  · exact f

/-- A step that accepts a CLRERR clears the flags and LAST and nothing else (R171). -/
theorem step_clrerr {s : State} (hr : (portHead s).rst = false) (idle : s.busy = false)
    (valid : (portHead s).cmdValid = true) (d : decode (portHead s).cmdData = .ok .clrerr) :
    step s = .next (setLast .ok (clearSticky { consume s with cmd := (portHead s).cmdData })) := by
  have hb : (consume s).busy = false := by obtain ⟨_, _, _, e⟩ := consume_keeps s; rw [e]; exact idle
  simp [step, stepOf, edge, hr, hb, valid, accept, d, runAccepted, immediate, exec, execClrerr]

/-- Settles O15: what a running command, an accepted command but CLRERR, and the port do, takes no flag back. -/
theorem stickyFlagsStay : Obligations.StickyFlagsStay :=
  fun _ _ hr hc h => (step_onward hr hc h).sticky

/-- A step without reset keeps EN, READY, BAUD of an enabled block, and the trace, a CLRERR among them. -/
theorem step_keeps {s t : State} (hr : (portHead s).rst = false) (h : step s = .next t) :
    (s.en = true → t.en = true) ∧ (s.ready = true → t.ready = true) ∧ (s.en = true → t.baud = s.baud) ∧
      ∃ evs, t.trace = s.trace ++ evs := by
  by_cases hc : s.busy = false ∧ (portHead s).cmdValid = true ∧ decode (portHead s).cmdData = .ok .clrerr
  · obtain ⟨idle, valid, d⟩ := hc
    obtain rfl := Host.Outcome.next.inj ((step_clrerr hr idle valid d).symm.trans h)
    obtain ⟨_, _, _, e⟩ := consume_keeps s
    rw [e]
    exact ⟨id, id, fun _ => rfl, [], by simp⟩
  · obtain ⟨en, ready, baud, -, grows⟩ := step_onward hr hc h
    exact ⟨en, ready, baud, grows⟩

/-- Settles O16: EN and READY are only ever set, and BAUD is written by a BINIT alone, which an enabled block refuses. -/
theorem enableReadyBaudStay : Obligations.EnableReadyBaudStay := by
  intro s t hr h
  obtain ⟨en, ready, baud, -⟩ := step_keeps hr h
  exact ⟨en, ready, baud⟩

/-- Settles O18: the trace grows by the events of the primitives, and no end or refusal writes it. -/
theorem traceOnlyGrows : Obligations.TraceOnlyGrows := by
  intro s t hr h
  obtain ⟨-, -, -, grows⟩ := step_keeps hr h
  exact grows

/-! ### What sets READY (R26, R143) -/

theorem CommandEnd.ready {init : Prop} {s t : State} (how : CommandEnd init s t) :
    t.ready = s.ready ∨ (init ∧ t.last = 0) := by
  cases how with
  | code c => exact .inl rfl
  | initFails => exact .inl (by simp [fail])
  | initSucceeds h => exact .inr ⟨h, rfl⟩

theorem Moved.ready {s t : State} (m : Moved s t) : t.ready = s.ready ∨ (s.seq = .sInit ∧ t.last = 0) := by
  cases m with
  | ends how => exact how.ready
  | _ => exact .inl rfl

theorem goOn_ready {p : Pull} {s t : State} (h : goOn p s = .next t) :
    t.ready = s.ready ∨ (s.seq = .sInit ∧ t.last = 0) := by
  obtain ⟨u, w, f, m, g⟩ := goOn_cases h
  exact m.ready.imp (fun e => g.ready.trans (e.trans f.ready)) fun ⟨q, l⟩ => ⟨f.seq.symm.trans q, g.last.trans l⟩

theorem Immediate.ready {i : Instr} {s t : State} (h : Immediate s i t) : t.ready = s.ready := by cases h <;> rfl

theorem exec_ready {i : Instr} {s t : State} (hi : isHostCommand i) (e : exec i s = .next t) :
    t.ready = s.ready ∨ (i = .init ∧ t.last = 0) := by
  cases him : immediate i s with
  | true => exact .inl (exec_of_immediate hi him e).ready
  | false =>
    obtain rfl : finish i (body i s) = t := by simpa [exec_of_not_immediate him] using e
    exact (finish_ends i _).ready.imp_left fun e => e.trans (body_frame i s).ready

theorem accept_ready {w : Word16} {s t : State} (h : accept w s = .next t) :
    t.ready = s.ready ∨ (decode w = .ok .init ∧ t.last = 0) := by
  obtain ⟨_, -, rfl⟩ | ⟨i, d, -, e⟩ | ⟨i, -, -, -, e⟩ := accept_cases h
  · exact .inl rfl
  · exact (exec_ready (decode_ok d).isHostCommand e).imp_right fun ⟨hi, l⟩ => ⟨hi ▸ d, l⟩
  · obtain ⟨_, _, _, _, _, _, k⟩ := begin_keeps i { s with cmd := w }
    exact .inl ((beginAt_frame e).ready.trans (by rw [k]))

/-- Settles O17: READY is written at the end of INIT alone, which leaves LAST at 0, and at the finer grains SEQ says that
an INIT runs. -/
theorem readySetOnlyByInit : Obligations.ReadySetOnlyByInit := by
  intro s t h hs ht
  have changed : t.ready ≠ s.ready := by rw [hs, ht]; simp
  obtain ⟨_, _, _, e⟩ := consume_keeps s
  rw [← show (consume s).ready = s.ready by rw [e]] at changed
  obtain ⟨-, rfl⟩ | ⟨-, busy, v, k, rfl⟩ | ⟨-, idle, valid, k⟩ | ⟨-, -, -, rfl⟩ := step_cases h
  · simp [resetEdge, State.reset] at ht
  · have drops : (if (portHead s).cmdValid then dropWord v else v).ready = v.ready ∧
        (if (portHead s).cmdValid then dropWord v else v).last = v.last := by split <;> exact ⟨rfl, rfl⟩
    obtain ⟨q, l⟩ := (goOn_ready k).resolve_left (drops.1 ▸ changed)
    exact .inr ⟨busy, by rw [e] at q; exact q, drops.2.trans l⟩
  · obtain ⟨d, l⟩ := (accept_ready k).resolve_left changed
    exact .inl ⟨idle, valid, d, l⟩
  · exact absurd rfl changed

/-! ### SCMD, INIT, SETCUR and WCHAR leave the bus closed (R133, R190) -/

theorem setSticky_initFailure_bus (s : State) : BusFrame s (setSticky .initFailure s) :=
  ⟨rfl, rfl, rfl, rfl, rfl, rfl, rfl, rfl, rfl, rfl⟩

theorem setReady_bus (s : State) : BusFrame s (setReady s) :=
  ⟨rfl, rfl, rfl, rfl, rfl, rfl, rfl, rfl, rfl, rfl⟩

theorem CommandEnd.bus {init : Prop} {s t : State} (how : CommandEnd init s t) : BusFrame s t := by
  cases how with
  | code c => exact endCommand_bus c s
  | initFails => exact (setSticky_initFailure_bus s).trans (endCommand_bus _ _)
  | initSucceeds => exact (setReady_bus s).trans (endCommand_bus _ _)

theorem CommandEnd.idle {init : Prop} {s t : State} (how : CommandEnd init s t) : t.busy = false := by
  cases how <;> rfl

theorem CommandEnd.closed {init : Prop} {s t : State} (how : CommandEnd init s t) (h : Closed s) : Closed t := by
  cases how <;> simpa [Closed, fail] using h

/-- The procedures of SCMD, INIT, SETCUR and WCHAR close the bus whatever the environment answers. -/
theorem body_closed {i : Instr} (hm : isMacro i) (s : State) : Closed (body i s).2 := by
  obtain ⟨v, rfl⟩ | rfl | ⟨p, c, rfl⟩ | ⟨k, rfl⟩ := hm
  · exact sendCommand_closed v _
  · exact sendCommands_closed _ _ (by simp [irom])
  · exact sendCommands_closed _ _ (by simp [cursorBytes])
  · exact sendDataBytes_closed _ _

/-- Such a command that is not refused uses the bus, or is a WCHAR of an unsupported character (R184). -/
theorem not_refused_cases {i : Instr} {s : State} (hm : isMacro i) (hr : stateRefuses i s = false) :
    immediate i s = false ∨ ∃ k, i = .wchar k ∧ glyphIndex k = none ∧ s.opn = false := by
  obtain ⟨v, rfl⟩ | rfl | ⟨p, c, rfl⟩ | ⟨k, rfl⟩ := hm
  · exact .inl (by simp [immediate, hr])
  · exact .inl (by simp [immediate, hr])
  · exact .inl (by simp [immediate, hr])
  · cases hg : glyphIndex k with
    | some idx => exact .inl (by simp [immediate, hr, hg])
    | none =>
      simp only [stateRefuses, Bool.or_eq_false_iff] at hr
      exact .inr ⟨k, rfl, hg, hr.1.2⟩

/-- Settles O32: every procedure ends closed, and an unsupported character leaves the closed bus alone. -/
theorem macroLeavesBusClosed : Obligations.MacroLeavesBusClosed := by
  intro i s hm hr
  obtain him | ⟨k, rfl, hg, ho⟩ := not_refused_cases hm hr
  · have how := finish_ends i (body i s)
    have f := (body_frame i s).bus.trans how.bus
    obtain ⟨opn, scl, sda⟩ := how.closed (body_closed hm s)
    exact ⟨_, exec_of_not_immediate him, opn, fun _ => how.idle, fun _ _ => ⟨scl, sda⟩, f.en, f.baud, f.cmd, f.eCmd,
      f.par, f.port⟩
  · have e : exec (.wchar k) s = .next (setLast .unsupportedGlyph (setSticky .unsupportedGlyph s)) := by
      rw [exec_effect ⟨_, rfl⟩, unlessRefused_runs hr]
      simp only [effect, hg]
    exact ⟨_, e, ho, id, fun scl sda => ⟨scl, sda⟩, rfl, rfl, rfl, rfl, rfl, rfl⟩

/-! ### The byte the pointer names (R31) and the status word (R23) -/

/-- Settles O7: the inputs that the step uses up do not move the pointer, so the byte fetched is the one it named. -/
theorem fetchedWireByteRuns : Obligations.FetchedWireByteRuns := by
  intro s pos v i busy grain rst valid name d
  have e : consume s = { s with port := s.port.tail } := by simp [consume, grain]
  have hn : named (consume s) = named s := by rw [e]; rfl
  have fetch : primitiveStep (consume s) = exec i (consume s) := by
    obtain name | ⟨name, rfl⟩ := name <;> simp [primitiveStep, hn, name, d]
  have going : step s = dropIf (portHead s) (goOn (pullHead s) (consume s)) := by
    simp [step, stepOf, edge, rst, show (consume s).busy = true by rw [e]; exact busy]
  rw [going, show goOn (pullHead s) (consume s) = exec i (consume s) by
    simp [goOn, show (consume s).grain = .primitive by rw [e]; exact grain, fetch]]
  cases exec i (consume s) <;> simp [dropIf, valid]

/-- The status word bit by bit, as the concatenation of its fields: `BitVec.getLsbD_append` then finds the field. -/
theorem status_getLsbD (s : State) (i : Nat) :
    (status s).getLsbD i =
      ((0 : BitVec 3) ++ BitVec.ofBool s.eCmd ++ BitVec.ofBool s.eGlyph ++ BitVec.ofBool s.eInit ++
        BitVec.ofBool s.eNack ++ BitVec.ofBool s.eTimeout ++ (0 : BitVec 1) ++ s.last ++ BitVec.ofBool s.ready ++
        BitVec.ofBool s.opn ++ BitVec.ofBool s.en ++ BitVec.ofBool s.busy).getLsbD i := rfl

/-- Settles O14: each bit falls in the field that the concatenation has there. -/
theorem statusReservedBitsZero : Obligations.StatusReservedBitsZero := by
  intro s
  have reserved : (status s).extractLsb' 13 3 = 0 := by
    apply BitVec.eq_of_getLsbD_eq
    intro i hi
    simp only [BitVec.getLsbD_extractLsb', status_getLsbD, BitVec.getLsbD_append]
    interval_cases i <;> simp
  have last : (status s).extractLsb' 4 3 = s.last := by
    apply BitVec.eq_of_getLsbD_eq
    intro i hi
    simp only [BitVec.getLsbD_extractLsb', status_getLsbD, BitVec.getLsbD_append]
    interval_cases i <;> simp
  simp only [reserved, last, status_getLsbD, BitVec.getLsbD_append]
  simp

/-! ### Fields that no primitive reads (R29, R32, U9) -/

/-- Two answers agree under `m`: the same answer, and states that agree. -/
def Agree {α : Type} (m : State → State) (x y : α × State) : Prop := y.1 = x.1 ∧ m x.2 = m y.2

theorem agree_of_commutes {α : Type} {m : State → State} {f : State → α × State}
    (commutes : ∀ s, f (m s) = ((f s).1, m (f s).2)) {s t : State} (h : m s = m t) : Agree m (f s) (f t) := by
  have e : ((f s).1, m (f s).2) = ((f t).1, m (f t).2) := by rw [← commutes, ← commutes, h]
  exact ⟨(congrArg Prod.fst e).symm, congrArg Prod.snd e⟩

/-- `m` masks fields that no primitive reads: states that agree under it answer the same draws, acknowledge bits and
policy, and agree under it after every write of a primitive. -/
structure Mask (m : State → State) : Prop where
  ackl {s t : State} : m s = m t → t.ackl = s.ackl
  par {s t : State} : m s = m t → t.par = s.par
  drawStart {s t : State} : m s = m t → Agree m (drawStart s) (drawStart t)
  drawByte {s t : State} : m s = m t → Agree m (drawByte s) (drawByte t)
  drawStop {s t : State} : m s = m t → Agree m (drawStop s) (drawStop t)
  logEvent {s t : State} (e : Event) : m s = m t → m (logEvent e s) = m (logEvent e t)
  setLines {s t : State} (c d : Bool) : m s = m t → m { s with sclOe := c, sdaOe := d } = m { t with sclOe := c, sdaOe := d }
  setOpen {s t : State} (o : Bool) : m s = m t → m { s with opn := o } = m { t with opn := o }
  setAckl {s t : State} (a : Bool) : m s = m t → m (setAckl a s) = m (setAckl a t)
  setSticky {s t : State} (c : ResultCode) : m s = m t → m (setSticky c s) = m (setSticky c t)
  loadShr {s t : State} (v : Byte) : m s = m t → m (loadShr v s) = m (loadShr v t)
  loadPb {s t : State} (v : Byte) : m s = m t → m (loadPb v s) = m (loadPb v t)
  loadDix {s t : State} (j : Nat) : m s = m t → m (loadDix j s) = m (loadDix j t)
  loadGidx {s t : State} (n : Nat) : m s = m t → m (loadGidx n s) = m (loadGidx n t)
  atChan {s t : State} (c : Chan) : m s = m t → m (atChan c s) = m (atChan c t)
  clearIpc {s t : State} : m s = m t → m (clearIpc s) = m (clearIpc t)
  advanceIpc {s t : State} : m s = m t → m (advanceIpc s) = m (advanceIpc t)
  runs {s t : State} (q : Seq) : m s = m t → m (runs q s) = m (runs q t)

/-- The sticky flags are such fields: the model's own clearing of them is the mask. -/
theorem mask_sticky : Mask clearSticky where
  ackl h := (congrArg State.ackl h).symm
  par h := (congrArg State.par h).symm
  drawStart := agree_of_commutes fun s => by cases s; simp only [Machine.drawStart, clearSticky]; split <;> rfl
  drawByte := agree_of_commutes fun s => by cases s; simp only [Machine.drawByte, clearSticky]; split <;> rfl
  drawStop := agree_of_commutes fun s => by cases s; simp only [Machine.drawStop, clearSticky]; split <;> rfl
  logEvent e h := congrArg (Machine.logEvent e) h
  setLines c d h := congrArg (fun s => { s with sclOe := c, sdaOe := d }) h
  setOpen o h := congrArg (fun s => { s with opn := o }) h
  setAckl a h := congrArg (Machine.setAckl a) h
  setSticky c h := by cases c <;> exact h
  loadShr v h := congrArg (Machine.loadShr v) h
  loadPb v h := congrArg (Machine.loadPb v) h
  loadDix j h := congrArg (Machine.loadDix j) h
  loadGidx n h := congrArg (Machine.loadGidx n) h
  atChan c h := congrArg (Machine.atChan c) h
  clearIpc h := congrArg Machine.clearIpc h
  advanceIpc h := congrArg Machine.advanceIpc h
  runs q h := congrArg (Machine.runs q) h

/-- The registers of U9 are such fields. -/
theorem mask_scratch (x : State) : Mask (withScratch x) where
  ackl h := (congrArg State.ackl h).symm
  par h := (congrArg State.par h).symm
  drawStart := agree_of_commutes fun s => by cases s; simp only [Machine.drawStart, withScratch]; split <;> rfl
  drawByte := agree_of_commutes fun s => by cases s; simp only [Machine.drawByte, withScratch]; split <;> rfl
  drawStop := agree_of_commutes fun s => by cases s; simp only [Machine.drawStop, withScratch]; split <;> rfl
  logEvent e h := congrArg (Machine.logEvent e) h
  setLines c d h := congrArg (fun s => { s with sclOe := c, sdaOe := d }) h
  setOpen o h := congrArg (fun s => { s with opn := o }) h
  setAckl a h := congrArg (Machine.setAckl a) h
  setSticky c h := by
    have e (s : State) : withScratch x (Machine.setSticky c s) = Machine.setSticky c (withScratch x s) := by
      cases c <;> rfl
    rw [e, e, h]
  loadShr _ h := h
  loadPb _ h := h
  loadDix _ h := h
  loadGidx _ h := h
  atChan _ h := h
  clearIpc h := h
  advanceIpc h := h
  runs q h := congrArg (Machine.runs q) h

section
variable {m : State → State} (M : Mask m)
include M

theorem Mask.timeoutAbort {s t : State} (h : m s = m t) : m (timeoutAbort s) = m (timeoutAbort t) :=
  M.logEvent _ (M.setSticky _ (M.setOpen false (M.setLines false false h)))

theorem Mask.byteDone (v : Byte) (a : Bool) {s t : State} (h : m s = m t) :
    Agree m (byteDone v a s) (byteDone v a t) := by
  have hd : m (Machine.logEvent (.byte v a) (toHold (Machine.setAckl (!a) s))) =
      m (Machine.logEvent (.byte v a) (toHold (Machine.setAckl (!a) t))) :=
    M.logEvent _ (M.setLines true false (M.setAckl _ h))
  unfold Machine.byteDone byteResult
  rw [M.ackl hd, M.par hd]
  split
  · exact ⟨rfl, M.setSticky .busNack hd⟩
  · exact ⟨rfl, hd⟩

theorem Mask.xmit (v : Byte) {s t : State} (h : m s = m t) : Agree m (xmit v s) (xmit v t) := by
  obtain ⟨e, -⟩ := M.drawByte h
  obtain ⟨-, hd⟩ := M.drawByte (M.loadShr v h)
  cases o : (Machine.drawByte s).1 with
  | acked =>
    rw [xmit_acked v s o, xmit_acked v t (e.trans o)]
    exact ⟨rfl, M.logEvent _ (M.setLines true false (M.setAckl false hd))⟩
  | nacked => rw [xmit_nacked v s o, xmit_nacked v t (e.trans o)]; exact M.byteDone v false hd
  | expired => rw [xmit_expired v s o, xmit_expired v t (e.trans o)]; exact ⟨rfl, M.timeoutAbort hd⟩

theorem Mask.primStart (ab : Byte) {s t : State} (h : m s = m t) : Agree m (primStart ab s) (primStart ab t) := by
  obtain ⟨e, hd⟩ := M.drawStart h
  cases o : (Machine.drawStart s).1 with
  | free =>
    rw [primStart_free ab s o, primStart_free ab t (e.trans o)]
    exact M.xmit ab (M.setOpen true (M.logEvent .start hd))
  | expired => rw [primStart_expired ab s o, primStart_expired ab t (e.trans o)]; exact ⟨rfl, M.timeoutAbort hd⟩

theorem Mask.primStop {s t : State} (h : m s = m t) : Agree m (primStop s) (primStop t) := by
  obtain ⟨e, hd⟩ := M.drawStop h
  cases o : (Machine.drawStop s).1 with
  | done =>
    rw [primStop_done s o, primStop_done t (e.trans o)]
    exact ⟨rfl, M.logEvent .stop (M.setOpen false (M.setLines false false hd))⟩
  | expired => rw [primStop_expired s o, primStop_expired t (e.trans o)]; exact ⟨rfl, M.timeoutAbort hd⟩

theorem Mask.andThen {x y : Result × State} {k : State → Result × State} (h : Agree m x y)
    (hk : ∀ s t, m s = m t → Agree m (k s) (k t)) : Agree m (andThen x k) (andThen y k) := by
  obtain ⟨r, s⟩ := x
  obtain ⟨r', t⟩ := y
  obtain ⟨rfl, h⟩ := h
  cases r'
  · exact hk s t h
  · exact ⟨rfl, h⟩
  · exact ⟨rfl, (M.primStop (M.atChan .stop h)).2⟩

end

theorem andThen_congr {x : Result × State} {k l : State → Result × State} (h : k x.2 = l x.2) :
    andThen x k = andThen x l := by
  unfold andThen; split <;> simp [h]

/-- The payload byte that `sendCommand` sends from PB is its operand: neither the start nor the control byte writes PB. -/
theorem sendCommand_eq (op : Byte) (s : State) :
    sendCommand op s =
      andThen (primStart devAddrByte (atChan .start (loadPb op s))) fun s =>
      andThen (xmit ctrlCmdByte (atChan .ctrl s)) fun s =>
      andThen (xmit op (atChan .payload s)) fun s => primStop (atChan .stop s) :=
  andThen_congr (andThen_congr (by simp))

section
variable {m : State → State} (M : Mask m)
include M

theorem Mask.sendCommand (op : Byte) {s t : State} (h : m s = m t) : Agree m (sendCommand op s) (sendCommand op t) := by
  rw [sendCommand_eq, sendCommand_eq]
  exact M.andThen (M.primStart _ (M.atChan _ (M.loadPb _ h))) fun _ _ h =>
    M.andThen (M.xmit _ (M.atChan _ h)) fun _ _ h =>
    M.andThen (M.xmit _ (M.atChan _ h)) fun _ _ h => M.primStop (M.atChan _ h)

theorem Mask.sendPayload (j : Nat) (bs : List Byte) {s t : State} (h : m s = m t) :
    Agree m (sendPayload j bs s) (sendPayload j bs t) := by
  induction bs generalizing j s t with
  | nil => exact M.primStop (M.atChan _ h)
  | cons b rest ih => exact M.andThen (M.xmit b (M.loadDix j h)) fun _ _ h => ih (j + 1) h

theorem Mask.sendDataBytes (bs : List Byte) {s t : State} (h : m s = m t) :
    Agree m (sendDataBytes bs s) (sendDataBytes bs t) :=
  M.andThen (M.primStart _ (M.atChan _ h)) fun _ _ h =>
    M.andThen (M.xmit _ (M.atChan _ h)) fun _ _ h => M.sendPayload 0 bs (M.atChan _ h)

theorem Mask.sendCommands (bs : List Byte) {s t : State} (h : m s = m t) :
    Agree m (sendCommands bs s) (sendCommands bs t) := by
  induction bs generalizing s t with
  | nil => exact ⟨rfl, h⟩
  | cons b rest ih =>
    obtain ⟨e, hc⟩ := M.sendCommand b h
    cases rest with
    | nil => exact ⟨e, hc⟩
    | cons c rest =>
      rw [sendCommands_cons, sendCommands_cons, e]
      split
      · exact ih (M.advanceIpc hc)
      · exact ⟨e, hc⟩

/-- No bus command reads a masked field. -/
theorem Mask.body (i : Instr) {s t : State} (h : m s = m t) : Agree m (body i s) (body i t) := by
  cases i with
  | start a r => exact M.primStart _ (M.runs _ h)
  | wbyte v => exact M.xmit _ (M.runs _ h)
  | stop => exact M.primStop (M.runs _ h)
  | scmd v => exact M.sendCommand _ (M.runs _ h)
  | init =>
    simp only [Machine.body, M.par h]
    exact M.sendCommands _ (M.clearIpc (M.runs _ h))
  | setcur p c => exact M.sendCommands _ (M.clearIpc (M.runs _ h))
  | wchar k =>
    simp only [Machine.body, M.par h]
    exact M.sendDataBytes _ (M.loadGidx _ (M.runs _ h))
  | _ => exact ⟨rfl, h⟩

end

/-! ### Noninterference of the sticky flags and of the registers of U9 -/

theorem stateRefuses_congr (i : Instr) {s t : State} (en : t.en = s.en) (opn : t.opn = s.opn)
    (ready : t.ready = s.ready) : stateRefuses i t = stateRefuses i s := by
  cases i <;> simp [stateRefuses, en, opn, ready]

theorem finish_sticky (i : Instr) {x y : Result × State} (h : Agree clearSticky x y) :
    clearSticky (finish i x) = clearSticky (finish i y) := by
  obtain ⟨r, s⟩ := x
  obtain ⟨r', t⟩ := y
  obtain ⟨rfl, h⟩ := h
  unfold finish
  split
  · cases r'
    · exact congrArg (fun s => endCommand .ok (setReady s)) h
    · exact congrArg (endCommand .initFailure) h
    · exact congrArg (endCommand .initFailure) h
  · exact congrArg (endCommand _) h

theorem effect_sticky (i : Instr) {s t : State} (h : clearSticky s = clearSticky t) :
    clearSticky (effect i s) = clearSticky (effect i t) := by
  have bus := finish_sticky i (mask_sticky.body i h)
  cases i with
  | nop => exact congrArg (setLast .ok) h
  | clrerr => exact congrArg (fun s => clearSticky (setLast .ok s)) h
  | binit => exact congrArg (fun s => setLast .ok { s with baud := qdivWord s.par.toParams, en := true }) h
  | wchar k =>
    cases hg : glyphIndex k with
    | none => simp only [effect, hg]; exact congrArg (setLast .unsupportedGlyph) h
    | some idx => simp only [effect, hg]; exact bus
  | _ => exact bus

/-- States that agree but for the sticky flags are one state with other values in them. -/
theorem eq_withSticky {s t : State} (h : clearSticky s = clearSticky t) :
    t = withSticky t.eTimeout t.eNack t.eInit t.eGlyph t.eCmd s := by
  have e := congrArg (withSticky t.eTimeout t.eNack t.eInit t.eGlyph t.eCmd) h.symm
  exact e

/-- Settles O45: refusals read EN, OPEN and READY, and no effect reads a sticky flag. -/
theorem stickyFlagsBlockNothing : Obligations.StickyFlagsBlockNothing := by
  intro i s t a b c d e hi h
  have agree : clearSticky s = clearSticky (withSticky a b c d e s) := rfl
  have refuses := stateRefuses_congr i (s := s) (t := withSticky a b c d e s) rfl rfl rfl
  rw [exec_effect hi] at h ⊢
  simp only [unlessRefused, refuses, Host.Outcome.next.injEq] at h ⊢
  refine ⟨_, _, _, _, _, eq_withSticky ?_⟩
  subst h
  split
  · exact congrArg (setLast .cmdRefused) agree
  · exact effect_sticky i agree

/-- The end of a command writes all the registers of U9 (log entry 7). -/
theorem endCommand_scratch (c : ResultCode) {x s t : State} (h : withScratch x s = withScratch x t) :
    endCommand c s = endCommand c t := by
  have e := congrArg (endCommand c) h
  exact e

theorem finish_scratch (i : Instr) {x : State} {y z : Result × State} (h : Agree (withScratch x) y z) :
    finish i y = finish i z := by
  obtain ⟨r, s⟩ := y
  obtain ⟨r', t⟩ := z
  obtain ⟨rfl, h⟩ := h
  have failed := endCommand_scratch .initFailure ((mask_scratch x).setSticky .initFailure h)
  have succeeded := endCommand_scratch .ok (show withScratch x (setReady s) = withScratch x (setReady t) from
    congrArg setReady h)
  unfold finish
  split
  · cases r'
    · exact succeeded
    · exact failed
    · exact failed
  · exact endCommand_scratch _ h

theorem effect_scratch {i : Instr} {s : State} (x : State) (hi : isHostCommand i) (him : immediate i s = true)
    (hr : stateRefuses i s = false) : effect i (withScratch x s) = withScratch x (effect i s) := by
  obtain ⟨w, hw⟩ := hi
  cases i with
  | nop | clrerr | binit => rfl
  | wchar k =>
    have hg : glyphIndex k = none := by simpa [immediate, hr] using him
    simp only [effect, hg]; rfl
  | start | wbyte | stop | scmd | init | setcur => simp [immediate, hr] at him
  | _ => simp [encode] at hw

/-- Settles O46: an immediate command writes none of these registers, and a bus command ends by writing them all. -/
theorem scratchRegistersNotRead : Obligations.ScratchRegistersNotRead := by
  intro i s x t hi h
  have refuses := stateRefuses_congr i (s := s) (t := withScratch x s) rfl rfl rfl
  constructor
  · intro him
    rw [exec_effect hi] at h ⊢
    simp only [unlessRefused, refuses, Host.Outcome.next.injEq] at h ⊢
    subst h
    cases hr : stateRefuses i s
    · exact effect_scratch x hi him hr
    · rfl
  · intro him
    have him' : immediate i (withScratch x s) = false := by simpa only [immediate, refuses] using him
    have e := finish_scratch i ((mask_scratch x).body i (s := s) (t := withScratch x s) rfl)
    rw [exec_of_not_immediate him, Host.Outcome.next.injEq] at h
    rw [exec_of_not_immediate him', ← e, h]

/-! ### The sequencer refines the big-step rules (R31, R178) -/

/-- At least one and at most `k` steps lead from `s` to `t`. -/
def Within (k : Nat) (s t : State) : Prop := ∃ n, 0 < n ∧ n ≤ k ∧ Host.Core.run core n s = .next t

theorem run_succ {s u : State} (n : Nat) (h : step s = .next u) :
    Host.Core.run core (n + 1) s = Host.Core.run core n u := by
  have e : core.step s = .next u := h
  simp only [Host.Core.run, e]

theorem Within.one {s t : State} (h : step s = .next t) : Within 1 s t :=
  ⟨1, by omega, by omega, run_succ 0 h⟩

theorem Within.step {k : Nat} {s u t : State} (h : step s = .next u) (w : Within k u t) : Within (k + 1) s t := by
  obtain ⟨n, _, hn, r⟩ := w
  exact ⟨n + 1, by omega, by omega, (run_succ n h).trans r⟩

theorem Within.mono {k l : Nat} {s t : State} (w : Within k s t) (h : k ≤ l) : Within l s t := by
  obtain ⟨n, h0, hn, r⟩ := w
  exact ⟨n, h0, by omega, r⟩

theorem run_add {m : Nat} {s u : State} (n : Nat) (h : Host.Core.run core m s = .next u) :
    Host.Core.run core (n + m) s = Host.Core.run core n u := by
  induction m generalizing s with
  | zero => cases h; rfl
  | succ m ih =>
    cases e : step s with
    | next v => rw [run_succ m e] at h; rw [← Nat.add_assoc, run_succ (n + m) e]; exact ih h
    | fault f => simp [Host.Core.run, show core.step s = .fault f from e] at h
    | refused r => simp [Host.Core.run, show core.step s = .refused r from e] at h

theorem Within.trans {k l : Nat} {s u t : State} (w : Within k s u) (v : Within l u t) : Within (l + k) s t := by
  obtain ⟨m, _, hm, r⟩ := w
  obtain ⟨n, _, hn, q⟩ := v
  exact ⟨n + m, by omega, by omega, (run_add n r).trans q⟩

/-! #### One primitive of an undisturbed command -/

/-- A bus command runs at primitive grain and the host presents nothing. -/
structure Undisturbed (s : State) : Prop where
  grain : s.grain = .primitive
  port : s.port = []
  busy : s.busy = true
  en : s.en = true

theorem Undisturbed.of_frame {s t : State} (h : Undisturbed s) (f : ChannelFrame s t) : Undisturbed t :=
  ⟨f.bus.grain.trans h.grain, f.bus.port.trans h.port, f.busy.trans h.busy, f.bus.en.trans h.en⟩

theorem Undisturbed.step {s : State} (h : Undisturbed s) : step s = primitiveStep s := by
  have used : consume s = s := by
    have e : consume s = { s with port := s.port.tail } := by simp [consume, h.grain]
    rw [e, h.port, List.tail_nil, ← h.port]
  have quiet : portHead s = .quiet := by simp [portHead, h.port]
  rw [Machine.step, stepOf, used, quiet]
  simp only [edge, PortIn.quiet, h.busy, goOn, h.grain]
  cases primitiveStep s <;> simp [dropIf]

theorem step_start {s : State} {ab : Byte} (h : Undisturbed s) (name : named s = .start ab) :
    step s = .next (movePointer (primStart ab s)) := by
  obtain ⟨n, e⟩ := primitiveStep_start name
  have pos : atPos .addr s = true := (atPos_iff _ s).mpr ⟨h.busy, h.en, .inr rfl, by simp [posOf, name]⟩
  rw [h.step, e, sendAddress, if_pos pos]

theorem step_byte {s : State} {pos : WirePos} {v : Byte} (h : Undisturbed s) (opn : s.opn = true)
    (name : named s = .byte pos v) : step s = .next (movePointer (xmit v s)) := by
  obtain ⟨n, e⟩ := primitiveStep_byte name (named_byte_pos name)
  have pos : atPos pos s = true := (atPos_iff _ s).mpr ⟨h.busy, h.en, .inl opn, by simp [posOf, name]⟩
  rw [h.step, e, sendAt_runs pos]

theorem step_stop {s : State} (h : Undisturbed s) (opn : s.opn = true) (name : named s = .stop) :
    step s = .next (movePointer (primStop s)) := by
  rw [h.step, primitiveStep_stop name]
  simp [sendStop, h.busy, h.en, opn]

theorem movePointer_prim {x : Result × State} (q : x.2.seq = .prim) : movePointer x = endWithResult x := by
  simp [movePointer, q]

/-! #### The primitives of a procedure, one after another (R131 to R133) -/

/-- An undisturbed SCMD, INIT, SETCUR or WCHAR, with its channel procedure. -/
structure Channel (s : State) : Prop extends Undisturbed s where
  isMacro : s.seq = .sCmd ∨ s.seq = .sInit ∨ s.seq = .sCur ∨ s.seq = .sChr

theorem Channel.of_frame {s t : State} (h : Channel s) (f : ChannelFrame s t) : Channel t :=
  ⟨h.toUndisturbed.of_frame f, by rw [f.seq]; exact h.isMacro⟩

/-- The pointer when a procedure has returned: the command goes on or ends (R178). -/
def afterProc (x : Result × State) : State :=
  match x.1 with
  | .ok => procOk x.2
  | .nack => procFailed .nack x.2
  | .timeout => procFailed .timeout x.2

/-- What the answer to a byte leaves: a procedure is abandoned exactly after a Nack (log entry 13), and the bus stays open
but for a timeout. -/
structure Answered (x : Result × State) : Prop where
  ok : x.1 = .ok → abandoning x.2 = false
  nack : x.1 = .nack → abandoning x.2 = true
  opn : x.1 ≠ .timeout → x.2.opn = true

theorem byteDone_answered (v : Byte) (a : Bool) {s : State} (opn : s.opn = true) : Answered (byteDone v a s) := by
  unfold byteDone byteResult
  split
  · next h => exact ⟨by simp, fun _ => by simpa [abandoning] using h, fun _ => by simpa using opn⟩
  · next h => exact ⟨fun _ => by simpa [abandoning] using h, by simp, fun _ => by simpa using opn⟩

theorem timeout_answered (s : State) : Answered (.timeout, s) := ⟨by simp, by simp, by simp⟩

theorem xmit_answered (v : Byte) {s : State} (opn : s.opn = true) : Answered (xmit v s) := by
  have ho : (drawByte (loadShr v s)).2.opn = true := by simpa using opn
  cases o : (drawByte s).1 with
  | acked => rw [xmit_acked v s o]; exact ⟨fun _ => by simp [abandoning], by simp, fun _ => by simpa using ho⟩
  | nacked => rw [xmit_nacked v s o]; exact byteDone_answered v false ho
  | expired => rw [xmit_expired v s o]; exact timeout_answered _

theorem primStart_answered (ab : Byte) (s : State) : Answered (primStart ab s) := by
  cases o : (drawStart s).1 with
  | free => rw [primStart_free ab s o]; exact xmit_answered ab rfl
  | expired => rw [primStart_expired ab s o]; exact timeout_answered _

/-- A byte leaves the pointer where it stands. -/
theorem xmit_pointer (v : Byte) (s : State) : (xmit v s).2.cch = s.cch ∧ (xmit v s).2.dix = s.dix := by
  cases h : (drawByte s).1
  · rw [xmit_acked v s h]; simp
  · rw [xmit_nacked v s h]; unfold byteDone byteResult; split <;> simp
  · rw [xmit_expired v s h]; simp

theorem primStart_pointer (ab : Byte) (s : State) :
    (primStart ab s).2.cch = s.cch ∧ (primStart ab s).2.dix = s.dix := by
  cases h : (drawStart s).1
  · rw [primStart_free ab s h]; simpa using xmit_pointer ab (startDone (drawStart s).2)
  · rw [primStart_expired ab s h]; simp

/-- A stop leaves the pointer and the acknowledge bit. -/
theorem primStop_pointer (s : State) : (primStop s).2.cch = s.cch ∧ (primStop s).2.ackl = s.ackl := by
  cases h : (drawStop s).1
  · rw [primStop_done s h]; simp
  · rw [primStop_expired s h]; simp

theorem primStop_abandoning (s : State) : abandoning (primStop s).2 = abandoning s := by
  simp [abandoning, (primStop_frame s).bus.par, (primStop_pointer s).2]

/-- A primitive that returned Ok before the stop: `w` is what it left of `s`. -/
structure Passed (s w : State) : Prop where
  frame : ChannelFrame s w
  opn : w.opn = true
  kept : abandoning w = false
  cch : w.cch = s.cch
  dix : w.dix = s.dix
  pb : w.pb = s.pb

/-- The closing stop of a channel procedure (R131 to R133). -/
theorem closing_step {s : State} (h : Channel s) (opn : s.opn = true) (hc : s.cch = .stop) :
    step s = .next (if abandoning s then procFailed .nack (primStop s).2 else afterProc (primStop s)) := by
  have hn : named s = .stop := by
    obtain q | q | q | q := h.isMacro <;> simp [named, q, channelPrimitive, hc]
  have moved : movePointer (primStop s) = channelDone (primStop s).1 (primStop s).2 := by
    have q := (primStop_frame s).seq
    obtain m | m | m | m := h.isMacro <;> simp [movePointer, q, m]
  rw [step_stop h.toUndisturbed opn hn, moved]
  unfold channelDone
  rw [if_pos ((primStop_pointer s).1.trans hc), primStop_abandoning]
  rfl

theorem stop_stage {s : State} (h : Channel s) (opn : s.opn = true) (hc : s.cch = .stop) (kept : abandoning s = false) :
    Within 1 s (afterProc (primStop s)) := by
  have e := closing_step h opn hc
  rw [kept] at e
  exact .one e

/-- A primitive before the stop: after Ok the procedure goes on, after a Nack it is closed, after a timeout it is over. -/
theorem within_andThen {n : Nat} {s : State} {x : Result × State} {k : State → Result × State}
    (e : step s = .next (movePointer x)) (h : Channel x.2) (hc : x.2.cch ≠ .stop) (ha : Answered x)
    (hk : x.1 = .ok → Within (n + 1) (nextPrimitive x.2) (afterProc (k x.2))) :
    Within (n + 2) s (afterProc (andThen x k)) := by
  cases hr : x.1 with
  | ok =>
    rw [movePointer_next h.isMacro hr hc] at e
    rw [andThen_ok k hr]
    exact (hk hr).step e
  | nack =>
    rw [movePointer_nack h.isMacro hr hc] at e
    have hs : Channel (atChan .stop x.2) := h.of_frame (atChan_frame _ _)
    have closing := closing_step hs (ha.opn (by simp [hr])) rfl
    rw [show abandoning (atChan .stop x.2) = true from ha.nack hr] at closing
    have w : Within 2 s (afterProc (andThen x k)) := by
      simp only [andThen, hr]
      exact (Within.one closing).step e
    exact w.mono (by omega)
  | timeout =>
    rw [movePointer_timeout h.isMacro hr hc] at e
    have w : Within 1 s (afterProc (andThen x k)) := by
      simp only [andThen, hr]
      exact .one e
    exact w.mono (by omega)

theorem start_stage {n : Nat} {s : State} {k : State → Result × State} (h : Channel s) (hc : s.cch = .start)
    (hk : ∀ w, Passed s w → Within (n + 1) (atChan .ctrl w) (afterProc (k w))) :
    Within (n + 2) s (afterProc (andThen (primStart devAddrByte s) k)) := by
  have f := primStart_frame devAddrByte s
  have ha := primStart_answered devAddrByte s
  obtain ⟨cch, dix⟩ := primStart_pointer devAddrByte s
  have hn : named s = .start devAddrByte := by
    obtain q | q | q | q := h.isMacro <;> simp [named, q, channelPrimitive, hc]
  refine within_andThen (step_start h.toUndisturbed hn) (h.of_frame f) (by simp [cch, hc]) ha fun hr => ?_
  rw [show nextPrimitive (primStart devAddrByte s).2 = atChan .ctrl (primStart devAddrByte s).2 by
    simp only [nextPrimitive, cch, hc]]
  exact hk _ ⟨f, ha.opn (by simp [hr]), ha.ok hr, cch, dix, by simp⟩

theorem byte_stage {n : Nat} {s : State} {k : State → Result × State} {pos : WirePos} {v : Byte} (h : Channel s)
    (opn : s.opn = true) (hc : s.cch ≠ .stop) (name : named s = .byte pos v)
    (hk : ∀ w, Passed s w → Within (n + 1) (nextPrimitive w) (afterProc (k w))) :
    Within (n + 2) s (afterProc (andThen (xmit v s) k)) := by
  have f := xmit_frame v s
  have ha := xmit_answered v opn
  obtain ⟨cch, dix⟩ := xmit_pointer v s
  exact within_andThen (step_byte h.toUndisturbed opn name) (h.of_frame f) (by rwa [cch]) ha fun hr =>
    hk _ ⟨f, ha.opn (by simp [hr]), ha.ok hr, cch, dix, by simp⟩

/-- The byte the pointer names in a command transaction's payload is PB, opcode or parameter (R131). -/
theorem named_command_payload {s : State} (h : Channel s) (q : s.seq ≠ .sChr) (hc : s.cch = .payload) :
    ∃ pos, named s = .byte pos s.pb := by
  have e : named s = channelPrimitive s := by obtain m | m | m | m := h.isMacro <;> simp [named, m]
  rw [e]
  unfold channelPrimitive
  simp only [hc, if_neg q]
  split
  · exact ⟨_, rfl⟩
  · exact ⟨_, rfl⟩

theorem named_ctrl {s : State} (h : Channel s) (hc : s.cch = .ctrl) :
    named s = if s.seq = .sChr then .byte .ctrlData ctrlDataByte else .byte .ctrlCmd ctrlCmdByte := by
  obtain m | m | m | m := h.isMacro <;> simp [named, m, channelPrimitive, hc]

/-- `sendCommand` is at most four primitives at the pointer (R131). -/
theorem sendCommand_within {s : State} (h : Channel s) (q : s.seq ≠ .sChr) (hc : s.cch = .start) :
    Within 4 s (afterProc (sendCommand s.pb s)) := by
  have begins : atChan .start (loadPb s.pb s) = s := by unfold atChan loadPb; rw [← hc]
  rw [sendCommand_eq, begins]
  refine start_stage h hc fun w p => ?_
  have hw : Channel (atChan .ctrl w) := (h.of_frame p.frame).of_frame (atChan_frame _ _)
  have qw : (atChan .ctrl w).seq ≠ .sChr := by simpa [p.frame.seq] using q
  refine byte_stage hw p.opn (by simp) ((named_ctrl hw rfl).trans (if_neg qw)) fun x px => ?_
  rw [nextPrimitive_ctrl px.cch, if_neg (by rw [px.frame.seq]; exact qw)]
  have hx : Channel (atChan .payload x) := (hw.of_frame px.frame).of_frame (atChan_frame _ _)
  have qx : (atChan .payload x).seq ≠ .sChr := by simpa [px.frame.seq] using qw
  obtain ⟨pos, name⟩ := named_command_payload hx qx rfl
  rw [show (atChan .payload x).pb = s.pb from px.pb.trans p.pb] at name
  refine byte_stage hx px.opn (by simp) name fun y py => ?_
  rw [nextPrimitive_payload py.cch (by rw [py.frame.seq]; exact qx)]
  exact stop_stage ((hx.of_frame py.frame).of_frame (atChan_frame _ _)) py.opn rfl py.kept

/-! #### The loop of INIT and SETCUR (R140, R160) -/

/-- The bytes that the loop of the running INIT or SETCUR has still to send, IPC at the first of them. -/
def remaining (s : State) : List Byte :=
  match s.seq with
  | .sInit => (irom s.par.toParams).drop s.ipc.toNat
  | .sCur => (cursorBytes (pageField s.cmd) (colField s.cmd)).drop s.ipc.toNat
  | _ => []

theorem remaining_of_frame {s t : State} (f : ChannelFrame s t) : remaining t = remaining s := by
  simp only [remaining, f.seq, f.bus.par, f.bus.cmd, f.ipc]

/-- The end of INIT or SETCUR after its loop. -/
def afterLoop (x : Result × State) : State := if x.2.seq = .sInit then endInit x else endWithResult x

theorem getD_of_drop {l : List Byte} {n : Nat} {b c : Byte} {rest : List Byte} (h : l.drop n = b :: c :: rest) :
    l.getD (n + 1) 0 = c ∧ l.drop (n + 1) = c :: rest ∧ n + 1 < l.length := by
  have hd : l.drop (n + 1) = c :: rest := by rw [← List.tail_drop, h]; rfl
  have len := congrArg List.length h
  refine ⟨?_, hd, by simp at len; omega⟩
  rw [List.getD_eq_getElem?_getD, ← List.head?_drop, hd]; rfl

theorem nextCommand_ipc_toNat {s : State} (b : Byte) (range : s.ipc.toNat < 22) :
    (nextCommand b s).ipc.toNat = s.ipc.toNat + 1 := by
  simp [nextCommand, BitVec.toNat_add]; omega

/-- After an Ok that is not the last, the pointer is where the next `sendCommand` begins. -/
theorem procOk_next {s : State} {b c : Byte} {rest : List Byte} (h : remaining s = b :: c :: rest) :
    procOk s = nextCommand c s ∧ remaining (nextCommand c s) = c :: rest := by
  unfold remaining at h
  split at h
  · next q =>
    obtain ⟨hc, hd, range⟩ := getD_of_drop h
    have range : s.ipc.toNat < 22 := by simp [irom] at range; omega
    refine ⟨by simp only [procOk, q, if_pos range, iromAt, hc], ?_⟩
    simp only [remaining, nextCommand_seq, nextCommand_par, q, nextCommand_ipc_toNat c range, hd]
  · next q =>
    obtain ⟨hc, hd, range⟩ := getD_of_drop h
    have range : s.ipc.toNat < 2 := by simp [cursorBytes] at range; omega
    refine ⟨by simp only [procOk, q, if_pos range, cursorByteAt, hc], ?_⟩
    have e := nextCommand_ipc_toNat c (s := s) (by omega)
    simp only [remaining, nextCommand_seq, nextCommand_cmd, q, e, hd]
  · simp at h

theorem afterProc_last {x : Result × State} {b : Byte} (h : remaining x.2 = [b]) : afterProc x = afterLoop x := by
  obtain ⟨r, s⟩ := x
  have len : (remaining s).length = 1 := congrArg List.length h
  unfold remaining at len
  split at len
  · next q =>
    have last : s.ipc.toNat = 22 := by simp [irom] at len; omega
    cases r <;> simp [afterProc, afterLoop, procOk, procFailed, endInit, q, last]
  · next q =>
    have last : s.ipc.toNat = 2 := by simp [cursorBytes] at len; omega
    cases r <;> simp [afterProc, afterLoop, procOk, procFailed, endWithResult, resultCode, q, last]
  · simp at len

theorem afterProc_failed {x : Result × State} (h : x.1 ≠ .ok) : afterProc x = afterLoop x := by
  obtain ⟨r, s⟩ := x
  cases r
  · exact absurd rfl h
  all_goals simp only [afterProc, afterLoop, procFailed, endInit, endWithResult]

/-- The first `sendCommand` of a loop sets PB and CCH itself. -/
theorem sendCommands_begins (c : Byte) (rest : List Byte) (s : State) :
    sendCommands (c :: rest) (atChan .start (loadPb c s)) = sendCommands (c :: rest) s := by
  have e : sendCommand c (atChan .start (loadPb c s)) = sendCommand c s := rfl
  cases rest with
  | nil => exact e
  | cons d rest => rw [sendCommands_cons, sendCommands_cons, e]

theorem Channel.nextCommand {s : State} (h : Channel s) (b : Byte) : Channel (nextCommand b s) :=
  ⟨⟨by simp [h.grain], by simp [h.port], by simp [h.busy], by simp [h.en]⟩, by simpa using h.isMacro⟩

/-- The loop is at most four primitives for each byte it has to send. -/
theorem sendCommands_within {bs : List Byte} {s : State} (h : Channel s) (q : s.seq ≠ .sChr) (hc : s.cch = .start)
    (hb : remaining s = bs) (pb : bs.head? = some s.pb) : Within (4 * bs.length) s (afterLoop (sendCommands bs s)) := by
  induction bs generalizing s with
  | nil => simp at pb
  | cons b rest ih =>
    obtain rfl : b = s.pb := by simpa using pb
    have w := sendCommand_within h q hc
    have f := sendCommand_frame s.pb s
    have hb' := (remaining_of_frame f).trans hb
    cases rest with
    | nil => rw [afterProc_last hb'] at w; exact w
    | cons c rest =>
      rw [sendCommands_cons]
      split
      · next ok =>
        obtain ⟨next, rem⟩ := procOk_next hb'
        have v := ih ((h.of_frame f).nextCommand c) (by simpa [f.seq] using q) (by simp) rem (by simp)
        rw [nextCommand, sendCommands_begins] at v
        rw [show afterProc (sendCommand s.pb s) = nextCommand c (sendCommand s.pb s).2 by
          simp only [afterProc, ok, next]] at w
        exact (w.trans v).mono (by simp; omega)
      · next failed =>
        rw [afterProc_failed failed] at w
        exact w.mono (by simp)

/-! #### The data transaction of WCHAR (R132, R161) -/

theorem dataByteAt_eq {s : State} {b : Byte} {j : Nat} (dix : s.dix.toNat = j) (range : s.gidx.toNat ≤ 25)
    (hb : (cellBytes s.par.toParams s.gidx.toNat)[j]? = some b) : dataByteAt s = .byte .dataPayload b := by
  have hj : j < 6 := by
    obtain ⟨h, -⟩ := List.getElem?_eq_some_iff.mp hb
    simpa [cellBytes, glyphColumns] using h
  have present : ∀ k, k < 5 → gromAddr s.gidx.toNat k < gromSize := by
    intro k hk; simp only [gromAddr, gromSize, glyphN, glyphW]; omega
  unfold dataByteAt
  rw [dix]
  interval_cases j <;> simp_all [cellBytes, glyphColumns, glyphW]

/-- The payload of WCHAR's data transaction from byte `j`: one primitive for each byte, and the stop. -/
theorem sendPayload_within {bs : List Byte} {j : Nat} {s : State} (h : Channel s) (q : s.seq = .sChr)
    (opn : s.opn = true) (hc : s.cch = .payload) (dix : s.dix.toNat = j) (range : s.gidx.toNat ≤ 25)
    (hb : (cellBytes s.par.toParams s.gidx.toNat).drop j = bs) (more : bs ≠ []) :
    Within (bs.length + 1) s (afterProc (sendPayload j bs s)) := by
  induction bs generalizing j s with
  | nil => exact absurd rfl more
  | cons b rest ih =>
    have at_j : loadDix j s = s := by rw [← dix]; simp [loadDix]
    have tail : (cellBytes s.par.toParams s.gidx.toNat).drop (j + 1) = rest := by rw [← List.tail_drop, hb]; rfl
    have len := congrArg List.length hb
    simp only [List.length_drop, cellBytes, glyphColumns, separator, List.length_append, List.length_cons,
      List.length_nil] at len
    have name : named s = .byte .dataPayload b := by
      have e := dataByteAt_eq dix range (b := b) (by rw [← List.head?_drop, hb]; rfl)
      simp [named, q, channelPrimitive, hc, e]
    rw [sendPayload, at_j]
    refine byte_stage h opn (by simp [hc]) name fun w p => ?_
    have hw := h.of_frame p.frame
    cases rest with
    | nil =>
      have hj : ¬ j < 5 := by simp at len; omega
      rw [show nextPrimitive w = atChan .stop w by
        simp [nextPrimitive, p.cch, hc, p.dix, dix, glyphW, hj]]
      exact stop_stage (hw.of_frame (atChan_frame _ _)) p.opn rfl p.kept
    | cons c rest =>
      have hj : j < 5 := by simp at len; omega
      rw [show nextPrimitive w = loadDix (j + 1) w by
        simp [nextPrimitive, p.cch, hc, p.dix, dix, glyphW, hj, p.frame.seq, q]]
      have e : sendPayload (j + 1) (c :: rest) (loadDix (j + 1) w) = sendPayload (j + 1) (c :: rest) w := rfl
      rw [← e]
      exact ih (hw.of_frame (loadDix_frame _ _)) (p.frame.seq.trans q) p.opn (p.cch.trans hc)
        (by simp; omega) (by simpa [p.frame.gidx] using range) (by simpa [p.frame.gidx, p.frame.bus.par] using tail)
        (by simp)

/-- `sendDataBytes` of a glyph cell is at most nine primitives at the pointer (R132, R161). -/
theorem sendDataBytes_within {s : State} (h : Channel s) (q : s.seq = .sChr) (hc : s.cch = .start)
    (range : s.gidx.toNat ≤ 25) :
    Within 9 s (afterProc (sendDataBytes (cellBytes s.par.toParams s.gidx.toNat) s)) := by
  have begins : atChan .start s = s := by unfold atChan; rw [← hc]
  rw [sendDataBytes, begins]
  refine start_stage h hc fun w p => ?_
  have hw : Channel (atChan .ctrl w) := (h.of_frame p.frame).of_frame (atChan_frame _ _)
  have qw : (atChan .ctrl w).seq = .sChr := p.frame.seq.trans q
  refine byte_stage hw p.opn (by simp) ((named_ctrl hw rfl).trans (if_pos qw)) fun x px => ?_
  rw [nextPrimitive_ctrl px.cch, if_pos (px.frame.seq.trans qw)]
  have f : ChannelFrame s x := (p.frame.trans (atChan_frame _ _)).trans px.frame
  have hx : Channel (atChan .payload (loadDix 0 x)) :=
    ((h.of_frame f).of_frame (loadDix_frame 0 x)).of_frame (atChan_frame _ _)
  have w := sendPayload_within (bs := cellBytes s.par.toParams s.gidx.toNat) (j := 0) hx (f.seq.trans q) px.opn rfl rfl
    (by simpa [f.gidx] using range) (by simp [f.gidx, f.bus.par]) (by simp [cellBytes])
  exact w

/-! #### Every bus command -/

/-- The pointer's command is a primitive of the host, which ends as its big-step rule does. -/
theorem within_prim {s : State} {x : Result × State} (e : step s = .next (movePointer x)) (q : x.2.seq = .prim) :
    Within 92 s (endWithResult x) :=
  (Within.one (movePointer_prim q ▸ e)).mono (by omega)

theorem afterProc_plain {x : Result × State} (q : x.2.seq = .sCmd ∨ x.2.seq = .sChr) : afterProc x = endWithResult x := by
  obtain ⟨r, s⟩ := x
  obtain q | q : s.seq = .sCmd ∨ s.seq = .sChr := q
  all_goals cases r <;> simp [afterProc, procOk, procFailed, endWithResult, resultCode, q]

theorem sendCommands_seq (bs : List Byte) (s : State) : (sendCommands bs s).2.seq = s.seq := by
  induction bs generalizing s with
  | nil => rfl
  | cons b rest ih =>
    have f := sendCommand_frame b s
    cases rest with
    | nil => exact f.seq
    | cons c rest =>
      rw [sendCommands_cons]
      split
      · exact (ih _).trans f.seq
      · exact f.seq

/-- The loop from where its command begins: PB holds the first byte. -/
theorem loop_within {b : Byte} {rest : List Byte} {s : State} (h : Channel s) (q : s.seq ≠ .sChr)
    (hb : remaining s = b :: rest) :
    Within (4 * (b :: rest).length) (atChan .start (loadPb b s)) (afterLoop (sendCommands (b :: rest) s)) := by
  have f := (loadPb_frame b s).trans (atChan_frame .start _)
  have w := sendCommands_within (h.of_frame f) q rfl ((remaining_of_frame f).trans hb) rfl
  rwa [sendCommands_begins] at w

/-- A bus command has begun: BUSY and SEQ are set in a state with PHP idle. -/
theorem runs_undisturbed (q : Seq) {s : State} (grain : s.grain = .primitive) (port : s.port = []) (en : s.en = true) :
    Undisturbed (runs q { s with php := none }) := ⟨grain, port, rfl, en⟩

theorem Undisturbed.clearIpc {s : State} (h : Undisturbed s) : Undisturbed (clearIpc s) := ⟨h.grain, h.port, h.busy, h.en⟩

theorem Undisturbed.loadGidx {s : State} (h : Undisturbed s) (n : Nat) : Undisturbed (loadGidx n s) :=
  ⟨h.grain, h.port, h.busy, h.en⟩

/-- From where a bus command begins, the pointer's primitives lead to the end of its big-step rule. -/
theorem begin_within {w : Word16} {i : Instr} {s : State} (d : Decoded w i) (cmd : s.cmd = w)
    (grain : s.grain = .primitive) (port : s.port = []) (hb : BusCommand s i) :
    Within 92 (begin i s) (finish i (body i { s with php := none })) := by
  have u (q : Seq) := runs_undisturbed q grain port hb.en
  cases d with
  | nop | binit | clrerr => cases hb
  | start op lo =>
    have name : named (runs .prim { s with php := none }) = .start (addrByte (addrField w) false) := by
      simp [named, hostPrimitive, cmd, op, lo]
    exact within_prim (step_start (u .prim) name) (primStart_frame _ _).seq
  | wbyte op =>
    cases hb with
    | wbyte v en opn =>
      have name : named (runs .prim { s with php := none }) = .byte .dataPayload (loField w) := by
        simp [named, hostPrimitive, cmd, op]
      exact within_prim (step_byte (u .prim) opn name) (xmit_frame _ _).seq
  | stop op =>
    cases hb with
    | stop en opn =>
      have name : named (runs .prim { s with php := none }) = .stop := by simp [named, hostPrimitive, cmd, op]
      exact within_prim (step_stop (u .prim) opn name) (primStop_frame _).seq
  | scmd =>
    have f := (loadPb_frame (loField w) (runs .sCmd { s with php := none })).trans (atChan_frame .start _)
    have c : Channel (begin (.scmd (loField w)) s) := ⟨(u .sCmd).of_frame f, .inl rfl⟩
    have v := sendCommand_within c (by simp [begin]) rfl
    rw [afterProc_plain (.inl (sendCommand_frame _ _).seq)] at v
    exact v.mono (by omega)
  | init =>
    have c : Channel (clearIpc (runs .sInit { s with php := none })) := ⟨(u .sInit).clearIpc, .inr (.inl rfl)⟩
    have v := loop_within c (by simp) rfl
    rw [afterLoop, if_pos (by rw [sendCommands_seq]; rfl)] at v
    exact v
  | setcur =>
    subst cmd
    have c : Channel (clearIpc (runs .sCur { s with php := none })) := ⟨(u .sCur).clearIpc, .inr (.inr (.inl rfl))⟩
    have v := loop_within c (by simp) rfl
    rw [afterLoop, if_neg (by rw [sendCommands_seq]; simp)] at v
    exact v.mono (by simp)
  | wchar =>
    cases hb with
    | wchar k idx en glyph =>
      have range := glyphIndex_le glyph
      have f := atChan_frame .start (loadGidx idx (runs .sChr { s with php := none }))
      have c : Channel (atChan .start (loadGidx idx (runs .sChr { s with php := none }))) :=
        ⟨((u .sChr).loadGidx idx).of_frame f, .inr (.inr (.inr rfl))⟩
      have at_idx : (atChan .start (loadGidx idx (runs .sChr { s with php := none }))).gidx.toNat = idx := by
        simp; omega
      have v := sendDataBytes_within c rfl rfl (by omega)
      rw [at_idx, afterProc_plain (.inr (sendDataBytes_frame _ _).seq)] at v
      have v' := v.mono (show 9 ≤ 92 by omega)
      simp only [begin, body, glyph, Option.getD_some]
      exact v'

/-- Settles O47: where the command begins the pointer is in a state that differs from the command's by PHP, which no bus
command reads (O46), and from there each primitive at the pointer is the next one of the big-step rule. -/
theorem sequencerRefinesCommands : Obligations.SequencerRefinesCommands := by
  intro w i s d cmd grain port _ him
  have hd := decode_ok d
  obtain ⟨t, e⟩ := exec_hostCommand i s hd.isHostCommand
  have scratch := scratchRegistersNotRead i s { s with php := none } t hd.isHostCommand e
  have him' : immediate i { s with php := none } = false := him
  have e' := exec_of_not_immediate him'
  obtain rfl : finish i (body i { s with php := none }) = t :=
    Host.Outcome.next.inj (e'.symm.trans (scratch.2 him))
  obtain ⟨n, h0, hn, r⟩ := begin_within hd cmd grain port (busCommand_of_not_immediate him)
  exact ⟨n, _, h0, hn, r, e, (finish_ends i _).idle⟩

end Sys2Proof.Machine
end

section
/-! The display of R56 through the data transaction of one cell (R55, R56, R163): a row of bytes stored one after another,
and the pointers while it comes in. -/

namespace Sys2Proof.Machine

/-! ### A row of bytes stored in the known memory (R55) -/

/-- The memory with the bytes `bs` known from address `a` on. -/
def writeBytes (m : Memory) (a : Nat) : List Byte → Memory
  | [] => m
  | b :: bs => writeBytes (writeMem m a b) (a + 1) bs

theorem writeBytes_append_singleton (m : Memory) (a : Nat) (bs : List Byte) (b : Byte) :
    writeBytes m a (bs ++ [b]) = writeMem (writeBytes m a bs) (a + bs.length) b := by
  induction bs generalizing m a with
  | nil => rfl
  | cons v bs ih =>
    have addr : a + 1 + bs.length = a + (v :: bs).length := by simp; omega
    exact (ih _ _).trans (by rw [addr, writeBytes])

/-- Addresses below the first byte stored and above the last one keep what was known there. -/
theorem readMem_writeBytes_outside (m : Memory) (a x : Nat) (bs : List Byte) (h : x < a ∨ a + bs.length ≤ x) :
    readMem (writeBytes m a bs) x = readMem m x := by
  induction bs generalizing m a with
  | nil => rfl
  | cons b bs ih =>
    rw [List.length_cons] at h
    rw [writeBytes, ih _ _ (by omega), readMem_write_other _ _ _ _ (by omega)]

/-- Byte `j` of the row is known at the `j`-th address. -/
theorem readMem_writeBytes_inside (m : Memory) (a j : Nat) (bs : List Byte) (h : j < bs.length) :
    readMem (writeBytes m a bs) (a + j) = bs[j]? := by
  induction bs generalizing m a j with
  | nil => cases h
  | cons b bs ih =>
    cases j with
    | zero => rw [writeBytes, readMem_writeBytes_outside _ _ _ _ (by omega)]; exact readMem_write_same m a b
    | succ j =>
      have addr : a + (j + 1) = a + 1 + j := by omega
      rw [writeBytes, addr]
      exact ih _ _ _ (Nat.lt_of_succ_lt_succ h)

/-! ### The data transaction at the display (R56 (b), (c)) -/

theorem displayAfter_append (d : Display) (t u : List Event) :
    displayAfter d (t ++ u) = displayAfter (displayAfter d t) u := List.foldl_append

/-- A data transaction opens the memory to its payload and closes it again, whatever the receiver was at before. -/
theorem display_dataEvents (d : Display) (bs : List Byte) :
    displayAfter d (dataEvents bs) =
      { displayAfter ⟨d.page, d.column, d.mem, .datas, true, .nothing⟩ (bs.map (.byte · true)) with
        place := .nothing } := by
  rw [dataEvents, displayAfter_append, displayAfter_append]
  rfl

/-- Data bytes that end before column 127 is reached are stored in a row, and the column pointer has advanced by their
number on the same page. -/
theorem display_dataBytes (bs : List Byte) (p : BitVec 3) (c : BitVec 7) (m : Memory) (h : c.toNat + bs.length < 128) :
    displayAfter ⟨some p, some c, m, .datas, true, .nothing⟩ (bs.map (.byte · true)) =
      ⟨some p, some (c + BitVec.ofNat 7 bs.length), writeBytes m (displayAddr p c) bs, .datas, true, .nothing⟩ := by
  induction bs generalizing c m with
  | nil => simp [displayAfter, writeBytes]
  | cons b bs ih =>
    rw [List.length_cons] at h
    have next : (c + 1).toNat = c.toNat + 1 := by bv_omega
    have addr : displayAddr p (c + 1) = displayAddr p c + 1 := by rw [displayAddr, displayAddr, next]; rfl
    have column : c + 1 + BitVec.ofNat 7 bs.length = c + BitVec.ofNat 7 (bs.length + 1) := by
      rw [BitVec.add_assoc, Nat.add_comm, BitVec.ofNat_add]; rfl
    calc displayAfter ⟨some p, some c, m, .datas, true, .nothing⟩ ((b :: bs).map (.byte · true))
        = displayAfter (displayData b ⟨some p, some c, m, .datas, true, .nothing⟩) (bs.map (.byte · true)) := rfl
      _ = _ := by rw [display_data _ _ _ _ _ _ (by omega), ih _ _ (by omega), addr, column]; rfl

/-- Data bytes of which the last is at column 127 are stored in a row, and the pointers are then unknown (N14, U3). -/
theorem display_dataBytes_rowEnd (bs : List Byte) (b : Byte) (p : BitVec 3) (c : BitVec 7) (m : Memory)
    (h : c.toNat + bs.length = 127) :
    displayAfter ⟨some p, some c, m, .datas, true, .nothing⟩ ((bs ++ [b]).map (.byte · true)) =
      ⟨none, none, writeBytes m (displayAddr p c) (bs ++ [b]), .datas, true, .nothing⟩ := by
  have column : c + BitVec.ofNat 7 bs.length = 127 := by
    apply BitVec.eq_of_toNat_eq
    simp [h]
  have addr : displayAddr p 127 = displayAddr p c + bs.length := by
    rw [displayAddr, displayAddr, Nat.add_assoc, h]; rfl
  rw [List.map_append, displayAfter_append, display_dataBytes _ _ _ _ (by omega), column, writeBytes_append_singleton,
    ← addr]
  exact display_data_last b p _ .datas .nothing

/-! ### SETCUR and one cell (R160, R161, R163) -/

/-- The transactions of SETCUR `p`, `c` and of the cell of glyph row `idx`. -/
def cellEventsAt (par : Params) (p : BitVec 3) (c : BitVec 7) (idx : Nat) : List Event :=
  (cursorBytes p c).flatMap commandEvents ++ dataEvents (cellBytes par idx)

/-- SETCUR leaves nothing to chance: the cell's bytes come in at page `p` from column `c`, whatever the display was at. -/
theorem display_cellEventsAt (d : Display) (par : Params) (p : BitVec 3) (c : BitVec 7) (idx : Nat) :
    displayAfter d (cellEventsAt par p c idx) =
      { displayAfter ⟨some p, some c, d.mem, .datas, true, .nothing⟩ ((cellBytes par idx).map (.byte · true)) with
        place := .nothing } := by
  rw [cellEventsAt, displayAfter_append, display_setcur, display_dataEvents]

/-- A cell that ends before column 127. -/
theorem display_cell (d : Display) (par : Params) (p : BitVec 3) (c : BitVec 7) (idx : Nat) (h : c.toNat + 6 < 128) :
    displayAfter d (cellEventsAt par p c idx) =
      ⟨some p, some (c + 6), writeBytes d.mem (displayAddr p c) (cellBytes par idx), .nothing, true, .nothing⟩ := by
  rw [display_cellEventsAt, display_dataBytes (cellBytes par idx) p c d.mem h]
  rfl

/-- A cell that ends in column 127: its separator is the last byte of the row. -/
theorem display_cell_rowEnd (d : Display) (par : Params) (p : BitVec 3) (c : BitVec 7) (idx : Nat)
    (h : c.toNat + 6 = 128) :
    displayAfter d (cellEventsAt par p c idx) =
      ⟨none, none, writeBytes d.mem (displayAddr p c) (cellBytes par idx), .nothing, true, .nothing⟩ := by
  have five : c.toNat + (glyphColumns par idx).length = 127 := Nat.succ.inj h
  rw [display_cellEventsAt, cellBytes, display_dataBytes_rowEnd _ _ _ _ _ five]

/-- Any cell that stays inside the row is stored whole. -/
theorem display_cell_mem (d : Display) (par : Params) (p : BitVec 3) (c : BitVec 7) (idx : Nat)
    (h : c.toNat + 6 ≤ 128) :
    (displayAfter d (cellEventsAt par p c idx)).mem = writeBytes d.mem (displayAddr p c) (cellBytes par idx) := by
  rcases Nat.lt_or_eq_of_le h with inside | rowEnd
  · rw [display_cell d par p c idx inside]
  · rw [display_cell_rowEnd d par p c idx rowEnd]

/-- Settles O60: SETCUR fixes the pointers, so the six data bytes are one row of writes from there; only the byte in column
127 loses the pointers. -/
theorem displayHoldsTheCell : Obligations.DisplayHoldsTheCell := by
  intro d par p c idx room t d'
  have mem : d'.mem = writeBytes d.mem (displayAddr p c) (cellBytes par idx) := display_cell_mem d par p c idx room
  refine ⟨fun j hj => ?cell, fun a ha => ?frame, fun inside => ?inside, fun rowEnd => ?rowEnd⟩
  case cell => rw [mem]; exact readMem_writeBytes_inside _ _ _ _ hj
  case frame => rw [mem]; exact readMem_writeBytes_outside _ _ _ _ ha
  case inside =>
    have e : d' = _ := display_cell d par p c idx inside
    rw [e]; exact ⟨rfl, rfl⟩
  case rowEnd =>
    have e : d' = _ := display_cell_rowEnd d par p c idx rowEnd
    rw [e]; exact ⟨rfl, rfl⟩

end Sys2Proof.Machine
end

section
/-! Proofs of the statements about the encoding: the decoder as the ten match and mask rows of R74, its two round trips with
the encoder, and the bytes that R79 computes. -/

namespace Sys2Proof.Machine

/-! ### A command word and its three fields (R70) -/

theorem cmdWord_fields (w : Word16) : cmdWord (opField w) (hiField w) (loField w) = w := by
  have high : opField w ++ hiField w = w.extractLsb' 8 8 := BitVec.extractLsb'_append_extractLsb'_eq_extractLsb' rfl
  have all : w.extractLsb' 8 8 ++ loField w = w.extractLsb' 0 16 := BitVec.extractLsb'_append_extractLsb'_eq_extractLsb' rfl
  rw [cmdWord, high, all, BitVec.extractLsb'_eq_self]

theorem cmdWord_high (op hi : BitVec 4) (lo : Byte) : (cmdWord op hi lo).extractLsb' 8 8 = op ++ hi :=
  BitVec.extractLsb'_append_eq_left

theorem opField_cmdWord (op hi : BitVec 4) (lo : Byte) : opField (cmdWord op hi lo) = op := by
  have e : opField (cmdWord op hi lo) = ((cmdWord op hi lo).extractLsb' 8 8).extractLsb' 4 4 := by
    ext i hi
    simp [opField, Nat.lt_of_lt_of_le (Nat.add_lt_add_left hi 4), ← Nat.add_assoc]
  rw [e, cmdWord_high, BitVec.extractLsb'_append_eq_left]

theorem hiField_cmdWord (op hi : BitVec 4) (lo : Byte) : hiField (cmdWord op hi lo) = hi := by
  have e : hiField (cmdWord op hi lo) = ((cmdWord op hi lo).extractLsb' 8 8).extractLsb' 0 4 := by
    ext i hi
    simp [hiField, Nat.lt_of_lt_of_le hi]
  rw [e, cmdWord_high, BitVec.extractLsb'_append_eq_right]

theorem loField_cmdWord (op hi : BitVec 4) (lo : Byte) : loField (cmdWord op hi lo) = lo :=
  BitVec.extractLsb'_append_eq_right

theorem cmdWord_inj {a b a' b' : BitVec 4} {c c' : Byte} :
    cmdWord a b c = cmdWord a' b' c' ↔ a = a' ∧ b = b' ∧ c = c' := by
  constructor
  · intro h
    have op := congrArg opField h
    have hi := congrArg hiField h
    have lo := congrArg loField h
    simp only [opField_cmdWord, hiField_cmdWord, loField_cmdWord] at op hi lo
    exact ⟨op, hi, lo⟩
  · rintro ⟨rfl, rfl, rfl⟩; rfl

theorem cmdWord_and (a b m₁ m₂ : BitVec 4) (c m₃ : Byte) :
    cmdWord a b c &&& cmdWord m₁ m₂ m₃ = cmdWord (a &&& m₁) (b &&& m₂) (c &&& m₃) :=
  BitVec.and_append.trans (congrArg (· ++ (c &&& m₃)) BitVec.and_append)

/-- A mask and a match compare the three fields of a word one by one. -/
theorem and_eq_cmdWord_iff {w : Word16} {m₁ m₂ a b : BitVec 4} {m₃ c : Byte} :
    w &&& cmdWord m₁ m₂ m₃ = cmdWord a b c ↔ opField w &&& m₁ = a ∧ hiField w &&& m₂ = b ∧ loField w &&& m₃ = c := by
  rw [← cmdWord_inj, ← cmdWord_and, cmdWord_fields]

/-- A mask of one bit reads that bit. -/
theorem and_twoPow_eq_zero_iff {n : Nat} {x : BitVec n} {i : Nat} (h : i < n) :
    x &&& BitVec.twoPow n i = 0 ↔ x.getLsbD i = false := by
  have nonzero : BitVec.twoPow n i ≠ 0#n := fun e => by
    simpa [BitVec.getLsbD_twoPow, h] using congrArg (·.getLsbD i) e
  rw [BitVec.and_twoPow]
  split <;> simp_all

theorem hiField_getLsbD (w : Word16) {i : Nat} (h : i < 4) : (hiField w).getLsbD i = w.getLsbD (8 + i) := by
  simp [hiField, h]

theorem loField_getLsbD (w : Word16) {i : Nat} (h : i < 8) : (loField w).getLsbD i = w.getLsbD i := by
  simp [loField, h]

/-! ### The four masks of the CMD16 rows (R74) -/

theorem mask_bare_iff {w : Word16} {op : BitVec 4} :
    w &&& 0xFFFF = cmdWord op 0 0 ↔ opField w = op ∧ hiField w = 0 ∧ loField w = 0 := by
  have masked := and_eq_cmdWord_iff (w := w) (a := op) (b := 0) (c := 0)
    (m₁ := .allOnes 4) (m₂ := .allOnes 4) (m₃ := .allOnes 8)
  rwa [BitVec.and_allOnes, BitVec.and_allOnes, BitVec.and_allOnes] at masked

theorem mask_withLo_iff {w : Word16} {op : BitVec 4} :
    w &&& 0xFF00 = cmdWord op 0 0 ↔ opField w = op ∧ hiField w = 0 := by
  have masked := and_eq_cmdWord_iff (w := w) (a := op) (b := 0) (c := 0)
    (m₁ := .allOnes 4) (m₂ := .allOnes 4) (m₃ := 0)
  rw [BitVec.and_allOnes, BitVec.and_allOnes] at masked
  exact masked.trans (by simp)

theorem mask_start_iff {w : Word16} {op : BitVec 4} :
    w &&& 0xFF01 = cmdWord op 0 0 ↔ opField w = op ∧ hiField w = 0 ∧ w.getLsbD 0 = false := by
  have masked := and_eq_cmdWord_iff (w := w) (a := op) (b := 0) (c := 0)
    (m₁ := .allOnes 4) (m₂ := .allOnes 4) (m₃ := .twoPow 8 0)
  rwa [BitVec.and_allOnes, BitVec.and_allOnes, and_twoPow_eq_zero_iff (by decide), loField_getLsbD w (by decide)] at masked

theorem mask_setcur_iff {w : Word16} {op : BitVec 4} :
    w &&& 0xF880 = cmdWord op 0 0 ↔ opField w = op ∧ w.getLsbD 11 = false ∧ w.getLsbD 7 = false := by
  have masked := and_eq_cmdWord_iff (w := w) (a := op) (b := 0) (c := 0)
    (m₁ := .allOnes 4) (m₂ := .twoPow 4 3) (m₃ := .twoPow 8 7)
  rwa [BitVec.and_allOnes, and_twoPow_eq_zero_iff (by decide), and_twoPow_eq_zero_iff (by decide),
    hiField_getLsbD w (by decide), loField_getLsbD w (by decide)] at masked

/-! ### The decoder as the ten rows (R74) -/

theorem bare_eq_ok_iff {w : Word16} {i j : Instr} : bare w i = .ok j ↔ (hiField w = 0 ∧ loField w = 0) ∧ i = j := by
  unfold bare; split <;> simp only [*, Except.ok.injEq, reduceCtorEq, true_and, and_self, false_and]

theorem withLo_eq_ok_iff {w : Word16} {f : Byte → Instr} {j : Instr} :
    withLo w f = .ok j ↔ hiField w = 0 ∧ f (loField w) = j := by
  unfold withLo; split <;> simp only [*, Except.ok.injEq, reduceCtorEq, true_and, false_and]

theorem decodeStart_eq_ok_iff {w : Word16} {j : Instr} :
    decodeStart w = .ok j ↔ (hiField w = 0 ∧ w.getLsbD 0 = false) ∧ .start (addrField w) false = j := by
  unfold decodeStart
  split
  · split <;> simp only [*, Except.ok.injEq, reduceCtorEq, true_and, and_false, false_and]
  · simp only [*, reduceCtorEq, false_and]

theorem decodeSetcur_eq_ok_iff {w : Word16} {j : Instr} :
    decodeSetcur w = .ok j ↔ (w.getLsbD 11 = false ∧ w.getLsbD 7 = false) ∧ .setcur (pageField w) (colField w) = j := by
  rw [← Bool.or_eq_false_iff]
  unfold decodeSetcur
  split <;> simp only [*, Except.ok.injEq, reduceCtorEq, true_and, false_and]

/-- The ten rows of format CMD16 (R74): a word that a row's mask and match select, and the row's command with the operand
fields of the word. A match is written as its three fields: `cmdWord 0x7 0 0` is `0x7000`. -/
inductive TableRow (w : Word16) : Instr → Prop
  | nop (row : w &&& 0xFFFF = cmdWord 0x0 0 0) : TableRow w .nop
  | binit (row : w &&& 0xFFFF = cmdWord 0x1 0 0) : TableRow w .binit
  | start (row : w &&& 0xFF01 = cmdWord 0x2 0 0) : TableRow w (.start (addrField w) false)
  | wbyte (row : w &&& 0xFF00 = cmdWord 0x3 0 0) : TableRow w (.wbyte (loField w))
  | stop (row : w &&& 0xFFFF = cmdWord 0x4 0 0) : TableRow w .stop
  | scmd (row : w &&& 0xFF00 = cmdWord 0x5 0 0) : TableRow w (.scmd (loField w))
  | init (row : w &&& 0xFFFF = cmdWord 0x6 0 0) : TableRow w .init
  | setcur (row : w &&& 0xF880 = cmdWord 0x7 0 0) : TableRow w (.setcur (pageField w) (colField w))
  | wchar (row : w &&& 0xFF00 = cmdWord 0x8 0 0) : TableRow w (.wchar (loField w))
  | clrerr (row : w &&& 0xFFFF = cmdWord 0x9 0 0) : TableRow w .clrerr

/-- A legal word is selected by the row of the command it decodes to. -/
theorem tableRow_of_decode {w : Word16} {i : Instr} (h : decode w = .ok i) : TableRow w i := by
  have opIs {k : BitVec 4} (e : (opField w).toNat = k.toNat) : opField w = k := BitVec.eq_of_toNat_eq e
  unfold decode at h
  split at h
  · next op => obtain ⟨low, rfl⟩ := bare_eq_ok_iff.mp h; exact .nop (mask_bare_iff.mpr ⟨opIs op, low⟩)
  · next op => obtain ⟨low, rfl⟩ := bare_eq_ok_iff.mp h; exact .binit (mask_bare_iff.mpr ⟨opIs op, low⟩)
  · next op => obtain ⟨low, rfl⟩ := decodeStart_eq_ok_iff.mp h; exact .start (mask_start_iff.mpr ⟨opIs op, low⟩)
  · next op => obtain ⟨hi, rfl⟩ := withLo_eq_ok_iff.mp h; exact .wbyte (mask_withLo_iff.mpr ⟨opIs op, hi⟩)
  · next op => obtain ⟨low, rfl⟩ := bare_eq_ok_iff.mp h; exact .stop (mask_bare_iff.mpr ⟨opIs op, low⟩)
  · next op => obtain ⟨hi, rfl⟩ := withLo_eq_ok_iff.mp h; exact .scmd (mask_withLo_iff.mpr ⟨opIs op, hi⟩)
  · next op => obtain ⟨low, rfl⟩ := bare_eq_ok_iff.mp h; exact .init (mask_bare_iff.mpr ⟨opIs op, low⟩)
  · next op => obtain ⟨low, rfl⟩ := decodeSetcur_eq_ok_iff.mp h; exact .setcur (mask_setcur_iff.mpr ⟨opIs op, low⟩)
  · next op => obtain ⟨hi, rfl⟩ := withLo_eq_ok_iff.mp h; exact .wchar (mask_withLo_iff.mpr ⟨opIs op, hi⟩)
  · next op => obtain ⟨low, rfl⟩ := bare_eq_ok_iff.mp h; exact .clrerr (mask_bare_iff.mpr ⟨opIs op, low⟩)
  · simp at h

/-- The command of the row that selects a word is what the word decodes to. -/
theorem TableRow.decode {w : Word16} {i : Instr} (h : TableRow w i) : decode w = .ok i := by
  unfold Sys2Proof.decode
  cases h with
  | nop row | binit row | stop row | init row | clrerr row =>
    obtain ⟨op, low⟩ := mask_bare_iff.mp row
    rw [op]; exact bare_eq_ok_iff.mpr ⟨low, rfl⟩
  | wbyte row | scmd row | wchar row =>
    obtain ⟨op, hi⟩ := mask_withLo_iff.mp row
    rw [op]; exact withLo_eq_ok_iff.mpr ⟨hi, rfl⟩
  | start row =>
    obtain ⟨op, low⟩ := mask_start_iff.mp row
    rw [op]; exact decodeStart_eq_ok_iff.mpr ⟨low, rfl⟩
  | setcur row =>
    obtain ⟨op, low⟩ := mask_setcur_iff.mp row
    rw [op]; exact decodeSetcur_eq_ok_iff.mpr ⟨low, rfl⟩

/-- Settles O3: the ten clauses are the ten rows, and a word that is not illegal is selected by one of them. -/
theorem decodeFollowsTheTable : Obligations.DecodeFollowsTheTable := by
  intro w
  refine ⟨fun row => (TableRow.nop row).decode, fun row => (TableRow.binit row).decode,
    fun row => (TableRow.start row).decode, fun row => (TableRow.wbyte row).decode, fun row => (TableRow.stop row).decode,
    fun row => (TableRow.scmd row).decode, fun row => (TableRow.init row).decode, fun row => (TableRow.setcur row).decode,
    fun row => (TableRow.wchar row).decode, fun row => (TableRow.clrerr row).decode, ?illegal⟩
  case illegal =>
    intro nop binit start wbyte stop scmd init setcur wchar clrerr
    cases h : decode w with
    | error e => exact ⟨e, rfl⟩
    | ok i =>
      cases tableRow_of_decode h with
      | nop row => exact absurd row nop
      | binit row => exact absurd row binit
      | start row => exact absurd row start
      | wbyte row => exact absurd row wbyte
      | stop row => exact absurd row stop
      | scmd row => exact absurd row scmd
      | init row => exact absurd row init
      | setcur row => exact absurd row setcur
      | wchar row => exact absurd row wchar
      | clrerr row => exact absurd row clrerr

/-! ### The round trips of decoder and encoder (R72, R74) -/

theorem cmdWord_of_fields {w : Word16} {op hi : BitVec 4} {lo : Byte} (hop : opField w = op) (hhi : hiField w = hi)
    (hlo : loField w = lo) : cmdWord op hi lo = w := by
  rw [← hop, ← hhi, ← hlo, cmdWord_fields]

/-- SETCUR's page is the field `hi` of a word with bit 11 clear. -/
theorem hiField_eq_page {w : Word16} (h : w.getLsbD 11 = false) : hiField w = (pageField w).setWidth 4 := by
  have bit11 : w.toNat / 2 ^ 11 % 2 = 0 := by simpa [BitVec.getLsbD, Nat.testBit_eq_decide_div_mod_eq] using h
  apply BitVec.eq_of_toNat_eq
  simp [hiField, pageField, Nat.shiftRight_eq_div_pow]
  omega

/-- SETCUR's column is the field `lo` of a word with bit 7 clear. -/
theorem loField_eq_col {w : Word16} (h : w.getLsbD 7 = false) : loField w = (colField w).setWidth 8 := by
  have bit7 : w.toNat / 2 ^ 7 % 2 = 0 := by simpa [BitVec.getLsbD, Nat.testBit_eq_decide_div_mod_eq] using h
  apply BitVec.eq_of_toNat_eq
  simp [loField, colField]
  omega

theorem TableRow.encode {w : Word16} {i : Instr} (h : TableRow w i) : encode i = .cmd16 w := by
  cases h with
  | nop row | binit row | stop row | init row | clrerr row =>
    obtain ⟨op, hi, lo⟩ := mask_bare_iff.mp row
    exact congrArg Code.cmd16 (cmdWord_of_fields op hi lo)
  | wbyte row | scmd row | wchar row =>
    obtain ⟨op, hi⟩ := mask_withLo_iff.mp row
    exact congrArg Code.cmd16 (cmdWord_of_fields op hi rfl)
  | start row =>
    obtain ⟨op, hi, r⟩ := mask_start_iff.mp row
    exact congrArg Code.cmd16 (cmdWord_of_fields op hi (loField_eq_addrByte r))
  | setcur row =>
    obtain ⟨op, bit11, bit7⟩ := mask_setcur_iff.mp row
    exact congrArg Code.cmd16 (cmdWord_of_fields op (hiField_eq_page bit11) (loField_eq_col bit7))

theorem TableRow.wellFormed {w : Word16} {i : Instr} (h : TableRow w i) : i.wellFormed = true := by cases h <;> rfl

/-- Only a START can be ill formed, and no byte on the wire is one (R73 (c)). -/
theorem wellFormed_of_encode_wire8 {i : Instr} {pos : WirePos} {b : Byte} (h : encode i = .wire8 pos b) :
    i.wellFormed = true := by
  cases i with
  | start a r => simp [encode] at h
  | _ => rfl

/-- Settles O2: a legal word is put together again from the fields that its row's command keeps, and a byte is its row's. -/
theorem encodeDecodeRoundTrip : Obligations.EncodeDecodeRoundTrip := by
  intro c i h
  cases c with
  | cmd16 w =>
    have row : TableRow w i := by
      cases d : decode w with
      | error e => simp [decodeCode, d, Except.toOption] at h
      | ok j =>
        obtain rfl : j = i := by simpa [decodeCode, d, Except.toOption] using h
        exact tableRow_of_decode d
    exact ⟨row.encode, row.wellFormed⟩
  | wire8 pos b =>
    have e := encode_of_decodeWire h
    exact ⟨e, wellFormed_of_encode_wire8 e⟩

/-- Settles O1, one case per row of the opcode table: the laws of the codes in Laws/PerInstr. -/
theorem decodeEncodeRoundTrip : Obligations.DecodeEncodeRoundTrip := by
  intro i
  cases i with
  | nop => exact Laws.Code.nop
  | binit => exact Laws.Code.binit
  | start a r => exact Laws.Code.start a r
  | wbyte v => exact Laws.Code.wbyte v
  | stop => exact Laws.Code.stop
  | scmd v => exact Laws.Code.scmd v
  | init => exact Laws.Code.init
  | setcur p c => exact Laws.Code.setcur p c
  | wchar k => exact Laws.Code.wchar k
  | clrerr => exact Laws.Code.clrerr
  | wAddrWrite a => exact Laws.Code.wAddrWrite a
  | wCtrlCmd => exact Laws.Code.wCtrlCmd
  | wCtrlData => exact Laws.Code.wCtrlData
  | dDisplayOff => exact Laws.Code.dDisplayOff
  | dClockDivide => exact Laws.Code.dClockDivide
  | dMultiplex => exact Laws.Code.dMultiplex
  | dDisplayOffset => exact Laws.Code.dDisplayOffset
  | dChargePump => exact Laws.Code.dChargePump
  | dAddressingMode => exact Laws.Code.dAddressingMode
  | dSegmentRemap => exact Laws.Code.dSegmentRemap
  | dComScanDec => exact Laws.Code.dComScanDec
  | dContrast => exact Laws.Code.dContrast
  | dPrecharge => exact Laws.Code.dPrecharge
  | dVcomDeselect => exact Laws.Code.dVcomDeselect
  | dFollowRam => exact Laws.Code.dFollowRam
  | dNormalDisplay => exact Laws.Code.dNormalDisplay
  | dDisplayOn => exact Laws.Code.dDisplayOn
  | dStartLine l => exact Laws.Code.dStartLine l
  | dPageAddr p => exact Laws.Code.dPageAddr p
  | dColLow n => exact Laws.Code.dColLow n
  | dColHigh h => exact Laws.Code.dColHigh h
  | wDataByte d => exact Laws.Code.wDataByte d

/-- Settles O4, by the decoder run on each written-out word. -/
theorem writtenOutWordsDecode : Obligations.WrittenOutWordsDecode := by
  unfold Obligations.WrittenOutWordsDecode
  refine ⟨?_, ?_, ?_, ?_, ?_, ?_, ?_, ?_, ?_, ?_⟩ <;> decide

/-! ### The computed opcode bytes (R79) -/

/-- A field put by OR into the low `n` bits that its constant leaves clear adds to it (R79). -/
theorem or_setWidth_toNat {n : Nat} (c : Nat) (x : BitVec n) (h : 2 ^ n * c + 2 ^ n ≤ 256) :
    (BitVec.ofNat 8 (2 ^ n * c) ||| x.setWidth 8).toNat = 2 ^ n * c + x.toNat := by
  have small := x.isLt
  rw [BitVec.toNat_or, BitVec.toNat_ofNat, BitVec.toNat_setWidth, Nat.mod_eq_of_lt (by omega), Nat.mod_eq_of_lt (by omega),
    Nat.two_pow_add_eq_or_of_lt small]

theorem pageByte_toNat (p : BitVec 3) : (pageByte p).toNat = 0xB0 + p.toNat := or_setWidth_toNat 22 p (by decide)
theorem colLowByte_toNat (n : BitVec 4) : (colLowByte n).toNat = 0x00 + n.toNat := or_setWidth_toNat 0 n (by decide)
theorem colHighByte_toNat (h : BitVec 3) : (colHighByte h).toNat = 0x10 + h.toNat := or_setWidth_toNat 2 h (by decide)
theorem startLineByte_toNat (l : BitVec 6) : (startLineByte l).toNat = 0x40 + l.toNat := or_setWidth_toNat 1 l (by decide)

theorem colLow_toNat (c : BitVec 7) : (colLow c).toNat = c.toNat % 16 := by simp [colLow]

theorem colHigh_toNat (c : BitVec 7) : (colHigh c).toNat = c.toNat / 16 := by
  have small := c.isLt
  simp [colHigh, Nat.shiftRight_eq_div_pow]
  omega

/-- Settles O5: OR is the sum (`or_setWidth_toNat`), and each range is the sum's at the ends of the field. -/
theorem computedOpcodeBytes : Obligations.ComputedOpcodeBytes := by
  refine ⟨fun p => ?page, fun c => ?colLow, fun c => ?colHigh, fun l => ?startLine⟩
  case page =>
    have range := p.isLt
    rw [pageByte_toNat]
    exact ⟨rfl, rfl, by omega, by omega⟩
  case colLow =>
    rw [colLowByte_toNat, colLow_toNat]
    exact ⟨Nat.zero_add _, rfl, by omega⟩
  case colHigh =>
    have range := c.isLt
    rw [colHighByte_toNat, colHigh_toNat]
    exact ⟨rfl, rfl, by omega, by omega⟩
  case startLine =>
    have range := l.isLt
    rw [startLineByte_toNat]
    exact ⟨rfl, rfl, by omega, by omega⟩

end Sys2Proof.Machine
end

section
/-! Proofs of the statements about the bytes on the wire: a row at its position by the environment's answer, a row away from
its position, and the string of WSTR. -/

namespace Sys2Proof.Machine

/-! ### A byte on the wire that returns Ok (R93, R97, R99) -/

/-- The draw of the start and the start condition before a byte are no part of `ByteFrame`. -/
theorem ByteFrame.of_startDone {s t : State} (h : ByteFrame (startDone (drawStart s).2) t) : ByteFrame s t := by
  obtain ⟨rs, n, e⟩ := drawStart_keeps s
  rw [e] at h
  exact ⟨⟨h.1.1, h.1.2, h.1.3, h.1.4, h.1.5, h.1.6, h.1.7, h.1.8, h.1.9, h.1.10⟩, h.2, h.3, h.4, h.5, h.6, h.7, h.8, h.9,
    h.10, h.11, h.12, h.13, h.14, h.15, h.16, h.17⟩

/-- A start on a free bus whose address byte returns Ok: what it writes, and the frame. -/
theorem primStart_ok_frame {ab : Byte} {s : State} {acked : Bool} (free : (drawStart s).1 = .free)
    (h : goesOn s (drawByte (drawStart s).2).1 acked) :
    ByteFrame s (primStart ab s).2 ∧ (primStart ab s).1 = .ok ∧ (primStart ab s).2.shr = ab ∧
      (primStart ab s).2.ackl = !acked ∧ (primStart ab s).2.cch = s.cch ∧ (primStart ab s).2.dix = s.dix ∧
      (primStart ab s).2.trace = s.trace ++ [.start, .byte ab acked] := by
  have draw : (drawByte (startDone (drawStart s).2)).1 = (drawByte (drawStart s).2).1 := drawByte_congr _ _ rfl rfl
  have goes : goesOn (startDone (drawStart s).2) (drawByte (startDone (drawStart s).2)).1 acked := by
    rw [draw]; simpa [goesOn, (drawStart_frame s).bus.par] using h
  obtain ⟨frame, ok, shr, ackl, cch, dix, trace⟩ := xmit_ok_frame (v := ab) goes rfl
  rw [primStart_free ab s free]
  obtain ⟨rs, n, e⟩ := drawStart_keeps s
  refine ⟨frame.of_startDone, ok, shr, ackl, ?_, ?_, ?_⟩
  · rw [cch, e]; rfl
  · rw [dix, e]; rfl
  · rw [trace, e]; simp

/-- A host primitive whose byte returned Ok ends with code 0 and the bus open. -/
theorem ByteFrame.endedPlain {s t : State} {evs : List Event} (h : ByteFrame s t) (trace : t.trace = s.trace ++ evs) :
    EndedPlain s (endCommand .ok t) evs true 0 false false := by
  obtain ⟨opn, lines⟩ := h.hold
  exact {
    ended := {
      trace, opn, lines
      last := rfl
      eTimeout := by simpa using h.eTimeout
      eNack := by simpa using h.eNack
      idle := ⟨rfl, rfl⟩
      frame := h.bus.trans (endCommand_bus _ _) }
    ready := h.ready
    eInit := h.eInit }

/-! ### The rows at their positions (R74 to R79) -/

theorem sendAddress_runs {name : String} {ab : Byte} {s : State} (h : atPos .addr s = true) :
    sendAddress name ab s = .next (movePointer (primStart ab s)) := by simp [sendAddress, h]

theorem sendAddress_refused {name : String} {ab : Byte} {s : State} (h : atPos .addr s = false) :
    sendAddress name ab s = .refused (.outOfPosition name) := by simp [sendAddress, h]

/-- A row of the table but the address byte, at its position, is its byte sent and the move of the pointer. -/
theorem exec_atPos {i : Instr} {pos : WirePos} {b : Byte} {s : State} (code : encode i = .wire8 pos b) (hp : pos ≠ .addr)
    (h : atPos pos s = true) : exec i s = .next (movePointer (xmit b s)) := by
  obtain ⟨name, e⟩ := exec_wire i pos b s code hp
  rw [e, sendAt_runs h]

/-- SEQ names SCMD, INIT, SETCUR or WCHAR, the commands that run a channel procedure (R31). -/
def ChannelSeq (q : Seq) : Prop := q = .sCmd ∨ q = .sInit ∨ q = .sCur ∨ q = .sChr

/-- Where the pointer stands at a position that only a channel procedure has (R131, R132). -/
theorem posOf_ctrlCmd {s : State} (h : posOf s = some .ctrlCmd) : ChannelSeq s.seq ∧ s.cch = .ctrl ∧ s.seq ≠ .sChr := by
  simpa [ChannelSeq] using posOf_cases h

theorem posOf_ctrlData {s : State} (h : posOf s = some .ctrlData) : ChannelSeq s.seq ∧ s.cch = .ctrl ∧ s.seq = .sChr := by
  simpa [ChannelSeq] using posOf_cases h

theorem posOf_cmdPayload {s : State} (h : posOf s = some .cmdPayload) :
    ChannelSeq s.seq ∧ s.cch = .payload ∧ s.seq ≠ .sChr := by
  simpa [ChannelSeq] using posOf_cases h

/-- A later byte of a channel procedure that returns Ok: `u` is the state after it, which the pointer's next move starts from. -/
theorem exec_byte_ok {i : Instr} {pos : WirePos} {b : Byte} {s : State} {acked : Bool} (code : encode i = .wire8 pos b)
    (later : pos ≠ .addr) (here : atPos pos s = true) (goes : goesOn s (drawByte s).1 acked) (channelSeq : ChannelSeq s.seq)
    (beforeStop : s.cch ≠ .stop) :
    ∃ u, exec i s = .next (nextPrimitive u) ∧ ByteFrame s u ∧ u.shr = b ∧ u.ackl = !acked ∧ u.cch = s.cch ∧
      u.dix = s.dix ∧ u.trace = s.trace ++ [.byte b acked] := by
  obtain ⟨-, -, opn, -⟩ := (atPos_iff pos s).mp here
  obtain ⟨frame, ok, shr, ackl, cch, dix, trace⟩ := xmit_ok_frame (v := b) goes (opn.resolve_right later)
  have move : movePointer (xmit b s) = nextPrimitive (xmit b s).2 :=
    movePointer_next (by rw [frame.seq]; exact channelSeq) ok (by rwa [cch])
  exact ⟨_, (exec_atPos code later here).trans (congrArg _ move), frame, shr, ackl, cch, dix, trace⟩

/-- Settles O53: every row is a send at its position, and a send anywhere else is refused. -/
theorem wireByteOutOfPositionRefused : Obligations.WireByteOutOfPositionRefused := by
  intro s i pos b code away
  by_cases hp : pos = .addr
  · subst hp
    obtain ⟨name, e⟩ := exec_addr s code
    exact ⟨name, e.trans (sendAddress_refused away)⟩
  · obtain ⟨name, e⟩ := exec_wire i pos b s code hp
    exact ⟨name, e.trans (sendAt_refused away)⟩

/-- Settles O48: the start and the address byte return Ok (`primStart_ok_frame`); in a channel procedure the pointer moves on,
and a host START ends. -/
theorem addressByteSent : Obligations.AddressByteSent := by
  intro a s acked here free goes
  obtain ⟨frame, ok, shr, ackl, cch, dix, trace⟩ := primStart_ok_frame (ab := addrByte a false) free goes
  have run : exec (.wAddrWrite a) s = .next (movePointer (primStart (addrByte a false) s)) := sendAddress_runs here
  obtain ⟨-, -, -, position⟩ := (atPos_iff .addr s).mp here
  constructor
  · intro q
    obtain ⟨prim, -⟩ | ⟨channel, stands⟩ := posOf_cases position
    · exact absurd prim q
    · have start : s.cch = .start := by simpa using stands
      have move : movePointer (primStart (addrByte a false) s) = atChan .ctrl (primStart (addrByte a false) s).2 := by
        rw [movePointer_next (by rwa [frame.seq]) ok (by simp [cch, start])]
        simp [nextPrimitive, cch, start]
      exact ⟨_, run.trans (congrArg _ move), trace, shr, ackl, rfl, dix, frame.atChan _⟩
  · intro q
    have move : movePointer (primStart (addrByte a false) s) = endCommand .ok (primStart (addrByte a false) s).2 := by
      rw [movePointer_prim (frame.seq.trans q), endWithResult, ok]; rfl
    exact ⟨_, run.trans (congrArg _ move), frame.endedPlain trace, ackl⟩

/-- Settles O49: both control bytes move the pointer to the payload, and only the one of a data transaction clears DIX. -/
theorem controlByteSent : Obligations.ControlByteSent := by
  rintro s i pos b acked (⟨rfl, rfl, rfl⟩ | ⟨rfl, rfl, rfl⟩) here goes
  · obtain ⟨-, -, -, position⟩ := (atPos_iff .ctrlCmd s).mp here
    obtain ⟨channelSeq, ctrl, q⟩ := posOf_ctrlCmd position
    obtain ⟨u, run, frame, shr, ackl, cch, dix, trace⟩ :=
      exec_byte_ok (i := .wCtrlCmd) rfl (by simp) here goes channelSeq (by simp [ctrl])
    rw [nextPrimitive_ctrl (cch.trans ctrl), if_neg (by rwa [frame.seq])] at run
    exact ⟨_, run, trace, shr, ackl, rfl, fun _ => dix, by simp, frame.atChan _⟩
  · obtain ⟨-, -, -, position⟩ := (atPos_iff .ctrlData s).mp here
    obtain ⟨channelSeq, ctrl, q⟩ := posOf_ctrlData position
    obtain ⟨u, run, frame, shr, ackl, cch, dix, trace⟩ :=
      exec_byte_ok (i := .wCtrlData) rfl (by simp) here goes channelSeq (by simp [ctrl])
    rw [nextPrimitive_ctrl (cch.trans ctrl), if_pos (by rwa [frame.seq])] at run
    exact ⟨_, run, trace, shr, ackl, rfl, by simp, fun _ => rfl, (frame.loadDix _).atChan _⟩

/-- Settles O50: all opcode rows are one byte sent at the payload position, after which the pointer is at the stop. -/
theorem displayOpcodeSent : Obligations.DisplayOpcodeSent := by
  intro s i b acked code here goes
  obtain ⟨-, -, -, position⟩ := (atPos_iff .cmdPayload s).mp here
  obtain ⟨channelSeq, payload, q⟩ := posOf_cmdPayload position
  obtain ⟨u, run, frame, shr, ackl, cch, dix, trace⟩ := exec_byte_ok code (by simp) here goes channelSeq (by simp [payload])
  rw [nextPrimitive_payload (cch.trans payload) (by rwa [frame.seq])] at run
  exact ⟨_, run, trace, shr, ackl, rfl, dix, frame.atChan _⟩

/-! ### A string of characters (R81, R161, R162) -/

/-- The environment's answers for two parts of a command, one after the other. -/
theorem GoodDraws.first {a b c a' b' c' : Nat} {s : State} (h : GoodDraws (a + a') (b + b') (c + c') s) :
    GoodDraws a b c s := by
  obtain ⟨starts, bytes, stops⟩ := h
  have shorten {α : Type} {l : List α} {m n : Nat} {x : α} (e : l.take (m + n) = List.replicate (m + n) x) :
      l.take m = List.replicate m x := by
    simpa [List.take_take, List.take_replicate] using congrArg (List.take m) e
  exact ⟨shorten starts, shorten bytes, shorten stops⟩

theorem GoodDraws.second {a b c a' b' c' : Nat} {s t : State} (h : GoodDraws (a + a') (b + b') (c + c') s)
    (starts : t.starts = s.starts.drop a) (bytes : t.bytes = s.bytes.drop b) (stops : t.stops = s.stops.drop c) :
    GoodDraws a' b' c' t := by
  have rest {α : Type} {l : List α} {m n : Nat} {x : α} (e : l.take (m + n) = List.replicate (m + n) x) :
      (l.drop m).take n = List.replicate n x := by
    simpa [List.take_drop, List.drop_replicate] using congrArg (List.drop m) e
  exact ⟨starts ▸ rest h.starts, bytes ▸ rest h.bytes, stops ▸ rest h.stops⟩

/-- The data bytes of a supported character are its glyph columns and the separator (R150, R161). -/
theorem glyph_cellBytes {p : Params} {k : Byte} {idx : Nat} (h : glyphIndex k = some idx) :
    (glyph p k).getD [] ++ [0x00] = cellBytes p idx := by
  simp [glyph, h, cellBytes, separator]

/-- The characters that have a glyph are those that the lookup finds, whatever the ROM holds (R150). -/
theorem glyph_isSome_iff {p : Params} {k : Byte} : (glyph p k).isSome = true ↔ ∃ idx, glyphIndex k = some idx := by
  simp [glyph, Option.isSome_iff_exists]

/-- WCHAR of a supported character with a well-behaved display: one data transaction, its draws used up, and the state allows
the next WCHAR (R161). -/
theorem exec_wchar_good {k : Byte} {s : State} (en : s.en = true) (opn : s.opn = false) (ready : s.ready = true)
    (supported : (glyph s.par.toParams k).isSome = true) (good : GoodDraws 1 8 1 s) :
    ∃ t, exec (.wchar k) s = .next t ∧ t.trace = s.trace ++ dataEvents ((glyph s.par.toParams k).getD [] ++ [0x00]) ∧
      t.starts = s.starts.drop 1 ∧ t.bytes = s.bytes.drop 8 ∧ t.stops = s.stops.drop 1 ∧
      t.en = true ∧ t.opn = false ∧ t.ready = true ∧ t.par = s.par := by
  obtain ⟨idx, hg⟩ := glyph_isSome_iff.mp supported
  have accepted : immediate (.wchar k) s = false := by simp [immediate, stateRefuses, en, opn, ready, hg]
  have cell : body (.wchar k) s = sendDataBytes (cellBytes s.par.toParams idx) (loadGidx idx (runs .sChr s)) := by
    simp [body, hg]
  obtain ⟨-, -, sent⟩ := sendDataBytes_good (cellBytes s.par.toParams idx) (loadGidx idx (runs .sChr s))
    ⟨good.starts, good.bytes, good.stops⟩
  obtain ⟨closed, -⟩ := sendDataBytes_closed (cellBytes s.par.toParams idx) (loadGidx idx (runs .sChr s))
  refine ⟨_, exec_of_not_immediate accepted, ?_⟩
  rw [cell, glyph_cellBytes hg]
  exact ⟨sent.trace, sent.starts, sent.bytes, sent.stops, sent.frame.bus.en.trans en, closed, sent.frame.ready.trans ready,
    sent.frame.bus.par⟩

theorem execAll_cons {i : Instr} {s t : State} (rest : List Instr) (h : exec i s = .next t) :
    execAll (i :: rest) s = execAll rest t := by simp [execAll, h]

/-- A string of supported characters with a well-behaved display: one data transaction per character, in order (R162). -/
theorem execAll_expandString {cs : List Byte} {s : State} (en : s.en = true) (opn : s.opn = false)
    (ready : s.ready = true) (supported : ∀ k ∈ cs, (glyph s.par.toParams k).isSome = true)
    (good : GoodDraws cs.length (8 * cs.length) cs.length s) :
    ∃ t, execAll (expandString cs) s = .next t ∧
      t.trace = s.trace ++ cs.flatMap (fun k => dataEvents ((glyph s.par.toParams k).getD [] ++ [0x00])) := by
  induction cs generalizing s with
  | nil => exact ⟨s, rfl, by simp⟩
  | cons k rest ih =>
    obtain ⟨first, others⟩ := List.forall_mem_cons.mp supported
    have split : GoodDraws (1 + rest.length) (8 + 8 * rest.length) (1 + rest.length) s := by
      simpa [Nat.mul_add, Nat.add_comm] using good
    obtain ⟨t, run, trace, starts, bytes, stops, en', opn', ready', par⟩ := exec_wchar_good en opn ready first split.first
    obtain ⟨u, runRest, traceRest⟩ := ih en' opn' ready' (by rwa [par]) (split.second starts bytes stops)
    refine ⟨u, (execAll_cons _ run).trans runRest, ?_⟩
    rw [traceRest, trace, par, List.flatMap_cons, List.append_assoc]

/-- The payload bytes of a string of supported characters: six for each (R162). -/
theorem payload_length {p : Params} {cs : List Byte} (supported : ∀ k ∈ cs, (glyph p k).isSome = true) :
    (cs.flatMap (fun k => (glyph p k).getD [] ++ [0x00])).length = 6 * cs.length := by
  induction cs with
  | nil => rfl
  | cons k rest ih =>
    obtain ⟨first, others⟩ := List.forall_mem_cons.mp supported
    obtain ⟨idx, hg⟩ := glyph_isSome_iff.mp first
    have six : (cellBytes p idx).length = 6 := rfl
    rw [List.flatMap_cons, List.length_append, ih others, glyph_cellBytes hg, six, List.length_cons]
    omega

/-- Settles O43, by induction on the string: each WCHAR leaves a state that allows the next, with its draws used up. -/
theorem stringOneTransactionPerCharacter : Obligations.StringOneTransactionPerCharacter := by
  refine ⟨rfl, fun cs s en opn ready supported good => ?_⟩
  obtain ⟨t, run, trace⟩ := execAll_expandString en opn ready supported good
  exact ⟨t, run, trace, payload_length supported⟩

end Sys2Proof.Machine
end

section
/-! Proofs of the statements about the bus transport: what a primitive returns by the environment's answer, the end of a
command that follows, and the failures of a byte at its position and of the transactions of SCMD, SETCUR and WCHAR. -/

namespace Sys2Proof.Machine

/-! ### What a part of a command appends, and how it returned (R33, R98, R99) -/

/-- From `s` to `t` a command appended `evs` to the trace, set E_TIMEOUT if `timedOut` and E_NACK if `nacked`; READY, E_INIT
and what no bus command changes are as before. -/
structure Appended (s t : State) (evs : List Event) (timedOut nacked : Bool) : Prop where
  bus : BusFrame s t
  ready : t.ready = s.ready
  eInit : t.eInit = s.eInit
  trace : t.trace = s.trace ++ evs
  eTimeout : t.eTimeout = (s.eTimeout || timedOut)
  eNack : t.eNack = (s.eNack || nacked)

theorem Appended.trans {s t u : State} {evs evs' : List Event} {timedOut nacked timedOut' nacked' : Bool}
    (h : Appended s t evs timedOut nacked) (k : Appended t u evs' timedOut' nacked') :
    Appended s u (evs ++ evs') (timedOut || timedOut') (nacked || nacked') where
  bus := h.bus.trans k.bus
  ready := k.ready.trans h.ready
  eInit := k.eInit.trans h.eInit
  trace := by rw [k.trace, h.trace, List.append_assoc]
  eTimeout := by rw [k.eTimeout, h.eTimeout, Bool.or_assoc]
  eNack := by rw [k.eNack, h.eNack, Bool.or_assoc]

theorem ChannelFrame.appended {s t : State} {evs : List Event} {timedOut nacked : Bool} (f : ChannelFrame s t)
    (trace : t.trace = s.trace ++ evs) (eTimeout : t.eTimeout = (s.eTimeout || timedOut))
    (eNack : t.eNack = (s.eNack || nacked)) : Appended s t evs timedOut nacked :=
  ⟨f.bus, f.ready, f.eInit, trace, eTimeout, eNack⟩

theorem Sent.appended {s t : State} {evs : List Event} {a b c : Nat} (h : Sent s t evs a b c) :
    Appended s t evs false false :=
  h.frame.appended h.trace (by simpa using h.eTimeout) (by simpa using h.eNack)

theorem ByteFrame.appended {s t : State} {evs : List Event} (h : ByteFrame s t) (trace : t.trace = s.trace ++ evs) :
    Appended s t evs false false :=
  ⟨h.bus, h.ready, h.eInit, trace, by simpa using h.eTimeout, by simpa using h.eNack⟩

/-- The sequencer's own registers are no part of `Appended`. -/
theorem registers_appended (s : State) (busy : Bool) (seq : Seq) (ipc gidx : BitVec 5) :
    Appended s { s with busy := busy, seq := seq, ipc := ipc, gidx := gidx } [] false false :=
  ⟨(registers_body s busy seq ipc gidx).bus, rfl, rfl, by simp, by simp, by simp⟩

theorem runs_appended (q : Seq) (s : State) : Appended s (runs q s) [] false false :=
  registers_appended s true q s.ipc s.gidx
theorem clearIpc_appended (s : State) : Appended s (clearIpc s) [] false false := registers_appended s s.busy s.seq 0 s.gidx
theorem advanceIpc_appended (s : State) : Appended s (advanceIpc s) [] false false :=
  registers_appended s s.busy s.seq (s.ipc + 1) s.gidx
theorem loadGidx_appended (n : Nat) (s : State) : Appended s (loadGidx n s) [] false false :=
  registers_appended s s.busy s.seq s.ipc _

/-- A primitive or a procedure that began in `s` returned `r` and left the outputs at rest, with OPEN at `isOpen`. -/
structure Returned (s : State) (x : Result × State) (r : Result) (evs : List Event) (isOpen timedOut nacked : Bool) :
    Prop where
  result : x.1 = r
  appended : Appended s x.2 evs timedOut nacked
  opn : x.2.opn = isOpen
  rest : AtRest x.2

/-- What came before without an error is part of what was appended. -/
theorem Returned.after {s u : State} {x : Result × State} {r : Result} {before evs : List Event}
    {isOpen timedOut nacked : Bool} (h : Returned u x r evs isOpen timedOut nacked) (k : Appended s u before false false) :
    Returned s x r (before ++ evs) isOpen timedOut nacked where
  result := h.result
  appended := by simpa using k.trans h.appended
  opn := h.opn
  rest := h.rest

/-- What the end of a command with code `c` leaves, on what its last primitive left. -/
theorem Returned.ended {s : State} {x : Result × State} {r : Result} {evs : List Event} {isOpen timedOut nacked : Bool}
    (h : Returned s x r evs isOpen timedOut nacked) (c : ResultCode) :
    EndedPlain s (endCommand c x.2) evs isOpen (codeBits c) timedOut nacked := by
  obtain ⟨-, did, opn, rest⟩ := h
  exact {
    ended := {
      trace := did.trace
      opn := opn
      last := rfl
      eTimeout := did.eTimeout
      eNack := did.eNack
      lines := ⟨rest.1.trans opn, rest.2⟩
      idle := ⟨rfl, rfl⟩
      frame := did.bus.trans (endCommand_bus _ _) }
    ready := did.ready
    eInit := did.eInit }

/-- Every bus command but INIT ends with the code of its result. -/
theorem Returned.endWithResult {s : State} {x : Result × State} {r : Result} {evs : List Event}
    {isOpen timedOut nacked : Bool} (h : Returned s x r evs isOpen timedOut nacked) :
    EndedPlain s (endWithResult x) evs isOpen (codeBits (resultCode r)) timedOut nacked :=
  h.result ▸ h.ended (resultCode x.1)

/-- INIT ends with code 3 and E_INIT whatever it was that failed (R183). -/
theorem Returned.initFails {s : State} {x : Result × State} {r : Result} {evs : List Event}
    {isOpen timedOut nacked : Bool} (h : Returned s x r evs isOpen timedOut nacked) :
    Ended s (fail .initFailure x.2) evs isOpen 3 timedOut nacked ∧ (fail .initFailure x.2).ready = s.ready ∧
      (fail .initFailure x.2).eInit = true := by
  obtain ⟨-, did, opn, rest⟩ := h
  have bus := did.bus.trans ((setSticky_initFailure_bus _).trans (endCommand_bus .initFailure _))
  exact ⟨⟨did.trace, opn, rfl, did.eTimeout, did.eNack, ⟨rest.1.trans opn, rest.2⟩, ⟨rfl, rfl⟩, bus⟩, did.ready, rfl⟩

/-! ### The primitives, by the environment's answer (R93, R96 to R99) -/

/-- A byte `v` that meets the answer: its result, what it appends, whether the bus stays open, and ACKL after it (R97 to
R99). -/
inductive ByteAnswer (s : State) (v : Byte) : ByteOutcome → Result → List Event → Bool → Bool → Prop
  | acked : ByteAnswer s v .acked .ok [.byte v true] true false
  | ignored (policy : s.par.nackPolicy = .ignore) : ByteAnswer s v .nacked .ok [.byte v false] true true
  | reported (policy : s.par.nackPolicy = .report) : ByteAnswer s v .nacked .nack [.byte v false] true true
  | expired : ByteAnswer s v .expired .timeout [.timeout] false s.ackl

/-- The answer to a byte is read by the policy, and keeps ACKL where the byte expires. -/
theorem ByteAnswer.congr {s t : State} {v : Byte} {o : ByteOutcome} {r : Result} {evs : List Event} {isOpen ackl : Bool}
    (h : ByteAnswer s v o r evs isOpen ackl) (par : t.par = s.par) (same : t.ackl = s.ackl) :
    ByteAnswer t v o r evs isOpen ackl := by
  cases h with
  | acked => exact .acked
  | ignored policy => exact .ignored (par ▸ policy)
  | reported policy => exact .reported (par ▸ policy)
  | expired => exact same ▸ .expired

theorem xmit_expired_returned (v : Byte) {s : State} (h : (drawByte s).1 = .expired) :
    Returned s (xmit v s) .timeout [.timeout] false true false := by
  have f := xmit_frame v s
  rw [xmit_expired v s h] at f ⊢
  exact ⟨rfl, f.appended (by simp) (by simp) (by simp), rfl, by simp [AtRest]⟩

theorem primStop_expired_returned {s : State} (h : (drawStop s).1 = .expired) :
    Returned s (primStop s) .timeout [.timeout] false true false := by
  have f := primStop_frame s
  rw [primStop_expired s h] at f ⊢
  exact ⟨rfl, f.appended (by simp) (by simp) (by simp), rfl, by simp [AtRest]⟩

theorem primStop_done_returned {s : State} (h : (drawStop s).1 = .done) :
    Returned s (primStop s) .ok [.stop] false false false := by
  have f := primStop_frame s
  rw [primStop_done s h] at f ⊢
  exact ⟨rfl, f.appended (by simp) (by simp) (by simp), rfl, by simp [AtRest]⟩

theorem primStart_expired_returned (ab : Byte) {s : State} (h : (drawStart s).1 = .expired) :
    Returned s (primStart ab s) .timeout [.timeout] false true false ∧ (primStart ab s).2.ackl = s.ackl := by
  have f := primStart_frame ab s
  rw [primStart_expired ab s h] at f ⊢
  exact ⟨⟨rfl, f.appended (by simp) (by simp) (by simp), rfl, by simp [AtRest]⟩, by simp⟩

/-- A byte while a transaction is open, for every answer (R97 to R99). -/
theorem xmit_returned {s : State} {v : Byte} {o : ByteOutcome} {r : Result} {evs : List Event} {isOpen ackl : Bool}
    (answer : ByteAnswer s v o r evs isOpen ackl) (draw : (drawByte s).1 = o) (opn : s.opn = true) :
    Returned s (xmit v s) r evs isOpen (r == .timeout) (r == .nack) ∧ (xmit v s).2.ackl = ackl := by
  have goes {acked : Bool} (h : goesOn s (drawByte s).1 acked) :
      Returned s (xmit v s) .ok [.byte v acked] true false false ∧ (xmit v s).2.ackl = !acked := by
    obtain ⟨frame, ok, -, ackl, -, -, trace⟩ := xmit_ok_frame (v := v) h opn
    exact ⟨⟨ok, frame.appended trace, frame.hold.1, xmit_atRest v opn⟩, ackl⟩
  cases answer with
  | acked => exact goes (.inl ⟨draw, rfl⟩)
  | ignored policy => exact goes (.inr ⟨draw, policy, rfl⟩)
  | reported policy =>
    have f := xmit_frame v s
    have rest := xmit_atRest v opn
    rw [xmit_nacked v s draw, byteDone_report v _ (by simpa using policy)] at f rest ⊢
    exact ⟨⟨rfl, f.appended (by simp) (by simp) (by simp), by simpa using opn, rest⟩, by simp⟩
  | expired => exact ⟨xmit_expired_returned v draw, by rw [xmit_expired v s draw]; simp⟩

/-- A start on a free bus, first or repeated: the start condition and the address byte, for every answer to it (R93, R94). -/
theorem primStart_returned {s : State} {ab : Byte} {o : ByteOutcome} {r : Result} {evs : List Event} {isOpen ackl : Bool}
    (answer : ByteAnswer s ab o r evs isOpen ackl) (free : (drawStart s).1 = .free)
    (draw : (drawByte (drawStart s).2).1 = o) :
    Returned s (primStart ab s) r (.start :: evs) isOpen (r == .timeout) (r == .nack) ∧
      (primStart ab s).2.ackl = ackl := by
  have started : Appended s (startDone (drawStart s).2) [.start] false false :=
    ((drawStart_frame s).trans (startDone_frame _)).appended (by simp) (by simp) (by simp)
  have draw' : (drawByte (startDone (drawStart s).2)).1 = o := 
    (drawByte_congr (drawStart s).2 (startDone (drawStart s).2) rfl rfl).trans draw
  obtain ⟨returned, bit⟩ := xmit_returned (answer.congr (by simp) (by simp)) draw' rfl
  rw [primStart_free ab s free]
  exact ⟨returned.after started, bit⟩

/-! ### BINIT (R8, R92) -/

/-- QDIV is a least divisor (R8, R15): Mathlib's ceiling division. -/
theorem qdiv_le_iff {p : Params} (positive : 0 < p.fSclHz) (n : Nat) : qdiv p ≤ n ↔ p.fClkHz ≤ n * (4 * p.fSclHz) := by
  have ceiling : qdiv p = p.fClkHz ⌈/⌉ (4 * p.fSclHz) := (Nat.ceilDiv_eq_add_pred_div _ _).symm
  rw [ceiling, ceilDiv_le_iff_le_mul (by omega), Nat.mul_comm]

/-- Settles O22: a BINIT that is not refused writes BAUD, EN and LAST, and QDIV is the least divisor that is slow enough. -/
theorem binitProgramsAndEnables : Obligations.BinitProgramsAndEnables := by
  refine ⟨by decide, fun s en => unlessRefused_runs en, fun s en => unlessRefused_refused en, fun p positive => ?_⟩
  exact ⟨(qdiv_le_iff positive _).mp le_rfl, fun n => (qdiv_le_iff positive n).mpr⟩

/-! ### The timeout abort and the acknowledge policy (R98, R99) -/

/-- Settles O26: the primitives by the answer Expired. -/
theorem timeoutAbortReleases : Obligations.TimeoutAbortReleases :=
  ⟨fun _ => rfl, fun s v h => xmit_expired v s h, fun s ab h => primStart_expired ab s h, primStop_expired⟩

/-- Settles O27: a byte not acknowledged, by the policy. -/
theorem acknowledgePolicy : Obligations.AcknowledgePolicy := by
  intro v s nacked
  constructor
  · intro policy
    rw [xmit_nacked v s nacked, byteDone_ignore v _ (by simpa using policy)]
    simp
  · intro policy
    rw [xmit_nacked v s nacked, byteDone_report v _ (by simpa using policy)]
    simp

/-! ### The host primitives START, WBYTE and STOP (R93 to R96) -/

/-- The draw of a start does not read BUSY and SEQ. -/
theorem drawStart_runs (q : Seq) (s : State) : drawStart (runs q s) = ((drawStart s).1, runs q (drawStart s).2) := by
  simp only [drawStart, runs_starts, runs_draws]; split <;> rfl

theorem drawByte_runs (q : Seq) (s : State) : (drawByte (runs q s)).1 = (drawByte s).1 := drawByte_congr _ _ rfl rfl

theorem drawStop_runs (q : Seq) (s : State) : (drawStop (runs q s)).1 = (drawStop s).1 := drawStop_congr _ _ rfl rfl

/-- START, WBYTE and STOP that are not refused end with the code of their result (R93, R95, R96). -/
theorem exec_start_runs (a : BitVec 7) {s : State} (en : s.en = true) :
    exec (.start a false) s = .next (endWithResult (primStart (addrByte a false) (runs .prim s))) :=
  unlessRefused_runs (by simp [stateRefuses, en])

theorem exec_wbyte_runs (v : Byte) {s : State} (en : s.en = true) (opn : s.opn = true) :
    exec (.wbyte v) s = .next (endWithResult (xmit v (runs .prim s))) :=
  unlessRefused_runs (by simp [stateRefuses, en, opn])

theorem exec_stop_runs {s : State} (en : s.en = true) (opn : s.opn = true) :
    exec .stop s = .next (endWithResult (primStop (runs .prim s))) :=
  unlessRefused_runs (by simp [stateRefuses, en, opn])

/-- A host START on a free bus has ended, by the answer to its address byte. -/
theorem start_ended {a : BitVec 7} {s : State} {o : ByteOutcome} {r : Result} {evs : List Event} {isOpen ackl : Bool}
    (answer : ByteAnswer s (addrByte a false) o r evs isOpen ackl) (free : (drawStart s).1 = .free)
    (draw : (drawByte (drawStart s).2).1 = o) :
    EndedPlain s (endWithResult (primStart (addrByte a false) (runs .prim s))) (.start :: evs) isOpen
        (codeBits (resultCode r)) (r == .timeout) (r == .nack) ∧
      (endWithResult (primStart (addrByte a false) (runs .prim s))).ackl = ackl := by
  have runsAnswer : ByteAnswer (runs .prim s) (addrByte a false) o r evs isOpen ackl := answer.congr rfl rfl
  have start := drawStart_runs .prim s
  obtain ⟨returned, bit⟩ := primStart_returned runsAnswer (by rw [start, free]) (by rw [start, drawByte_runs, draw])
  exact ⟨(returned.after (runs_appended _ _)).endWithResult, bit⟩

/-- Settles O23: the start expires, or its address byte meets one of its answers. -/
theorem startIssuesStartAndAddress : Obligations.StartIssuesStartAndAddress := by
  intro a s en
  refine ⟨_, exec_start_runs a en, ?_⟩
  cases free : (drawStart s).1 with
  | expired =>
    have expired : (drawStart (runs .prim s)).1 = .expired := by rw [drawStart_runs, free]
    obtain ⟨returned, ackl⟩ := primStart_expired_returned (addrByte a false) expired
    exact ⟨(returned.after (runs_appended _ _)).endWithResult, ackl⟩
  | free =>
    cases draw : (drawByte (drawStart s).2).1 with
    | acked => exact start_ended .acked free draw
    | expired => exact start_ended .expired free draw
    | nacked =>
      cases policy : s.par.nackPolicy with
      | report =>
        obtain ⟨ended, ackl⟩ := start_ended (.reported policy) free draw
        exact ⟨fun _ => ended, by simp, ackl⟩
      | ignore =>
        obtain ⟨ended, ackl⟩ := start_ended (.ignored policy) free draw
        exact ⟨by simp, fun _ => ended, ackl⟩

/-- A host WBYTE has ended, by the answer to its byte. -/
theorem wbyte_ended {v : Byte} {s : State} {o : ByteOutcome} {r : Result} {evs : List Event} {isOpen ackl : Bool}
    (answer : ByteAnswer s v o r evs isOpen ackl) (draw : (drawByte s).1 = o) (opn : s.opn = true) :
    EndedPlain s (endWithResult (xmit v (runs .prim s))) evs isOpen (codeBits (resultCode r)) (r == .timeout)
        (r == .nack) ∧
      (endWithResult (xmit v (runs .prim s))).ackl = ackl := by
  have runsAnswer : ByteAnswer (runs .prim s) v o r evs isOpen ackl := answer.congr rfl rfl
  obtain ⟨returned, bit⟩ := xmit_returned runsAnswer ((drawByte_runs _ s).trans draw) opn
  exact ⟨(returned.after (runs_appended _ _)).endWithResult, bit⟩

/-- The word of a WBYTE is its opcode and its byte side by side (R70, R71). -/
theorem wbyte_word (v : Byte) : 0x3000 ||| v.setWidth 16 = cmdWord 0x3 0 v := by
  apply BitVec.eq_of_toNat_eq
  have joined : (cmdWord 0x3 0 v).toNat = (0x3#4 ++ 0x0#4).toNat <<< 8 ||| v.toNat := BitVec.toNat_append _ _
  have small := v.isLt
  rw [joined, BitVec.toNat_or, BitVec.toNat_setWidth, Nat.mod_eq_of_lt (by omega)]
  rfl

theorem decode_wbyte (v : Byte) : decode (cmdWord 0x3 0 v) = .ok (.wbyte v) := by
  have row : TableRow (cmdWord 0x3 0 v) (.wbyte (loField (cmdWord 0x3 0 v))) :=
    .wbyte (mask_withLo_iff.mpr ⟨opField_cmdWord _ _ _, hiField_cmdWord _ _ _⟩)
  simpa [loField_cmdWord] using row.decode

/-- An illegal word of WBYTE: one of the bits 11:8 is set (R72, R73 (b)). -/
theorem decode_wbyte_illegal {w : Word16} (op : opField w = 3) (hi : hiField w ≠ 0) : decode w = .error .reservedBits := by
  simp only [decode, op, withLo, if_neg hi]
  rfl

/-- Settles O24: the word, the refusals, and the byte that meets one of its answers. -/
theorem wbyteSendsItsByte : Obligations.WbyteSendsItsByte := by
  refine ⟨fun v => by rw [wbyte_word, decode_wbyte], fun w op hi => ⟨_, decode_wbyte_illegal op hi⟩,
    fun v s refused => unlessRefused_refused (by simpa [stateRefuses] using refused), fun v s en opn => ?_⟩
  refine ⟨_, exec_wbyte_runs v en opn, ?_⟩
  cases draw : (drawByte s).1 with
  | acked => exact wbyte_ended .acked draw opn
  | expired => exact wbyte_ended .expired draw opn
  | nacked =>
    cases policy : s.par.nackPolicy with
    | report =>
      obtain ⟨ended, ackl⟩ := wbyte_ended (.reported policy) draw opn
      exact ⟨fun _ => ended, by simp, ackl⟩
    | ignore =>
      obtain ⟨ended, ackl⟩ := wbyte_ended (.ignored policy) draw opn
      exact ⟨by simp, fun _ => ended, ackl⟩

/-- An illegal word of STOP: one of the twelve bits below the opcode is set (R72, R73 (b)). -/
theorem decode_stop_illegal {w : Word16} (op : opField w = 4) (low : w.extractLsb' 0 12 ≠ 0) :
    decode w = .error .reservedBits := by
  have fields : hiField w ++ loField w = w.extractLsb' 0 12 := BitVec.extractLsb'_append_extractLsb'_eq_extractLsb' rfl
  have used : ¬ (hiField w = 0 ∧ loField w = 0) := fun ⟨hi, lo⟩ => low (by rw [← fields, hi, lo]; rfl)
  simp only [decode, op, bare, if_neg used]
  rfl

/-- Settles O25: the word, the refusals, and the stop that is done or expires. -/
theorem stopClosesTheBus : Obligations.StopClosesTheBus := by
  refine ⟨by decide, fun w op low => ⟨_, decode_stop_illegal op low⟩,
    fun s refused => unlessRefused_refused (by simpa [stateRefuses] using refused), fun s en opn => ?_⟩
  refine ⟨_, exec_stop_runs en opn, (primStop_pointer (runs .prim s)).2, ?_⟩
  have runsDraw := drawStop_runs .prim s
  cases draw : (drawStop s).1 with
  | expired => exact ((primStop_expired_returned (runsDraw.trans draw)).after (runs_appended _ _)).endWithResult
  | done => exact ((primStop_done_returned (runsDraw.trans draw)).after (runs_appended _ _)).endWithResult

/-! ### A byte on the wire at its position (R31, R93, R97) -/

/-- The primitive that sends a wire byte at a position: the first byte of a transaction comes after its start (R93, R97). -/
def wirePrimitive (pos : WirePos) (b : Byte) (s : State) : Result × State :=
  if pos = .addr then primStart b s else xmit b s

/-- A row at its position is its primitive and the move of the pointer. -/
theorem exec_wirePrimitive {i : Instr} {pos : WirePos} {b : Byte} {s : State} (code : encode i = .wire8 pos b)
    (here : atPos pos s = true) : exec i s = .next (movePointer (wirePrimitive pos b s)) := by
  by_cases first : pos = .addr
  · subst first
    obtain ⟨name, e⟩ := exec_addr s code
    exact e.trans (sendAddress_runs here)
  · rw [wirePrimitive, if_neg first]
    exact exec_atPos code first here

theorem wirePrimitive_frame (pos : WirePos) (b : Byte) (s : State) : ChannelFrame s (wirePrimitive pos b s).2 := by
  unfold wirePrimitive; split
  · exact primStart_frame b s
  · exact xmit_frame b s

theorem wirePrimitive_cch (pos : WirePos) (b : Byte) (s : State) : (wirePrimitive pos b s).2.cch = s.cch := by
  unfold wirePrimitive; split
  · exact (primStart_pointer b s).1
  · exact (xmit_pointer b s).1

/-- A wire byte, the start before it on a free bus, for every answer. -/
theorem wirePrimitive_returned {s : State} {pos : WirePos} {b : Byte} {o : ByteOutcome} {r : Result} {evs : List Event}
    {isOpen ackl : Bool} (answer : ByteAnswer s b o r evs isOpen ackl) (here : atPos pos s = true)
    (free : pos = .addr → (drawStart s).1 = .free) (draw : wireDraw pos s = o) :
    Returned s (wirePrimitive pos b s) r (wireStart pos ++ evs) isOpen (r == .timeout) (r == .nack) ∧
      (wirePrimitive pos b s).2.ackl = ackl := by
  obtain ⟨-, -, opn, -⟩ := (atPos_iff pos s).mp here
  unfold wirePrimitive wireStart
  unfold wireDraw at draw
  split
  · next first => exact primStart_returned answer (free first) (by rwa [if_pos first] at draw)
  · next later => exact xmit_returned answer (by rwa [if_neg later] at draw) (opn.resolve_right later)

/-- A byte at the pointer is a host primitive's, or a channel procedure's before its stop (R31). -/
theorem posOf_some {s : State} {pos : WirePos} (h : posOf s = some pos) :
    s.seq = .prim ∨ (ChannelSeq s.seq ∧ s.cch ≠ .stop) := by
  obtain ⟨prim, -⟩ | ⟨channel, ⟨cch, -⟩ | ⟨cch, -⟩ | ⟨cch, -⟩⟩ := posOf_cases h
  · exact .inl prim
  all_goals exact .inr ⟨channel, by simp [cch]⟩

/-- A primitive before the stop that timed out ends the command: INIT as INIT fails, every other with code 1 (R98, R183). -/
theorem movePointer_timedOut {s : State} {x : Result × State} (result : x.1 = .timeout) (seq : x.2.seq = s.seq)
    (cch : x.2.cch = s.cch) (position : s.seq = .prim ∨ (ChannelSeq s.seq ∧ s.cch ≠ .stop)) :
    movePointer x = if s.seq = .sInit then fail .initFailure x.2 else endCommand .busTimeout x.2 := by
  obtain prim | ⟨channel, beforeStop⟩ := position
  · rw [movePointer_prim (seq.trans prim), endWithResult, result, prim]; rfl
  · rw [movePointer_timeout (seq ▸ channel) result (cch ▸ beforeStop), procFailed, seq]; rfl

/-- How a row ends whose byte, or the start before it, ran out of time. -/
theorem wire_timedOut {i : Instr} {pos : WirePos} {b : Byte} {s : State} {evs : List Event} (code : encode i = .wire8 pos b)
    (here : atPos pos s = true) (returned : Returned s (wirePrimitive pos b s) .timeout evs false true false) :
    (s.seq ≠ .sInit → ∃ t, exec i s = .next t ∧ EndedPlain s t evs false 1 true false) ∧
    (s.seq = .sInit → ∃ t, exec i s = .next t ∧ Ended s t evs false 3 true false ∧ t.ready = s.ready ∧ t.eInit = true) := by
  obtain ⟨-, -, -, position⟩ := (atPos_iff pos s).mp here
  have move := movePointer_timedOut returned.result (wirePrimitive_frame pos b s).seq (wirePrimitive_cch pos b s)
    (posOf_some position)
  rw [exec_wirePrimitive code here, move]
  constructor
  · intro q
    rw [if_neg q]
    exact ⟨_, rfl, returned.ended .busTimeout⟩
  · intro q
    rw [if_pos q]
    exact ⟨_, rfl, returned.initFails⟩

/-- Settles O52: a Nack sends a procedure to its closing stop and ends a host primitive; a timeout of the byte, or of the
start before it, ends every command. -/
theorem wireByteFailureExits : Obligations.WireByteFailureExits := by
  intro s i pos b code here
  obtain ⟨busy, -, -, position⟩ := (atPos_iff pos s).mp here
  have run := exec_wirePrimitive code here
  have frame := wirePrimitive_frame pos b s
  refine ⟨fun free draw policy => ?nacked, fun free draw => ?expired, fun first expired => ?startExpired⟩
  case nacked =>
    obtain ⟨returned, ackl⟩ := wirePrimitive_returned (.reported policy) here free draw
    constructor
    · intro q
      obtain ⟨channel, beforeStop⟩ := (posOf_some position).resolve_left q
      rw [movePointer_nack (frame.seq ▸ channel) returned.result (wirePrimitive_cch pos b s ▸ beforeStop)] at run
      have reported : abandoning (wirePrimitive pos b s).2 = true := by
        simp [abandoning, ackl, returned.appended.bus.par, policy]
      exact ⟨_, run, returned.appended.trace, rfl, frame.busy.trans busy, returned.opn,
        by simpa using returned.appended.eNack, frame.last, reported, frame.bus.trans (atChan_frame _ _).bus⟩
    · intro q
      rw [movePointer_prim (frame.seq.trans q)] at run
      exact ⟨_, run, returned.endWithResult⟩
  case expired =>
    obtain ⟨returned, -⟩ := wirePrimitive_returned .expired here free draw
    exact wire_timedOut code here returned
  case startExpired =>
    subst first
    obtain ⟨returned, -⟩ := primStart_expired_returned b expired
    exact wire_timedOut code here returned

/-! ### A data byte (R95, R132, R161) -/

/-- DIX after a data byte that is not the last. -/
theorem loadDix_next (s : State) : (loadDix (s.dix.toNat + 1) s).dix = s.dix + 1 := by
  simp [BitVec.ofNat_add]

/-- Settles O51: in WCHAR's data transaction DIX says whether the separator was sent; a host WBYTE ends. -/
theorem dataByteSent : Obligations.DataByteSent := by
  intro s d acked here goes
  obtain ⟨-, -, opn, position⟩ := (atPos_iff .dataPayload s).mp here
  constructor
  · intro q range
    have payload : s.cch = .payload := by simpa [q] using posOf_cases position
    obtain ⟨u, run, frame, shr, ackl, cch, dix, trace⟩ :=
      exec_byte_ok (i := .wDataByte d) rfl (by simp) here goes (by simp [ChannelSeq, q]) (by simp [payload])
    by_cases more : s.dix.toNat < 5
    · have move : nextPrimitive u = loadDix (u.dix.toNat + 1) u := by
        simp [nextPrimitive, cch, payload, frame.seq, q, dix, more, glyphW]
      rw [move] at run
      exact ⟨_, run, trace, shr, ackl, fun _ => ⟨(loadDix_next u).trans (by rw [dix]), cch.trans payload⟩,
        fun last => absurd more (by omega), frame.loadDix _⟩
    · have move : nextPrimitive u = atChan .stop u := by
        simp [nextPrimitive, cch, payload, dix, more, glyphW]
      rw [move] at run
      exact ⟨_, run, trace, shr, ackl, fun less => absurd less more, fun _ => ⟨dix, rfl⟩, frame.atChan _⟩
  · intro q
    obtain ⟨frame, ok, -, ackl, -, -, trace⟩ := xmit_ok_frame (v := d) goes (opn.resolve_right (by simp))
    have move : movePointer (xmit d s) = endCommand .ok (xmit d s).2 := by
      rw [movePointer_prim (frame.seq.trans q), endWithResult, ok]; rfl
    exact ⟨_, (exec_atPos rfl (by simp) here).trans (congrArg _ move), frame.endedPlain trace, ackl⟩

/-! ### A transaction that runs out of time (R98, R131, R132) -/

theorem cons_prefix_iff {α : Type} {x : α} {l m : List α} : x :: l <+: m ↔ m.take 1 = [x] ∧ l <+: m.drop 1 := by
  cases m with
  | nil => simp
  | cons y rest => simp [List.cons_prefix_cons, eq_comm]

theorem singleton_prefix_iff {α : Type} {x : α} {m : List α} : [x] <+: m ↔ m.take 1 = [x] := by
  simp [cons_prefix_iff]

theorem andThen_timeout {x : Result × State} (k : State → Result × State) (h : x.1 = .timeout) : andThen x k = x := by
  obtain ⟨r, s⟩ := x
  simp only at h
  simp [andThen, abandon, h]

/-- The next answers let `j` bytes of a transaction of `n` bytes pass and then run out of time: byte `j`, or after all of them
the stop. -/
def ExpiresAt (n j : Nat) (s : State) : Prop :=
  (j < n ∧ List.replicate j ByteOutcome.acked ++ [ByteOutcome.expired] <+: s.bytes) ∨
    (j = n ∧ List.replicate n ByteOutcome.acked <+: s.bytes ∧ [StopOutcome.expired] <+: s.stops)

theorem ExpiresAt.of_draws {n j : Nat} {s t : State} (h : ExpiresAt n j s) (bytes : t.bytes = s.bytes)
    (stops : t.stops = s.stops) : ExpiresAt n j t := by
  rwa [ExpiresAt, bytes, stops]

theorem expiresAt_zero {n : Nat} {s : State} (h : ExpiresAt (n + 1) 0 s) : (drawByte s).1 = .expired := by
  obtain ⟨-, bytes⟩ | ⟨none, -⟩ := h
  · rw [drawByte_of_take s .expired (singleton_prefix_iff.mp bytes)]
  · omega

theorem expiresAt_succ {n j : Nat} {s : State} (h : ExpiresAt (n + 1) (j + 1) s) :
    s.bytes.take 1 = [.acked] ∧ ∀ t : State, t.bytes = s.bytes.drop 1 → t.stops = s.stops → ExpiresAt n j t := by
  obtain ⟨range, bytes⟩ | ⟨all, bytes, stops⟩ := h
  · rw [List.replicate_succ, List.cons_append, cons_prefix_iff] at bytes
    exact ⟨bytes.1, fun t hb _ => .inl ⟨by omega, hb ▸ bytes.2⟩⟩
  · rw [List.replicate_succ, cons_prefix_iff] at bytes
    exact ⟨bytes.1, fun t hb hs => .inr ⟨by omega, hb ▸ bytes.2, hs ▸ stops⟩⟩

/-- What a procedure does before a primitive, on the pointer and PB: it appends no event and uses no draw (R131, R132). -/
def Silent (f : State → State) : Prop := ∀ s, Sent s (f s) [] 0 0 0

theorem Silent.comp {f g : State → State} (hf : Silent f) (hg : Silent g) : Silent (fun s => g (f s)) :=
  fun s => (hf s).trans (hg (f s))

/-- `k` sends the bytes `vs` one after another and then a stop (R131, R132). -/
inductive SendsThenStops : List Byte → (State → Result × State) → Prop
  | stop {f : State → State} (silent : Silent f) : SendsThenStops [] fun s => primStop (f s)
  | byte {f : State → State} (silent : Silent f) (v : Byte) {vs : List Byte} {k : State → Result × State}
      (rest : SendsThenStops vs k) : SendsThenStops (v :: vs) fun s => andThen (xmit v (f s)) k

theorem SendsThenStops.after {vs : List Byte} {k : State → Result × State} {f : State → State} (h : SendsThenStops vs k)
    (silent : Silent f) : SendsThenStops vs fun s => k (f s) := by
  cases h with
  | stop hf => exact .stop (silent.comp hf)
  | byte hf v rest => exact .byte (silent.comp hf) v rest

theorem sendPayload_sends (j : Nat) (bs : List Byte) : SendsThenStops bs (sendPayload j bs) := by
  induction bs generalizing j with
  | nil => exact .stop (sent_atChan .stop)
  | cons b rest ih => exact .byte (sent_loadDix j) b (ih (j + 1))

/-- The bytes that pass are in the trace, and nothing follows the T. -/
theorem SendsThenStops.timedOut {vs : List Byte} {k : State → Result × State} (h : SendsThenStops vs k) {j : Nat}
    {s : State} (expires : ExpiresAt vs.length j s) :
    Returned s (k s) .timeout ((vs.take j).map (fun b => Event.byte b true) ++ [Event.timeout]) false true false := by
  induction h generalizing j s with
  | @stop f silent =>
    obtain ⟨none, -⟩ | ⟨-, -, stops⟩ := expires
    · simp at none
    · have e := drawStop_of_take (f s) .expired (by rw [(silent s).stops]; exact singleton_prefix_iff.mp stops)
      have returned := (primStop_expired_returned (s := f s) (by rw [e])).after (silent s).appended
      simpa using returned
  | @byte f silent v vs k rest ih =>
    beta_reduce
    have here := expires.of_draws (silent s).bytes (silent s).stops
    cases j with
    | zero =>
      have returned := xmit_expired_returned v (expiresAt_zero here)
      rw [andThen_timeout _ returned.result]
      exact returned.after (silent s).appended
    | succ j =>
      obtain ⟨acked, later⟩ := expiresAt_succ here
      obtain ⟨ok, -, sent⟩ := xmit_good v (f s) acked
      rw [andThen_ok _ ok]
      exact (ih (later _ sent.bytes sent.stops)).after ((silent s).trans sent).appended

/-- `p` is a transaction with the bytes `vs`, the device's address byte the first of them (R75, R131, R132). -/
inductive Transaction : List Byte → (State → Result × State) → Prop
  | mk {f : State → State} (silent : Silent f) {vs : List Byte} {k : State → Result × State}
      (rest : SendsThenStops vs k) : Transaction (0x78 :: vs) fun s => andThen (primStart devAddrByte (f s)) k

theorem sendCommand_transaction (op : Byte) : Transaction [0x78, 0x00, op] (sendCommand op) := by
  have silent : Silent fun s => atChan .start (loadPb op s) := fun s => (sent_loadPb op s).trans (sent_atChan _ _)
  rw [funext (sendCommand_eq op)]
  exact .mk silent (.byte (sent_atChan .ctrl) ctrlCmdByte (.byte (sent_atChan .payload) op (.stop (sent_atChan .stop))))

theorem sendDataBytes_transaction (bs : List Byte) : Transaction (0x78 :: 0x40 :: bs) (sendDataBytes bs) :=
  .mk (sent_atChan .start)
    (.byte (sent_atChan .ctrl) ctrlDataByte ((sendPayload_sends 0 bs).after (sent_atChan .payload)))

/-- The start of a transaction runs out of time. -/
theorem Transaction.start_timedOut {vs : List Byte} {p : State → Result × State} (h : Transaction vs p) {s : State}
    (start : [StartOutcome.expired] <+: s.starts) : Returned s (p s) .timeout [.timeout] false true false := by
  obtain @⟨f, silent, vs, k, -⟩ := h
  beta_reduce
  have e := drawStart_of_take (f s) .expired (by rw [(silent s).starts]; exact singleton_prefix_iff.mp start)
  obtain ⟨returned, -⟩ := primStart_expired_returned devAddrByte (s := f s) (by rw [e])
  rw [andThen_timeout _ returned.result]
  exact returned.after (silent s).appended

/-- Byte `j` of a transaction, or its stop, runs out of time. -/
theorem Transaction.timedOut {vs : List Byte} {p : State → Result × State} (h : Transaction vs p) {s : State} {j : Nat}
    (start : [StartOutcome.free] <+: s.starts) (expires : ExpiresAt vs.length j s) :
    Returned s (p s) .timeout (timedOutAt vs j) false true false := by
  obtain @⟨f, silent, vs, k, rest⟩ := h
  beta_reduce
  have free : (f s).starts.take 1 = [.free] := by rw [(silent s).starts]; exact singleton_prefix_iff.mp start
  have here := expires.of_draws (silent s).bytes (silent s).stops
  cases j with
  | zero =>
    have e := drawStart_of_take (f s) .free free
    have draw : (drawByte (drawStart (f s)).2).1 = .expired :=
      expiresAt_zero (here.of_draws (drawStart_bytes _) (drawStart_stops _))
    obtain ⟨returned, -⟩ := primStart_returned (ab := devAddrByte) .expired (by rw [e]) draw
    rw [andThen_timeout _ returned.result]
    exact returned.after (silent s).appended
  | succ j =>
    obtain ⟨acked, later⟩ := expiresAt_succ here
    obtain ⟨ok, -, sent⟩ := primStart_good devAddrByte (f s) free acked
    rw [andThen_ok _ ok]
    exact (rest.timedOut (later _ sent.bytes sent.stops)).after ((silent s).trans sent).appended

/-! ### The loop of INIT and SETCUR up to the step that fails (R140, R160) -/

/-- The answers that let `k` steps of the loop pass, and what is listed after them. -/
theorem NextDraws.steps {k : Nat} {a : List StartOutcome} {b : List ByteOutcome} {c : List StopOutcome} {s : State}
    (h : NextDraws (List.replicate k StartOutcome.free ++ a) (List.replicate (3 * k) ByteOutcome.acked ++ b)
      (List.replicate k StopOutcome.done ++ c) s) :
    GoodDraws k (3 * k) k s ∧ ∀ t : State, t.starts = s.starts.drop k → t.bytes = s.bytes.drop (3 * k) →
      t.stops = s.stops.drop k → NextDraws a b c t := by
  have listed {α : Type} {n : Nat} {x : α} {l m : List α} (e : List.replicate n x ++ l <+: m) :
      m.take n = List.replicate n x ∧ l <+: m.drop n := by
    obtain ⟨rest, rfl⟩ := e
    simp
  obtain ⟨starts, bytes, stops⟩ := h
  exact ⟨⟨(listed starts).1, (listed bytes).1, (listed stops).1⟩, fun t hs hb hp =>
    ⟨hs ▸ (listed starts).2, hb ▸ (listed bytes).2, hp ▸ (listed stops).2⟩⟩

/-- The first `k` steps of the loop return Ok and step `k` does not: no later step is sent. -/
theorem sendCommands_fails_at {bs : List Byte} {k : Nat} {s : State} {r : Result} {evs : List Event}
    {isOpen timedOut nacked : Bool} (range : k < bs.length) (good : GoodDraws k (3 * k) k s) (failed : r ≠ .ok)
    (step : ∀ t : State, t.starts = s.starts.drop k → t.bytes = s.bytes.drop (3 * k) → t.stops = s.stops.drop k →
      Returned t (sendCommand (bs.getD k 0) t) r evs isOpen timedOut nacked) :
    Returned s (sendCommands bs s) r ((bs.take k).flatMap commandEvents ++ evs) isOpen timedOut nacked := by
  induction k generalizing bs s with
  | zero =>
    cases bs with
    | nil => simp at range
    | cons b rest =>
      have first := step s rfl rfl rfl
      cases rest with
      | nil => exact first
      | cons c rest =>
        rw [sendCommands_cons, if_neg (first.result ▸ failed)]
        exact first
  | succ k ih =>
    obtain _ | ⟨b, _ | ⟨c, rest⟩⟩ := bs
    · simp at range
    · simp at range
    · have split : GoodDraws (1 + k) (3 + 3 * k) (1 + k) s := by simpa [Nat.mul_add, Nat.add_comm] using good
      obtain ⟨ok, -, sent⟩ := sendCommand_good b s split.first
      have passed : Appended s (advanceIpc (sendCommand b s).2) (commandEvents b) false false := by
        simpa using sent.appended.trans (advanceIpc_appended _)
      rw [sendCommands_cons, if_pos ok]
      have rest := ih (bs := c :: rest) (s := advanceIpc (sendCommand b s).2) (by simpa using range)
        (split.second sent.starts sent.bytes sent.stops) fun t starts bytes stops =>
          step t (by simp [starts, sent.starts]) (by simp [bytes, sent.bytes, Nat.mul_add, Nat.add_comm])
            (by simp [stops, sent.stops])
      simpa using rest.after passed

/-! ### SCMD, SETCUR and WCHAR out of time (R98, R131, R133, R160, R161) -/

/-- A command but INIT whose procedure or loop ran out of time, as it ends. -/
theorem timedOut_ended {i : Instr} {s u : State} {x : Result × State} {evs : List Event}
    (run : exec i s = .next (endWithResult x)) (begun : Appended s u [] false false)
    (returned : Returned u x .timeout evs false true false) :
    ∃ t, exec i s = .next t ∧ EndedPlain s t evs false 1 true false :=
  ⟨_, run, (returned.after begun).endWithResult⟩

/-- SCMD, SETCUR and WCHAR that are not refused end with the code of their result (R130, R160, R161). -/
theorem exec_scmd_runs (v : Byte) {s : State} (en : s.en = true) (opn : s.opn = false) :
    exec (.scmd v) s = .next (endWithResult (sendCommand v (runs .sCmd s))) :=
  unlessRefused_runs (by simp [stateRefuses, en, opn])

theorem exec_setcur_runs (p : BitVec 3) (c : BitVec 7) {s : State} (en : s.en = true) (opn : s.opn = false)
    (ready : s.ready = true) :
    exec (.setcur p c) s = .next (endWithResult (sendCommands (cursorBytes p c) (clearIpc (runs .sCur s)))) :=
  unlessRefused_runs (by simp [stateRefuses, en, opn, ready])

theorem glyph_eq_some_iff {p : Params} {k : Byte} {g : List Byte} :
    glyph p k = some g ↔ ∃ idx, glyphIndex k = some idx ∧ glyphColumns p idx = g := by
  simp [glyph]

theorem glyph_length {p : Params} {k : Byte} {g : List Byte} (h : glyph p k = some g) : g.length = 5 := by
  obtain ⟨idx, -, rfl⟩ := glyph_eq_some_iff.mp h
  rfl

theorem exec_wchar_runs {k : Byte} {g : List Byte} {s : State} (en : s.en = true) (opn : s.opn = false)
    (ready : s.ready = true) (supported : glyph s.par.toParams k = some g) :
    ∃ idx, exec (.wchar k) s =
      .next (endWithResult (sendDataBytes (g ++ [0x00]) (loadGidx idx (runs .sChr s)))) := by
  obtain ⟨idx, hg, rfl⟩ := glyph_eq_some_iff.mp supported
  have runs : exec (.wchar k) s = .next (renderChar k s) := unlessRefused_runs (by simp [stateRefuses, en, opn, ready])
  exact ⟨idx, by simp [runs, renderChar, hg, cellBytes, separator]⟩

/-- The bytes of SETCUR as R160 writes them. -/
theorem cursorBytes_eq (p : BitVec 3) (c : BitVec 7) :
    cursorBytes p c =
      [0xB0 ||| p.setWidth 8, (c.extractLsb' 0 4).setWidth 8, 0x10 ||| (c.extractLsb' 4 3).setWidth 8] := by
  simp [cursorBytes, pageByte, colLowByte, colHighByte, colLow, colHigh]

/-- A SETCUR whose first `k` steps pass and whose step `k` then runs out of time. -/
theorem setcur_timedOut {p : BitVec 3} {c : BitVec 7} {s : State} {k : Nat} {starts : List StartOutcome}
    {bytes : List ByteOutcome} {stops : List StopOutcome} {evs : List Event} (range : k < 3) (en : s.en = true)
    (opn : s.opn = false) (ready : s.ready = true)
    (draws : NextDraws (List.replicate k StartOutcome.free ++ starts) (List.replicate (3 * k) ByteOutcome.acked ++ bytes)
      (List.replicate k StopOutcome.done ++ stops) s)
    (step : ∀ t, NextDraws starts bytes stops t →
      Returned t (sendCommand ((cursorBytes p c).getD k 0) t) .timeout evs false true false) :
    ∃ t, exec (.setcur p c) s = .next t ∧
      EndedPlain s t (((cursorBytes p c).take k).flatMap commandEvents ++ evs) false 1 true false := by
  have begun : Appended s (clearIpc (runs .sCur s)) [] false false := (runs_appended _ _).trans (clearIpc_appended _)
  obtain ⟨good, listed⟩ := NextDraws.steps (s := clearIpc (runs .sCur s)) ⟨draws.starts, draws.bytes, draws.stops⟩
  exact timedOut_ended (exec_setcur_runs p c en opn ready) begun
    (sendCommands_fails_at range good (by simp) fun t hs hb hp => step t (listed t hs hb hp))

/-- Settles O30: SCMD and WCHAR are one transaction, and SETCUR one for each step, of which the last one begun runs out of
time at its start, at a byte or at its stop. -/
theorem scmdEndsAtTimeout : Obligations.ScmdEndsAtTimeout := by
  refine ⟨fun v s en opn => ?scmd, fun p c s k range en opn ready => ?setcur,
    fun ch g s en opn ready supported => ?wchar⟩
  case scmd =>
    have run := exec_scmd_runs v en opn
    have begun := runs_appended .sCmd s
    have sent := sendCommand_transaction v
    refine ⟨fun start => ?_, fun j range start bytes => ?_, fun start bytes stop => ?_⟩
    · exact timedOut_ended run begun (sent.start_timedOut (singleton_prefix_iff.mpr start))
    · have expires : ExpiresAt 3 j s := .inl ⟨range, bytes ▸ List.take_prefix _ _⟩
      exact timedOut_ended run begun (sent.timedOut (singleton_prefix_iff.mpr start) expires)
    · have passed : List.replicate 3 ByteOutcome.acked <+: s.bytes := by
        rw [List.prefix_iff_eq_take]; exact bytes.symm
      have expires : ExpiresAt 3 3 s := .inr ⟨rfl, passed, singleton_prefix_iff.mpr stop⟩
      exact timedOut_ended (evs := timedOutAt [0x78, 0x00, v] 3) run begun
        (sent.timedOut (singleton_prefix_iff.mpr start) expires)
  case setcur =>
    rw [← cursorBytes_eq]
    have sent := sendCommand_transaction ((cursorBytes p c).getD k 0)
    refine ⟨fun draws => ?_, fun j hj draws => ?_, fun draws => ?_⟩
    · exact setcur_timedOut (bytes := []) (stops := []) range en opn ready (by simpa using draws) fun t draws =>
        sent.start_timedOut draws.starts
    · rw [List.replicate_succ', List.replicate_add, List.append_assoc] at draws
      exact setcur_timedOut (stops := []) range en opn ready (by simpa using draws) fun t draws =>
        sent.timedOut draws.starts (.inl ⟨hj, draws.bytes⟩)
    · rw [List.replicate_succ', List.replicate_add] at draws
      exact setcur_timedOut range en opn ready draws fun t draws =>
        sent.timedOut draws.starts (.inr ⟨rfl, draws.bytes, draws.stops⟩)
  case wchar =>
    obtain ⟨idx, run⟩ := exec_wchar_runs en opn ready supported
    have begun : Appended s (loadGidx idx (runs .sChr s)) [] false false :=
      (runs_appended _ _).trans (loadGidx_appended _ _)
    have sent := sendDataBytes_transaction (g ++ [0x00])
    have length : (0x78 :: 0x40 :: (g ++ [0x00]) : List Byte).length = 8 := by simp [glyph_length supported]
    refine ⟨fun draws => ?_, fun j range draws => ?_, fun draws => ?_⟩
    · exact timedOut_ended run begun (sent.start_timedOut draws.starts)
    · exact timedOut_ended run begun (sent.timedOut draws.starts (.inl ⟨by rwa [length], draws.bytes⟩))
    · exact timedOut_ended run begun
        (sent.timedOut draws.starts (.inr ⟨length.symm, by rw [length]; exact draws.bytes, draws.stops⟩))

end Sys2Proof.Machine
end

section
/-! Proofs of the statements about the bus line engine: one clock edge of a running command by the item that is active, a
wait that runs out of time, the acknowledge sample, a whole program with nobody else pulling, and the observer of the
lines. -/

namespace Sys2Proof.Machine

/-! ### The cycles of the programs (R123) -/

/-- A byte is nine cells of four quarters and one wait (R117). -/
theorem driveQuarters_byteItems (v : Byte) (e : Bool) : driveQuarters (byteItems v e) = 36 := by
  simp [byteItems, dataCell, ackCell, driveQuarters]

theorem waitCount_byteItems (v : Byte) (e : Bool) : waitCount (byteItems v e) = 9 := by
  simp [byteItems, dataCell, ackCell, waitCount]

theorem progCycles_byte (q k : Nat) (v : Byte) : progCycles q k (.byte v) = 36 * q + 9 * k := by
  simp [progCycles, items, driveQuarters_byteItems, waitCount_byteItems]

theorem progCycles_startIdle (q k : Nat) (v : Byte) : progCycles q k (.startIdle v) = 40 * q + 10 * k := by
  simp [progCycles, items, startItems, driveQuarters, waitCount, driveQuarters_byteItems, waitCount_byteItems]

theorem progCycles_restart (q k : Nat) (v : Byte) : progCycles q k (.restart v) = 41 * q + 10 * k := by
  simp [progCycles, items, startItems, driveQuarters, waitCount, driveQuarters_byteItems, waitCount_byteItems]

theorem progCycles_stop (q k : Nat) : progCycles q k .stop = 6 * q + 2 * k := by
  simp [progCycles, items, driveQuarters, waitCount]

/-- Settles O54: the quarters and the waits of the four programs, and their sums over a transaction. -/
theorem programCycleCounts : Obligations.ProgramCycleCounts := by
  intro q k v
  simp only [progCycles_byte, progCycles_startIdle, progCycles_restart, progCycles_stop]
  exact ⟨trivial, trivial, trivial, trivial, by ring, fun n => by ring⟩

/-! ### One clock edge by the active item (R113) -/

theorem consume_of_cycle {s : State} (grain : s.grain = .cycle) :
    consume s = { s with port := s.port.tail, pulls := s.pulls.tail, cycle := s.cycle + 1 } := by
  simp [consume, grain]

/-- A reading of the state that depends on neither the port, the pulls nor the cycle counter is kept by the passage of an
edge. -/
theorem consume_reads {α : Type} (read : State → α) {s : State}
    (kept : ∀ port pulls n, read { s with port := port, pulls := pulls, cycle := n } = read s) :
    read (consume s) = read s := by
  obtain ⟨_, _, _, e⟩ := consume_keeps s
  rw [e]; exact kept _ _ _

@[simp] theorem consume_en (s : State) : (consume s).en = s.en := consume_reads (·.en) fun _ _ _ => rfl
@[simp] theorem consume_opn (s : State) : (consume s).opn = s.opn := consume_reads (·.opn) fun _ _ _ => rfl
@[simp] theorem consume_busy (s : State) : (consume s).busy = s.busy := consume_reads (·.busy) fun _ _ _ => rfl
@[simp] theorem consume_baud (s : State) : (consume s).baud = s.baud := consume_reads (·.baud) fun _ _ _ => rfl
@[simp] theorem consume_trace (s : State) : (consume s).trace = s.trace := consume_reads (·.trace) fun _ _ _ => rfl
@[simp] theorem consume_php (s : State) : (consume s).php = s.php := consume_reads (·.php) fun _ _ _ => rfl
@[simp] theorem consume_qcnt (s : State) : (consume s).qcnt = s.qcnt := consume_reads (·.qcnt) fun _ _ _ => rfl
@[simp] theorem consume_tmo (s : State) : (consume s).tmo = s.tmo := consume_reads (·.tmo) fun _ _ _ => rfl
@[simp] theorem consume_sclOe (s : State) : (consume s).sclOe = s.sclOe := consume_reads (·.sclOe) fun _ _ _ => rfl
@[simp] theorem consume_sdaOe (s : State) : (consume s).sdaOe = s.sdaOe := consume_reads (·.sdaOe) fun _ _ _ => rfl
@[simp] theorem consume_par (s : State) : (consume s).par = s.par := consume_reads (·.par) fun _ _ _ => rfl
@[simp] theorem consume_grain (s : State) : (consume s).grain = s.grain := consume_reads (·.grain) fun _ _ _ => rfl
@[simp] theorem sclLine_consume (s : State) (p : Pull) : sclLine (consume s) p = sclLine s p := by
  simp [sclLine]
@[simp] theorem sdaLine_consume (s : State) (p : Pull) : sdaLine (consume s) p = sdaLine s p := by
  simp [sdaLine]

/-- An edge at cycle grain at which a command runs and the host presents nothing: the line engine's, with the inputs
used up. -/
theorem step_clocked {s : State} (grain : s.grain = .cycle) (busy : s.busy = true) (rst : (portHead s).rst = false)
    (valid : (portHead s).cmdValid = false) : step s = lineEdge (pullHead s) (consume s) := by
  rw [step, stepOf, consume_of_cycle grain]
  simp only [edge, rst, busy, goOn, grain]
  cases lineEdge (pullHead s) _ <;> simp [dropIf, valid]

theorem lineEdge_drive {s : State} {ph : Phase} {c d : Bool} {n : Nat} (p : Pull) (php : s.php = some ph)
    (item : (items ph.prog)[ph.idx]? = some (.drive c d n)) :
    lineEdge p s = if s.qcnt.toNat ≤ 1 then itemDone (sdaLine s p) ph s else .next { s with qcnt := s.qcnt - 1 } := by
  simp only [lineEdge, php, item]

theorem lineEdge_wait {s : State} {ph : Phase} {c d : Bool} {cond : Cond} (p : Pull) (php : s.php = some ph)
    (item : (items ph.prog)[ph.idx]? = some (.wait c d cond)) :
    lineEdge p s =
      if holds cond (sclLine s p) (sdaLine s p) then itemDone (sdaLine s p) ph s
      else if s.par.timeoutLimit ≤ s.tmo + 1 then waitExpired s
      else .next { s with tmo := s.tmo + 1 } := by
  simp only [lineEdge, php, item]

/-- Settles O56: the edge of a drive phase that is not over. -/
theorem driveCountsDown : Obligations.DriveCountsDown := by
  intro s ph c d n grain busy rst valid php item running
  rw [step_clocked grain busy rst valid, lineEdge_drive (ph := ph) _ (by simpa using php) item,
    if_neg (by simpa using running), consume_qcnt]

/-! ### A wait that runs out of time (R119, R133) -/

/-- The failure code of a running command whose primitive timed out: where its procedure is closing after a Nack, the Nack
is its first error (R133). -/
def timeoutCode (s : State) : ResultCode :=
  if (s.seq = .sCmd ∨ s.seq = .sCur ∨ s.seq = .sChr) ∧ s.cch = .stop ∧ abandoning s = true then .busNack
  else .busTimeout

/-- A primitive that timed out ends the command, INIT with its own failure (R90, R133, R143). -/
theorem movePointer_timeoutAbort {s : State} (running : s.seq ≠ .idle) :
    movePointer (.timeout, timeoutAbort s) =
      if s.seq = .sInit then fail .initFailure (timeoutAbort s) else endCommand (timeoutCode s) (timeoutAbort s) := by
  have closing : abandoning (timeoutAbort s) = abandoning s := rfl
  cases q : s.seq with
  | idle => exact absurd q running
  | prim => simp [movePointer, endWithResult, timeoutCode, resultCode, q]
  | sInit => simp [movePointer, channelDone, procFailed, q]
  | sCmd | sCur | sChr =>
    by_cases stop : s.cch = .stop <;> cases a : abandoning s <;>
      simp [movePointer, channelDone, procFailed, timeoutCode, resultCode, q, closing, stop, a]

theorem proceed_ended {s : State} (idle : s.busy = false) : proceed s = .next (restLines s) := by
  simp [proceed, idle]

/-- The end of the command whose wait runs out of time, by the pointer's SEQ (R98, R119, R133, R143). -/
theorem waitExpired_ends {s : State} (running : s.seq ≠ .idle) :
    ∃ t, waitExpired s = .next t ∧ t.trace = s.trace ++ [.timeout] ∧ t.opn = false ∧ t.sclOe = false ∧
      t.sdaOe = false ∧ t.eTimeout = true ∧ t.busy = false ∧ t.seq = .idle ∧ t.ready = s.ready ∧ t.en = s.en ∧
      t.baud = s.baud ∧ t.last = codeBits (if s.seq = .sInit then .initFailure else timeoutCode s) ∧
      (s.seq = .sInit → t.eInit = true) := by
  unfold waitExpired
  rw [movePointer_timeoutAbort running]
  split
  · next init =>
    refine ⟨_, proceed_ended rfl, ?_⟩
    simp [fail, restLines, setSticky]
  · next other =>
    refine ⟨_, proceed_ended rfl, ?_⟩
    simp [restLines, other]

/-- Settles O55: the edge of a wait that goes on, and the end of the command of one that does not. -/
theorem waitCountsAndTimesOut : Obligations.WaitCountsAndTimesOut := by
  intro s ph c d cond grain busy rst valid php item waiting
  have edge : step s = if s.par.timeoutLimit ≤ s.tmo + 1 then waitExpired (consume s)
      else .next { consume s with tmo := s.tmo + 1 } := by
    rw [step_clocked grain busy rst valid, lineEdge_wait (ph := ph) _ (by simpa using php) item,
      if_neg (by simpa using waiting)]
    simp only [consume_par, consume_tmo]
  constructor
  · intro below
    rw [edge, if_neg (by omega)]
  · intro limit running
    have consumed := consume_of_cycle grain
    obtain ⟨t, ended, trace, opn, scl, sda, timedOut, idle, seq, ready, en, baud, last, init⟩ :=
      waitExpired_ends (s := consume s) (by rw [consumed]; exact running)
    rw [consumed] at trace ready en baud last init
    refine ⟨t, by rw [edge, if_pos (by omega), ended], trace, opn, scl, sda, timedOut, idle, seq, ready, en, baud,
      fun q => ?prim, fun q => ⟨?init, init q⟩, fun q => ?channel⟩
    case prim => simp [last, timeoutCode, codeBits, q]
    case init => simp [last, codeBits, q]
    case channel =>
      have notInit : s.seq ≠ .sInit := by obtain q | q | q := q <;> simp [q]
      rw [last, if_neg notInit]
      simp only [timeoutCode, q, true_and]
      exact apply_ite codeBits _ _ _

/-! ### The acknowledge sample (R113, R115 to R117) -/

/-- Where an item is entered, SHR and BITC alone can change (R32, R34, R177). -/
theorem markCell_keeps (g : Prog) (j : Nat) (s : State) : ∃ v b, markCell g j s = { s with shr := v, bitc := b } := by
  unfold markCell
  split
  · exact ⟨s.shr, s.bitc, rfl⟩
  · split
    · exact ⟨_, _, rfl⟩
    · split
      · exact ⟨_, _, rfl⟩
      · exact ⟨s.shr, s.bitc, rfl⟩

/-- The first quarter of the acknowledge cell's high period, at its index in each of the three programs that send a byte, and
the items after it (R117). -/
theorem items_acknowledge {g : Prog} {v : Byte} {j : Nat}
    (h : (g = .byte v ∧ j = 35) ∨ (g = .startIdle v ∧ j = 39) ∨ (g = .restart v ∧ j = 40)) :
    (items g)[j]? = some (.drive false false 1) ∧
      (items g).drop (j + 1) = [.smp, .drive false false 1, .evByte v] := by
  obtain ⟨rfl, rfl⟩ | ⟨rfl, rfl⟩ | ⟨rfl, rfl⟩ := h <;> exact ⟨rfl, rfl⟩

/-- An item before SMP ends: ACKL takes SDA, and the drive phase after SMP is the active item (R113). -/
theorem itemDone_sample {g : Prog} {j n : Nat} {c d : Bool} {rest : List Item} (sda : Bool) (s : State)
    (next : (items g).drop (j + 1) = .smp :: .drive c d n :: rest) :
    ∃ v b, itemDone sda ⟨g, j⟩ s =
      .next { s with
        ackl := sda, php := some ⟨g, j + 2⟩, sclOe := c, sdaOe := d, qcnt := quarters n s, shr := v, bitc := b } := by
  obtain ⟨v, b, marked⟩ := markCell_keeps g (j + 2) (setAckl sda s)
  exact ⟨v, b, by simp only [itemDone, next, enter, marked]; rfl⟩

/-- Settles O57: the end of the phase before SMP. -/
theorem acknowledgeSampledMidHigh : Obligations.AcknowledgeSampledMidHigh := by
  intro s v g j place grain busy rst valid php last
  obtain ⟨item, next⟩ := items_acknowledge place
  obtain ⟨shr, bitc, sampled⟩ := itemDone_sample (sdaLine s (pullHead s)) (consume s) next
  have edge : step s = itemDone (sdaLine s (pullHead s)) ⟨g, j⟩ (consume s) := by
    rw [step_clocked grain busy rst valid, lineEdge_drive (ph := ⟨g, j⟩) _ (by simpa using php) item,
      if_pos (by simpa using last), sdaLine_consume]
  exact ⟨_, edge.trans sampled, rfl, rfl, consume_trace s, rfl, rfl, (consume_busy s).trans busy⟩

/-! ### A program with nobody else pulling (R113, R123) -/

/-- `n` edges, before each of which a command runs, lead from `s` to `t`. -/
inductive BusyRun : Nat → State → State → Prop
  | refl (s : State) : BusyRun 0 s s
  | edge {n : Nat} {s u t : State} (busy : s.busy = true) (first : step s = .next u) (rest : BusyRun n u t) :
      BusyRun (n + 1) s t

theorem BusyRun.trans {m n : Nat} {s u t : State} (h : BusyRun m s u) (k : BusyRun n u t) :
    BusyRun (n + m) s t := by
  induction h with
  | refl s => exact k
  | edge busy first _ ih => exact .edge busy first (ih k)

theorem BusyRun.run {n : Nat} {s t : State} (h : BusyRun n s t) : Host.Core.run core n s = .next t := by
  induction h with
  | refl s => rfl
  | edge _ first _ ih => exact (run_succ _ first).trans ih

theorem BusyRun.busy {n k : Nat} {s t : State} (h : BusyRun n s t) (before : k < n) :
    ∃ u, Host.Core.run core k s = .next u ∧ u.busy = true := by
  induction h generalizing k with
  | refl s => omega
  | edge busy first _ ih =>
    cases k with
    | zero => exact ⟨_, rfl, busy⟩
    | succ k =>
      obtain ⟨u, run, running⟩ := ih (k := k) (by omega)
      exact ⟨u, (run_succ k first).trans run, running⟩

/-- A command runs at cycle grain, the host presents nothing, and nobody else pulls a line in the next `n` cycles. -/
structure Unpulled (n : Nat) (s : State) : Prop where
  grain : s.grain = .cycle
  busy : s.busy = true
  port : s.port = []
  pulls : s.pulls.take n = List.replicate n ⟨false, false⟩

/-- `s` with the registers, the outputs and the arguments of the bus engine as in `x`. -/
def withEngine (x s : State) : State :=
  { s with
    php := x.php, sclOe := x.sclOe, sdaOe := x.sdaOe, qcnt := x.qcnt, tmo := x.tmo, shr := x.shr, bitc := x.bitc
    pulls := x.pulls, cycle := x.cycle }

theorem withEngine_trans {s t u : State} (h : t = withEngine t s) (k : u = withEngine u t) : u = withEngine u s := by
  rw [k, h]; rfl

theorem Unpulled.consume {n : Nat} {s : State} (h : Unpulled (n + 1) s) :
    Unpulled n (consume s) ∧ consume s = withEngine (consume s) s := by
  obtain ⟨grain, busy, port, pulls⟩ := h
  rw [consume_of_cycle grain]
  refine ⟨⟨grain, busy, by simp [port], ?_⟩, ?_⟩
  · cases e : s.pulls with
    | nil => simp [e, List.replicate_succ] at pulls
    | cons p rest => simpa [e, List.replicate_succ] using (congrArg List.tail pulls)
  · simp [withEngine, port]

/-- An unpulled cycle: the lines are what the block's outputs make them. -/
theorem Unpulled.step {n : Nat} {s : State} (h : Unpulled (n + 1) s) :
    step s = lineEdge ⟨false, false⟩ (Machine.consume s) := by
  obtain ⟨grain, busy, port, pulls⟩ := h
  have free : pullHead s = ⟨false, false⟩ := by
    cases e : s.pulls with
    | nil => simp [e, List.replicate_succ] at pulls
    | cons p rest => simp_all [pullHead, List.replicate_succ]
  have quiet : portHead s = .quiet := by simp [portHead, port]
  rw [step_clocked grain busy (by rw [quiet]; rfl) (by rw [quiet]; rfl), free]

theorem Unpulled.of_engine {n : Nat} {s t : State} (h : Unpulled n s) (e : t = withEngine t s) (pulls : t.pulls = s.pulls) :
    Unpulled n t := by
  rw [e] at pulls ⊢
  exact ⟨h.grain, h.busy, h.port, pulls ▸ h.pulls⟩

/-- The active item `j` of `g` lasts `n` cycles from `s` and ends with SDA at `sda`, and `m` unpulled cycles are left. -/
def ItemRuns (n m : Nat) (g : Prog) (j : Nat) (sda : Bool) (s : State) : Prop :=
  ∃ u, Unpulled m u ∧ u = withEngine u s ∧ ∀ t, itemDone sda ⟨g, j⟩ u = .next t → BusyRun n s t

/-- An active drive phase lasts the cycles left in QCNT (R112, R113). -/
theorem drive_runs {g : Prog} {j n k m : Nat} {c d : Bool} {s : State} (item : (items g)[j]? = some (.drive c d n))
    (php : s.php = some ⟨g, j⟩) (out : s.sdaOe = d) (count : s.qcnt.toNat = k + 1) (h : Unpulled (m + (k + 1)) s) :
    ItemRuns (k + 1) m g j (!d) s := by
  induction k generalizing s with
  | zero =>
    obtain ⟨later, same⟩ := h.consume
    refine ⟨consume s, later, same, fun t done => .edge h.busy ?_ (.refl t)⟩
    rw [h.step, lineEdge_drive (ph := ⟨g, j⟩) _ (by simpa using php) item, ← done]
    simp [sdaLine, out, count]
  | succ k ih =>
    obtain ⟨later, same⟩ := h.consume
    have counted : step s = .next { consume s with qcnt := s.qcnt - 1 } := by
      rw [h.step, lineEdge_drive (ph := ⟨g, j⟩) _ (by simpa using php) item]
      simp [count]
    have left : (s.qcnt - 1).toNat = k + 1 := by rw [BitVec.toNat_sub_of_le (by simp [BitVec.le_def, count])]; simp [count]
    obtain ⟨u, pulls, reached, runs⟩ := ih (s := { consume s with qcnt := s.qcnt - 1 }) (by simpa using php)
      (by simpa using out) left (later.of_engine rfl rfl)
    exact ⟨u, pulls, withEngine_trans (withEngine_trans same rfl) reached, fun t done =>
      .edge h.busy counted (runs t done)⟩

/-- An active wait whose condition the block's own outputs make true lasts one cycle (R113). -/
theorem wait_runs {g : Prog} {j m : Nat} {c d : Bool} {cond : Cond} {s : State}
    (item : (items g)[j]? = some (.wait c d cond)) (php : s.php = some ⟨g, j⟩) (out : s.sclOe = c ∧ s.sdaOe = d)
    (passes : holds cond (!c) (!d) = true) (h : Unpulled (m + 1) s) : ItemRuns 1 m g j (!d) s := by
  obtain ⟨later, same⟩ := h.consume
  refine ⟨consume s, later, same, fun t done => .edge h.busy ?_ (.refl t)⟩
  rw [h.step, lineEdge_wait (ph := ⟨g, j⟩) _ (by simpa using php) item, ← done]
  simp [sclLine, sdaLine, out, passes]

/-- The program `g` entered at index `j`, or its end where nothing is left of it. -/
def enterAt (sda : Bool) (g : Prog) (j : Nat) (s : State) : Host.Outcome State Fault Refusal :=
  match enter sda g j ((items g).drop j) s with
  | (s, false) => .next s
  | (s, true) => proceed (movePointer (progResult g s))

theorem itemDone_eq_enterAt (sda : Bool) (g : Prog) (j : Nat) (s : State) :
    itemDone sda ⟨g, j⟩ s = enterAt sda g (j + 1) s := rfl

/-- Every program begins with a phase. -/
theorem enterAt_first (g : Prog) (s : State) : enterAt false g 0 s = .next (enter false g 0 (items g) s).1 := by
  cases g <;> rfl

/-- What the items of a program do to ACKL, OPEN and the trace where nobody else pulls: SMP takes what the block's own output
makes of SDA in the phase before it (R113). -/
def settle (sda : Bool) : List Item → State → State
  | [], s => s
  | .drive _ d _ :: rest, s | .wait _ d _ :: rest, s => settle (!d) rest s
  | .smp :: rest, s => settle sda rest (setAckl sda s)
  | .evStart :: rest, s => settle sda rest (startDone s)
  | .evByte v :: rest, s => settle sda rest (logEvent (.byte v (!s.ackl)) s)
  | .evStop :: rest, s => settle sda rest (logEvent .stop (closeBus s))

theorem settle_withEngine (sda : Bool) (rest : List Item) (x s : State) :
    settle sda rest (withEngine x s) = withEngine x (settle sda rest s) := by
  induction rest generalizing sda s with
  | nil => rfl
  | cons item rest ih =>
    cases item with
    | drive c d n => exact ih (!d) s
    | wait c d cond => exact ih (!d) s
    | smp => exact ih sda (setAckl sda s)
    | evStart => exact ih sda (startDone s)
    | evByte v => exact ih sda (logEvent (.byte v (!s.ackl)) s)
    | evStop => exact ih sda (logEvent .stop (closeBus s))

/-- From where `g` is entered at `j`, with `rest` left of it, its end comes after `n` cycles, with what `rest` does done. -/
def RunsOut (n : Nat) (g : Prog) (j : Nat) (sda : Bool) (rest : List Item) (s : State) : Prop :=
  ∃ u, u = withEngine u (settle sda rest s) ∧
    ∀ t, proceed (movePointer (progResult g u)) = .next t → ∃ e, enterAt sda g j s = .next e ∧ BusyRun n e t

/-- An item without duration, and then the rest of the program. -/
theorem RunsOut.of_event {n : Nat} {g : Prog} {j : Nat} {sda : Bool} {item : Item} {rest : List Item} {s s' : State}
    (left : (items g).drop j = item :: rest) (event : enter sda g j (item :: rest) s = enter sda g (j + 1) rest s')
    (settled : settle sda (item :: rest) s = settle sda rest s') (later : RunsOut n g (j + 1) sda rest s') :
    RunsOut n g j sda (item :: rest) s := by
  have next : (items g).drop (j + 1) = rest := by rw [← List.tail_drop, left]; rfl
  have entered : enterAt sda g j s = enterAt sda g (j + 1) s' := by rw [enterAt, left, event, enterAt, next]
  rwa [RunsOut, settled, entered]

/-- A phase, and then the rest of the program. -/
theorem RunsOut.of_phase {n m : Nat} {g : Prog} {j : Nat} {sda sda' : Bool} {item : Item} {rest : List Item} {s e : State}
    (entered : enterAt sda g j s = .next e) (same : e = withEngine e s)
    (settled : settle sda (item :: rest) s = settle sda' rest s) (phase : ItemRuns n m g j sda' e)
    (later : ∀ v, Unpulled m v → v.baud = s.baud → RunsOut m g (j + 1) sda' rest v) :
    RunsOut (m + n) g j sda (item :: rest) s := by
  obtain ⟨v, unpulled, kept, runs⟩ := phase
  have kept : v = withEngine v s := withEngine_trans same kept
  obtain ⟨u, done, out⟩ := later v unpulled (by rw [kept]; rfl)
  refine ⟨u, ?_, fun t ended => ?_⟩
  · rw [kept, settle_withEngine, ← settled] at done
    exact done
  · obtain ⟨w, next, busy⟩ := out t ended
    exact ⟨e, entered, (runs w next).trans busy⟩

/-- The phases of the programs: a drive phase lasts one or two quarters, and a wait is for lines that the block itself has
released (R113). -/
def unpulledPhase : Item → Bool
  | .drive _ _ n => 1 ≤ n && n ≤ 2
  | .wait c d cond => holds cond (!c) (!d)
  | .smp | .evStart | .evByte _ | .evStop => true

theorem items_unpulledPhase (g : Prog) : (items g).all unpulledPhase = true := by cases g <;> rfl

/-- A program that nobody else's pulls delay lasts its quarters and one cycle for each wait (R123). -/
theorem rest_runsOut {g : Prog} {rest : List Item} {j : Nat} {sda : Bool} {s : State} (left : (items g).drop j = rest)
    (phases : rest.all unpulledPhase = true) (positive : 0 < s.baud.toNat)
    (h : Unpulled (driveQuarters rest * s.baud.toNat + waitCount rest) s) :
    RunsOut (driveQuarters rest * s.baud.toNat + waitCount rest) g j sda rest s := by
  induction rest generalizing j sda s with
  | nil =>
    refine ⟨s, rfl, fun t ended => ⟨t, ?_, ?_⟩⟩
    · simpa only [enterAt, left, enter] using ended
    · simpa [driveQuarters, waitCount] using BusyRun.refl t
  | cons item rest ih =>
    have active : (items g)[j]? = some item := by rw [← List.head?_drop, left]; rfl
    have next : (items g).drop (j + 1) = rest := by rw [← List.tail_drop, left]; rfl
    obtain ⟨phase, phases⟩ : unpulledPhase item = true ∧ rest.all unpulledPhase = true := by simpa using phases
    have later (sda' : Bool) (v : State)
        (unpulled : Unpulled (driveQuarters rest * s.baud.toNat + waitCount rest) v) (baud : v.baud = s.baud) :
        RunsOut (driveQuarters rest * s.baud.toNat + waitCount rest) g (j + 1) sda' rest v := by
      rw [← baud] at unpulled ⊢
      exact ih next phases (baud ▸ positive) unpulled
    cases item with
    | drive c d n =>
      obtain ⟨v, b, marked⟩ := markCell_keeps g j s
      obtain ⟨k, cycles⟩ : ∃ k, n * s.baud.toNat = k + 1 := by
        have : 0 < n * s.baud.toNat := Nat.mul_pos (by simp [unpulledPhase] at phase; omega) positive
        exact ⟨n * s.baud.toNat - 1, by omega⟩
      have total : driveQuarters (.drive c d n :: rest) * s.baud.toNat + waitCount (.drive c d n :: rest) =
          driveQuarters rest * s.baud.toNat + waitCount rest + (k + 1) := by
        simp only [driveQuarters, waitCount, Nat.add_mul, cycles]; omega
      have fits : (quarters n s).toNat = k + 1 := by
        have : n * s.baud.toNat ≤ 2 * 65535 := Nat.mul_le_mul (by simp [unpulledPhase] at phase; omega) (by omega)
        simp [quarters]; omega
      rw [total] at h ⊢
      refine .of_phase (by rw [enterAt, left, enter, marked]) rfl rfl (drive_runs active rfl rfl fits ?_) (later (!d))
      exact h.of_engine rfl rfl
    | wait c d cond =>
      have total : driveQuarters (.wait c d cond :: rest) * s.baud.toNat + waitCount (.wait c d cond :: rest) =
          driveQuarters rest * s.baud.toNat + waitCount rest + 1 := rfl
      rw [total] at h ⊢
      refine .of_phase (by rw [enterAt, left, enter]) rfl rfl (wait_runs active rfl ⟨rfl, rfl⟩ phase ?_) (later (!d))
      exact h.of_engine rfl rfl
    | smp => exact .of_event left rfl rfl (later _ _ ⟨h.grain, h.busy, h.port, h.pulls⟩ rfl)
    | evStart => exact .of_event left rfl rfl (later _ _ ⟨h.grain, h.busy, h.port, h.pulls⟩ rfl)
    | evByte v => exact .of_event left rfl rfl (later _ _ ⟨h.grain, h.busy, h.port, h.pulls⟩ rfl)
    | evStop => exact .of_event left rfl rfl (later _ _ ⟨h.grain, h.busy, h.port, h.pulls⟩ rfl)

/-- The whole program, from its load to its end (R123). -/
theorem program_runsOut (g : Prog) {s : State} (positive : 0 < s.baud.toNat) (h : Unpulled (progCycles s.baud.toNat 1 g) s) :
    RunsOut (progCycles s.baud.toNat 1 g) g 0 false (items g) s := by
  rw [progCycles, Nat.mul_one] at h ⊢
  exact rest_runsOut rfl (items_unpulledPhase g) positive h

/-! ### A host WBYTE on the lines (R117, R123, R172) -/

/-- The pointer names a byte, and its program is loaded. -/
theorem loadProgram_byte {s : State} {pos : WirePos} {v : Byte} (name : named s = .byte pos v) :
    loadProgram s = enterAt false (.byte v) 0 s := by
  rw [enterAt_first]
  simp only [loadProgram, name, progOf]

/-- A bus command accepted at cycle grain: the program of its first primitive is loaded at the same edge (R172). -/
theorem accept_begins {w : Word16} {i : Instr} {s : State} (decoded : decode w = .ok i) (grain : s.grain = .cycle)
    (runs : immediate i { s with cmd := w } = false) : accept w s = loadProgram (begin i { s with cmd := w }) := by
  simp only [accept, decoded, runAccepted]
  rw [if_neg (by rw [runs, grain]; simp)]
  simp only [beginAt, grain]

theorem step_presented {w : Word16} {s : State} (idle : s.busy = false) (presented : portHead s = presents w) :
    step s = accept w (consume s) := by
  simp [step, stepOf, edge, presented, presents, idle]

/-- The state in which a WBYTE has been accepted and its program is entered (R172). -/
def wbyteBegun (v : Byte) (s : State) : State := begin (.wbyte v) { consume s with cmd := cmdWord 0x3 0 v }

theorem step_wbyte {v : Byte} {s : State} (grain : s.grain = .cycle) (idle : s.busy = false) (en : s.en = true)
    (opn : s.opn = true) (port : s.port = [presents (cmdWord 0x3 0 v)]) :
    step s = enterAt false (.byte v) 0 (wbyteBegun v s) := by
  have name : named (wbyteBegun v s) = .byte .dataPayload v := by
    simp [named, wbyteBegun, begin, hostPrimitive, opField_cmdWord, loField_cmdWord]
  rw [← loadProgram_byte name, step_presented idle (by rw [portHead, port]; rfl)]
  exact accept_begins (decode_wbyte v) (by simpa using grain) (by simp [immediate, stateRefuses, en, opn])

/-- What BYTE does where nobody acknowledges (R117). -/
theorem settle_byte (v : Byte) (s : State) :
    settle false (items (.byte v)) s = logEvent (.byte v false) (setAckl true s) := rfl

/-- The end of a host's byte that was not acknowledged, with the transaction open: its result by the policy, and the lines at
hold (R95, R99, R114). -/
theorem hostByte_ends {u : State} (ackl : u.ackl = true) (opn : u.opn = true) :
    ∃ t, proceed (endWithResult (byteResult u)) = .next t ∧ t.busy = false ∧ t.trace = u.trace ∧ t.ackl = true ∧
      t.opn = true ∧ t.sclOe = true ∧ t.sdaOe = false ∧
      (u.par.nackPolicy = .report → t.last = 2 ∧ t.eNack = true) ∧
      (u.par.nackPolicy = .ignore → t.last = 0 ∧ t.eNack = u.eNack) := by
  refine ⟨_, proceed_ended rfl, ?_⟩
  cases policy : u.par.nackPolicy <;>
    simp [endWithResult, byteResult, restLines, resultCode, codeBits, setSticky, ackl, opn, policy]

/-- Settles O58: the accepting edge, the `36q + 9` cycles of BYTE with nobody else pulling, and the end of the command. -/
theorem hostByteTakesItsCycles : Obligations.HostByteTakesItsCycles := by
  intro v s rest grain idle en opn positive port pulls
  have baud : (wbyteBegun v s).baud = s.baud := consume_baud s
  have cycles : progCycles (wbyteBegun v s).baud.toNat 1 (.byte v) = 36 * s.baud.toNat + 9 := by
    rw [baud, progCycles_byte, Nat.mul_one]
  have begun := step_wbyte grain idle en opn port
  have consumed := consume_of_cycle grain
  have unpulled : Unpulled (progCycles (wbyteBegun v s).baud.toNat 1 (.byte v)) (wbyteBegun v s) := by
    rw [cycles, wbyteBegun, consumed]
    exact ⟨grain, rfl, by simp [begin, port], by simp [begin, pulls, List.replicate_succ]⟩
  obtain ⟨u, reached, out⟩ := program_runsOut (.byte v) (by rwa [baud]) unpulled
  rw [settle_byte, wbyteBegun, consumed] at reached
  obtain ⟨t, ended, last, trace, ackl, opn, scl, sda, report, ignore⟩ :=
    hostByte_ends (u := u) (by rw [reached]; rfl) (by rw [reached]; exact opn)
  rw [reached] at trace report ignore
  have prim : (byteResult u).2.seq = .prim := (byteResult_frame u).seq.trans (by rw [reached]; rfl)
  obtain ⟨e, first, busy⟩ := out t (by rw [progResult, movePointer_prim prim]; exact ended)
  have first : step s = .next e := begun.trans first
  rw [cycles] at busy
  refine ⟨fun k accepted range => ?_, t, (run_succ _ first).trans busy.run, last, trace, ackl, opn, scl, sda, report,
    ignore⟩
  obtain ⟨k, rfl⟩ := Nat.exists_eq_add_of_le' accepted
  obtain ⟨w, run, running⟩ := busy.busy (k := k) (by omega)
  exact ⟨w, (run_succ k first).trans run, running⟩

/-! ### The observer of the lines, which does not see the items without duration (R121, R122) -/

theorem observeCycle_hold (c d : Bool) (b : Option (List Bool)) : observeCycle ⟨c, d, b⟩ c d = (⟨c, d, b⟩, []) := by
  cases c <;> cases d <;> rfl

/-- While SCL is low, SDA may move unseen (R121). -/
theorem observeCycle_low (o : Observer) (d : Bool) : observeCycle o false d = (⟨false, d, o.bits⟩, []) := by
  simp [observeCycle]

/-- A rising SCL gives one of the eight bits of a group (R121). -/
theorem observeCycle_bit (e d : Bool) {bits : List Bool} (group : bits.length < 8) :
    observeCycle ⟨false, e, some bits⟩ true d = (⟨true, d, some (bits ++ [d])⟩, []) := by
  simp [observeCycle, group]

/-- The ninth rising SCL of a group gives the acknowledge bit (R121). -/
theorem observeCycle_ninth (e d : Bool) {bits : List Bool} (group : bits.length = 8) :
    observeCycle ⟨false, e, some bits⟩ true d = (⟨true, d, some []⟩, [.byte (byteOfBits bits) (!d)]) := by
  simp [observeCycle, group]

theorem observeCycle_lines (o : Observer) (c d : Bool) : ∃ b, (observeCycle o c d).1 = ⟨c, d, b⟩ := by
  unfold observeCycle
  repeat' split
  all_goals exact ⟨_, rfl⟩

/-- The lines held: the observer decodes nothing. -/
theorem observe_hold (n : Nat) (c d : Bool) (b : Option (List Bool)) (rest : List (Bool × Bool)) :
    observe ⟨c, d, b⟩ (List.replicate n (c, d) ++ rest) = observe ⟨c, d, b⟩ rest := by
  induction n with
  | zero => rfl
  | succ n ih => simp only [List.replicate_succ, List.cons_append, observe, observeCycle_hold, List.nil_append, ih]

theorem waveform_smp (q : Nat) (rest : List Item) : waveform q (.smp :: rest) = waveform q rest := rfl
theorem waveform_evStart (q : Nat) (rest : List Item) : waveform q (.evStart :: rest) = waveform q rest := rfl
theorem waveform_evByte (q : Nat) (v : Byte) (rest : List Item) : waveform q (.evByte v :: rest) = waveform q rest := rfl
theorem waveform_evStop (q : Nat) (rest : List Item) : waveform q (.evStop :: rest) = waveform q rest := rfl

theorem observe_nil (o : Observer) (q : Nat) : observe o (linesOf (waveform q [])) = [] := rfl

section
variable {q : Nat} (positive : 0 < q)
include positive

/-- Only the first cycle of a drive phase is seen, however long the quarter is (R113, R121). -/
theorem observe_drive (o : Observer) (c d : Bool) {n : Nat} (rest : List Item) (lasts : 0 < n) :
    observe o (linesOf (waveform q (.drive c d n :: rest))) =
      (observeCycle o (!c) (!d)).2 ++ observe (observeCycle o (!c) (!d)).1 (linesOf (waveform q rest)) := by
  obtain ⟨k, e⟩ : ∃ k, n * q = k + 1 := ⟨n * q - 1, by have := Nat.mul_pos lasts positive; omega⟩
  obtain ⟨b, held⟩ := observeCycle_lines o (!c) (!d)
  rw [waveform, e, linesOf, List.map_append, List.map_replicate, List.replicate_succ, List.cons_append, observe, held,
    observe_hold, linesOf]

omit positive in
theorem observe_wait (o : Observer) (c d : Bool) (cond : Cond) (rest : List Item) :
    observe o (linesOf (waveform q (.wait c d cond :: rest))) =
      (observeCycle o (!c) (!d)).2 ++ observe (observeCycle o (!c) (!d)).1 (linesOf (waveform q rest)) := rfl

/-- A data cell is one bit, the value SDA has while SCL is high (R117, R121). -/
theorem observe_dataCell (c x e d : Bool) {bits : List Bool} (group : bits.length < 8) (rest : List Item) :
    observe ⟨c, x, some bits⟩ (linesOf (waveform q (dataCell e d ++ rest))) =
      observe ⟨true, !d, some (bits ++ [!d])⟩ (linesOf (waveform q rest)) := by
  simp [dataCell, observe_drive positive, observe_wait, observeCycle_low, observeCycle_bit _ _ group, observeCycle_hold]

/-- The acknowledge cell ends the group of nine; nobody pulls SDA low, so the byte is not acknowledged (R117, R121). -/
theorem observe_ackCell (c x : Bool) (v : Byte) {bits : List Bool} (group : bits.length = 8) :
    observe ⟨c, x, some bits⟩ (linesOf (waveform q (ackCell v))) = [.byte (byteOfBits bits) false] := by
  simp [ackCell, observe_drive positive, observe_wait, waveform_smp, waveform_evByte, observe_nil, observeCycle_low,
    observeCycle_ninth _ _ group, observeCycle_hold]

omit positive in
/-- Bit 7 is sent first (R121). -/
theorem byteOfBits_msb_first (v : Byte) :
    byteOfBits [v.getLsbD 7, v.getLsbD 6, v.getLsbD 5, v.getLsbD 4, v.getLsbD 3, v.getLsbD 2, v.getLsbD 1,
      v.getLsbD 0] = v := by
  revert v; decide

/-- A byte's nine cells are decoded as the byte (R117, R121). -/
theorem observe_byteItems (c x e : Bool) (v : Byte) :
    observe ⟨c, x, some []⟩ (linesOf (waveform q (byteItems v e))) = [.byte v false] := by
  simp only [byteItems, List.append_assoc]
  iterate 8 rw [observe_dataCell positive _ _ _ _ (by simp)]
  rw [observe_ackCell positive _ _ v (by simp)]
  simp only [List.nil_append, List.cons_append, pullFor, Bool.not_not, byteOfBits_msb_first]

/-- SDA falls while SCL is high: a start, after which a group of nine begins (R115, R121). -/
theorem observe_startItems {o : Observer} {b : Option (List Bool)}
    (released : observeCycle o true true = (⟨true, true, b⟩, [])) (rest : List Item) :
    observe o (linesOf (waveform q (startItems ++ rest))) =
      .start :: observe ⟨true, false, some []⟩ (linesOf (waveform q rest)) := by
  have falls : observeCycle ⟨true, true, b⟩ true false = (⟨true, false, some []⟩, [.start]) := rfl
  simp [startItems, observe_drive positive, observe_wait, waveform_evStart, released, observeCycle_hold, falls]

end

/-- Settles O59: the start condition and the nine cells of a byte, one after another, and the stop condition. -/
theorem observerDecodesPrograms : Obligations.ObserverDecodesPrograms := by
  intro q v positive
  refine ⟨?startIdle, ?restart, observe_byteItems positive false true false v, ?stop⟩
  case startIdle =>
    rw [items, observe_startItems positive rfl]
    exact congrArg (Event.start :: ·) (observe_byteItems positive true false true v)
  case restart =>
    have held : observeCycle ⟨false, true, some []⟩ (!true) (!false) = (⟨false, true, some []⟩, []) := rfl
    rw [items, List.append_assoc, List.singleton_append, observe_drive positive _ _ _ _ Nat.one_pos, held,
      observe_startItems positive rfl]
    exact congrArg (Event.start :: ·) (observe_byteItems positive true false true v)
  case stop =>
    simp [items, observe_drive positive, observe_wait, waveform_evStop, observe_nil, observeCycle]

end Sys2Proof.Machine
end

section
/-! Proofs of the statements about the command channel: a transaction with a well-behaved display, and one that is abandoned
at the first byte not acknowledged, in SCMD, in a step of SETCUR and in WCHAR. -/

namespace Sys2Proof.Machine

/-! ### A transaction with a well-behaved display (R131, R132) -/

/-- Settles O28: SCMD is `sendCommand` from the state with BUSY and SEQ set, and its end. -/
theorem scmdSendsOneCommand : Obligations.ScmdSendsOneCommand := by
  intro v s en opn good
  obtain ⟨ok, ackl, sent⟩ := sendCommand_good v (runs .sCmd s) ⟨good.starts, good.bytes, good.stops⟩
  have closed := sendCommand_closed v (runs .sCmd s)
  have returned : Returned (runs .sCmd s) (sendCommand v (runs .sCmd s)) .ok (commandEvents v) false false false :=
    ⟨ok, sent.appended, closed.1, closed.atRest⟩
  exact ⟨_, exec_scmd_runs v en opn, (returned.after (runs_appended .sCmd s)).endWithResult, ackl⟩

/-- Settles O31: the payload is sent by induction on the list of bytes (`sendPayload_good`). -/
theorem dataBytesInOneTransaction : Obligations.DataBytesInOneTransaction := by
  intro bs s good
  obtain ⟨ok, -, sent⟩ := sendDataBytes_good bs s good
  exact ⟨ok, sent.trace, (sendDataBytes_closed bs s).1⟩

/-! ### A transaction abandoned at a byte not acknowledged (R99, R133) -/

/-- What the stop that closes an abandoned transaction appends to the trace (R96, R98). -/
def closingEvent : StopOutcome → Event
  | .done => .stop
  | .expired => .timeout

theorem primStop_returned {s : State} {o : StopOutcome} (draw : (drawStop s).1 = o) :
    ∃ r, Returned s (primStop s) r [closingEvent o] false (o == .expired) false := by
  cases o with
  | done => exact ⟨.ok, primStop_done_returned draw⟩
  | expired => exact ⟨.timeout, primStop_expired_returned draw⟩

/-- A primitive that began in `s` returned Nack: E_NACK and ACKL are 1, and no draw of a stop was used (R97, R99). -/
structure Nacked (s : State) (x : Result × State) (evs : List Event) : Prop where
  result : x.1 = .nack
  appended : Appended s x.2 evs false true
  ackl : x.2.ackl = true
  stops : x.2.stops = s.stops

theorem xmit_nacked_report (v : Byte) {s : State} (draw : (drawByte s).1 = .nacked) (policy : s.par.nackPolicy = .report) :
    Nacked s (xmit v s) [.byte v false] := by
  have f := xmit_frame v s
  rw [xmit_nacked v s draw, byteDone_report v _ (by simpa using policy)] at f ⊢
  exact ⟨rfl, f.appended (by simp) (by simp) (by simp), by simp, by simp⟩

theorem primStart_nacked_report (ab : Byte) {s : State} (free : (drawStart s).1 = .free)
    (draw : (drawByte (drawStart s).2).1 = .nacked) (policy : s.par.nackPolicy = .report) :
    Nacked s (primStart ab s) [.start, .byte ab false] := by
  have started : Appended s (startDone (drawStart s).2) [.start] false false :=
    ((drawStart_frame s).trans (startDone_frame _)).appended (by simp) (by simp) (by simp)
  have byteDraw : (drawByte (startDone (drawStart s).2)).1 = .nacked := by rw [← draw]; exact drawByte_congr _ _ rfl rfl
  have byte := xmit_nacked_report ab byteDraw (by simpa using policy)
  rw [primStart_free ab s free]
  exact ⟨byte.result, by simpa using started.trans byte.appended, byte.ackl, byte.stops.trans (by simp)⟩

/-- A procedure that began in `s` was abandoned after the events `evs`: its closing stop met the answer `o`, and the result is
the Nack all the same (R133). -/
structure Abandoned (s : State) (x : Result × State) (evs : List Event) (o : StopOutcome) : Prop where
  returned : Returned s x .nack (evs ++ [closingEvent o]) false (o == .expired) true
  ackl : x.2.ackl = true

theorem Abandoned.after {s u : State} {x : Result × State} {before evs : List Event} {o : StopOutcome}
    (h : Abandoned u x evs o) (k : Appended s u before false false) : Abandoned s x (before ++ evs) o :=
  ⟨by simpa using h.returned.after k, h.ackl⟩

/-- A primitive that returned Nack is the procedure's last but the closing stop (R131 to R133). -/
theorem Nacked.abandoned {s : State} {x : Result × State} {evs : List Event} {o : StopOutcome} (h : Nacked s x evs)
    (k : State → Result × State) (stop : [o] <+: s.stops) : Abandoned s (andThen x k) evs o := by
  have closes : andThen x k = (.nack, (primStop (atChan .stop x.2)).2) := by simp [andThen, abandon, h.result]
  have draw : (drawStop (atChan .stop x.2)).1 = o := by
    rw [drawStop_of_take _ o (by simpa [h.stops] using singleton_prefix_iff.mp stop)]
  obtain ⟨r, closed⟩ := primStop_returned draw
  have appended := (h.appended.trans (sent_atChan .stop x.2).appended).trans closed.appended
  rw [closes]
  exact ⟨⟨rfl, by simpa using appended, closed.opn, closed.rest⟩, (primStop_pointer _).2.trans h.ackl⟩

/-- The next answers acknowledge `j` bytes and not the one after them, which the policy reports; the next stop meets `o`. -/
structure NacksAt (j : Nat) (o : StopOutcome) (s : State) : Prop where
  policy : s.par.nackPolicy = .report
  bytes : List.replicate j ByteOutcome.acked ++ [ByteOutcome.nacked] <+: s.bytes
  stop : [o] <+: s.stops

/-- What sent everything before leaves the answers that follow. -/
theorem NacksAt.of_sent {j a b : Nat} {o : StopOutcome} {s t : State} {evs : List Event} (sent : Sent s t evs a b 0)
    (policy : s.par.nackPolicy = .report)
    (bytes : List.replicate j ByteOutcome.acked ++ [ByteOutcome.nacked] <+: s.bytes.drop b) (stop : [o] <+: s.stops) :
    NacksAt j o t :=
  ⟨by rw [sent.frame.bus.par, policy], sent.bytes ▸ bytes, by rw [sent.stops]; exact stop⟩

theorem NacksAt.draw {o : StopOutcome} {s : State} (h : NacksAt 0 o s) : (drawByte s).1 = .nacked := by
  rw [drawByte_of_take s .nacked (singleton_prefix_iff.mp h.bytes)]

theorem NacksAt.succ {j : Nat} {o : StopOutcome} {s : State} (h : NacksAt (j + 1) o s) :
    s.bytes.take 1 = [.acked] ∧
      ∀ {t : State} {evs : List Event} {a : Nat}, Sent s t evs a 1 0 → NacksAt j o t := by
  have bytes := h.bytes
  rw [List.replicate_succ, List.cons_append, cons_prefix_iff] at bytes
  exact ⟨bytes.1, fun sent => .of_sent sent h.policy bytes.2 h.stop⟩

/-- The bytes before byte `j` are in the trace, and no byte follows it. -/
theorem SendsThenStops.nacked {vs : List Byte} {k : State → Result × State} (h : SendsThenStops vs k) {j : Nat}
    {o : StopOutcome} {s : State} (range : j < vs.length) (nacks : NacksAt j o s) :
    Abandoned s (k s) ((vs.take j).map (fun b => Event.byte b true) ++ ((vs.drop j).take 1).map (fun b => Event.byte b false))
      o := by
  induction h generalizing j s with
  | stop silent => simp at range
  | @byte f silent v vs k rest ih =>
    beta_reduce
    have here : NacksAt j o (f s) := .of_sent (silent s) nacks.policy nacks.bytes nacks.stop
    cases j with
    | zero =>
      exact ((xmit_nacked_report v here.draw here.policy).abandoned k here.stop).after (silent s).appended
    | succ j =>
      obtain ⟨acked, later⟩ := here.succ
      obtain ⟨ok, -, sent⟩ := xmit_good v (f s) acked
      rw [andThen_ok _ ok]
      exact (ih (by simpa using range) (later sent)).after ((silent s).trans sent).appended

/-- Byte `j` of a transaction is the first not acknowledged. -/
theorem Transaction.nacked {vs : List Byte} {p : State → Result × State} (h : Transaction vs p) {j : Nat}
    {o : StopOutcome} {s : State} (range : j < vs.length) (start : [StartOutcome.free] <+: s.starts)
    (nacks : NacksAt j o s) : Abandoned s (p s) (nackedAt vs j) o := by
  obtain @⟨f, silent, vs, k, rest⟩ := h
  beta_reduce
  have free : (f s).starts.take 1 = [.free] := by rw [(silent s).starts]; exact singleton_prefix_iff.mp start
  have here : NacksAt j o (f s) := .of_sent (silent s) nacks.policy nacks.bytes nacks.stop
  cases j with
  | zero =>
    have e := drawStart_of_take (f s) .free free
    have draw : (drawByte (drawStart (f s)).2).1 = .nacked := by
      rw [← here.draw, e]; exact drawByte_congr _ _ rfl rfl
    have first := primStart_nacked_report devAddrByte (by rw [e]) draw here.policy
    exact (first.abandoned k here.stop).after (silent s).appended
  | succ j =>
    obtain ⟨acked, later⟩ := here.succ
    obtain ⟨ok, -, sent⟩ := primStart_good devAddrByte (f s) free acked
    rw [andThen_ok _ ok]
    exact (rest.nacked (by simpa using range) (later sent)).after ((silent s).trans sent).appended

/-! ### SCMD, SETCUR and WCHAR abandoned (R130, R133, R160, R161) -/

/-- The first `k` steps of the loop return Ok: it reaches step `k` in a state `u`, and is that step if it does not return
Ok. -/
theorem sendCommands_reaches {bs : List Byte} {k : Nat} {s : State} (range : k < bs.length) (good : GoodDraws k (3 * k) k s) :
    ∃ u, Appended s u ((bs.take k).flatMap commandEvents) false false ∧
      u.starts = s.starts.drop k ∧ u.bytes = s.bytes.drop (3 * k) ∧ u.stops = s.stops.drop k ∧
      ((sendCommand (bs.getD k 0) u).1 ≠ .ok → sendCommands bs s = sendCommand (bs.getD k 0) u) := by
  induction k generalizing bs s with
  | zero =>
    refine ⟨s, (ChannelFrame.refl s).appended (by simp) (by simp) (by simp), rfl, rfl, rfl, fun failed => ?_⟩
    obtain _ | ⟨b, _ | ⟨c, rest⟩⟩ := bs
    · simp at range
    · rfl
    · exact (sendCommands_cons b c rest s).trans (if_neg failed)
  | succ k ih =>
    obtain _ | ⟨b, _ | ⟨c, rest⟩⟩ := bs
    · simp at range
    · simp at range
    · have split : GoodDraws (1 + k) (3 + 3 * k) (1 + k) s := by simpa [Nat.mul_add, Nat.add_comm] using good
      obtain ⟨ok, -, sent⟩ := sendCommand_good b s split.first
      obtain ⟨u, passed, starts, bytes, stops, last⟩ := ih (bs := c :: rest) (s := advanceIpc (sendCommand b s).2)
        (by simpa using range) (split.second sent.starts sent.bytes sent.stops)
      refine ⟨u, by simpa using (sent.appended.trans (advanceIpc_appended _)).trans passed, ?_, ?_, ?_, fun failed => ?_⟩
      · simp [starts, sent.starts]
      · simp [bytes, sent.bytes, Nat.mul_add, Nat.add_comm]
      · simp [stops, sent.stops]
      · rw [sendCommands_cons, if_pos ok]
        exact last failed

/-- A command but INIT whose procedure or loop was abandoned, as it ends. -/
theorem Abandoned.ended {i : Instr} {s u : State} {x : Result × State} {evs : List Event} {o : StopOutcome}
    (h : Abandoned u x evs o) (run : exec i s = .next (endWithResult x)) (begun : Appended s u [] false false) :
    ∃ t, exec i s = .next t ∧ EndedPlain s t (evs ++ [closingEvent o]) false 2 (o == .expired) true ∧ t.ackl = true :=
  ⟨_, run, (h.after begun).returned.endWithResult, h.ackl⟩

/-- A SETCUR of which byte `j` of step `k` is the first not acknowledged. -/
theorem setcur_nacked {p : BitVec 3} {c : BitVec 7} {s : State} {k j : Nat} {o : StopOutcome} (hk : k < 3) (hj : j < 3)
    (en : s.en = true) (opn : s.opn = false) (ready : s.ready = true) (policy : s.par.nackPolicy = .report)
    (draws : NextDraws (List.replicate (k + 1) .free) (List.replicate (3 * k + j) .acked ++ [.nacked])
      (List.replicate k .done ++ [o]) s) :
    ∃ t, exec (.setcur p c) s = .next t ∧
      EndedPlain s t (((cursorBytes p c).take k).flatMap commandEvents ++
        nackedAt [0x78, 0x00, (cursorBytes p c).getD k 0] j ++ [closingEvent o]) false 2 (o == .expired) true ∧
      t.ackl = true := by
  have begun : Appended s (clearIpc (runs .sCur s)) [] false false := (runs_appended _ _).trans (clearIpc_appended _)
  rw [List.replicate_succ', List.replicate_add, List.append_assoc] at draws
  obtain ⟨good, listed⟩ := NextDraws.steps (s := clearIpc (runs .sCur s)) ⟨draws.starts, draws.bytes, draws.stops⟩
  obtain ⟨u, passed, hs, hb, hp, last⟩ := sendCommands_reaches (bs := cursorBytes p c) hk good
  obtain ⟨starts, bytes, stops⟩ := listed u hs hb hp
  have failed := (sendCommand_transaction ((cursorBytes p c).getD k 0)).nacked hj starts
    ⟨by rw [(begun.trans passed).bus.par, policy], bytes, stops⟩
  have loop := last (by rw [failed.returned.result]; simp)
  exact (failed.after passed).ended (by rw [← loop]; exact exec_setcur_runs p c en opn ready) begun

/-- Settles O29: SCMD and WCHAR are one transaction, and SETCUR one for each step, of which the last one begun is abandoned
at byte `j`; the closing stop is done or runs out of time. -/
theorem scmdAbandonsAtNack : Obligations.ScmdAbandonsAtNack := by
  refine ⟨fun v s j range en opn policy start bytes => ?scmd, fun p c s k j hk hj en opn ready policy => ?setcur,
    fun ch g s j range en opn ready policy supported => ?wchar⟩
  case scmd =>
    have closes (o : StopOutcome) (stop : s.stops.take 1 = [o]) :=
      ((sendCommand_transaction v).nacked (s := runs .sCmd s) range (singleton_prefix_iff.mpr start)
        ⟨policy, bytes ▸ List.take_prefix _ _, singleton_prefix_iff.mpr stop⟩).ended
        (exec_scmd_runs v en opn) (runs_appended .sCmd s)
    exact ⟨closes .done, closes .expired⟩
  case setcur =>
    rw [← cursorBytes_eq]
    exact ⟨setcur_nacked hk hj en opn ready policy, setcur_nacked hk hj en opn ready policy⟩
  case wchar =>
    obtain ⟨idx, run⟩ := exec_wchar_runs en opn ready supported
    have begun : Appended s (loadGidx idx (runs .sChr s)) [] false false :=
      (runs_appended _ _).trans (loadGidx_appended _ _)
    have eight : (0x78 :: 0x40 :: (g ++ [0x00]) : List Byte).length = 8 := by simp [glyph_length supported]
    have closes (o : StopOutcome) (draws : NextDraws [.free] (List.replicate j .acked ++ [.nacked]) [o] s) :=
      ((sendDataBytes_transaction (g ++ [0x00])).nacked (s := loadGidx idx (runs .sChr s)) (eight ▸ range) draws.starts
        ⟨policy, draws.bytes, draws.stops⟩).ended run begun
    exact ⟨closes .done, closes .expired⟩

end Sys2Proof.Machine
end

section
/-! Proofs of the statements about the display initialiser: the ROM, INIT with a well-behaved display, INIT that stops at the
first step that fails, and its two ends whatever the environment answers. -/

namespace Sys2Proof.Machine

/-! ### The initialisation ROM (R52, R141) -/

/-- The multiplex ratio of a display of 64 rows (R10, R141). -/
theorem multiplexByte_eq : multiplexByte = 0x3F := by decide

theorem irom_length (p : Params) : (irom p).length = 23 := rfl

/-- Settles O33: the two bytes that the model computes, and the parameters in place. -/
theorem initRomContents : Obligations.InitRomContents := by
  refine ⟨fun p => ⟨?_, irom_length p⟩, fun p clkdiv offset startline contrast precharge vcomh => ?_⟩
  · rw [irom, multiplexByte_eq, startLineByte]
  · have startByte : startLineByte 0 = 0x40 := by decide
    rw [irom, multiplexByte_eq, clkdiv, offset, startline, contrast, precharge, vcomh, startByte]

/-! ### The two ends of INIT (R140, R143, R183) -/

/-- INIT that is not refused runs its loop and has its own end (R140). -/
theorem exec_init_runs {s : State} (en : s.en = true) (opn : s.opn = false) (ready : s.ready = false) :
    exec .init s = .next (endInit (body .init s)) :=
  unlessRefused_runs (by simp [stateRefuses, en, opn, ready])

theorem endInit_ok {x : Result × State} (h : x.1 = .ok) : endInit x = endCommand .ok (setReady x.2) := by
  simp [endInit, h]

theorem endInit_failed {x : Result × State} (h : x.1 ≠ .ok) : endInit x = fail .initFailure x.2 := by
  obtain ⟨r, s⟩ := x
  cases r with
  | ok => exact absurd rfl h
  | timeout => rfl
  | nack => rfl

/-- INIT that sent everything ends with code 0 and READY (R140, R143). -/
theorem Returned.initSucceeds {s : State} {x : Result × State} {evs : List Event} {isOpen timedOut nacked : Bool}
    (h : Returned s x .ok evs isOpen timedOut nacked) :
    Ended s (endInit x) evs isOpen 0 timedOut nacked ∧ (endInit x).ready = true ∧ (endInit x).eInit = s.eInit := by
  obtain ⟨ok, did, opn, rest⟩ := h
  rw [endInit_ok ok]
  have bus := did.bus.trans ((setReady_bus _).trans (endCommand_bus .ok _))
  exact ⟨⟨did.trace, opn, rfl, did.eTimeout, did.eNack, ⟨rest.1.trans opn, rest.2⟩, ⟨rfl, rfl⟩, bus⟩, rfl, did.eInit⟩

theorem init_closed (s : State) : Closed (body .init s).2 := body_closed (.inr (.inl rfl)) s

/-! ### INIT with a well-behaved display (R140, R143) -/

/-- The loop of INIT sends every byte of the ROM. -/
theorem init_good {s : State} (good : GoodDraws 23 69 23 s) :
    Returned s (body .init s) .ok ((irom s.par.toParams).flatMap commandEvents) false false false ∧
      (body .init s).2.ackl = false := by
  obtain ⟨ok, ackl, trace, -, -, -, eTimeout, eNack⟩ :=
    sendCommands_good (irom s.par.toParams) (clearIpc (runs .sInit s)) good.starts good.bytes good.stops
  have frame := body_frame .init s
  have closed := init_closed s
  have appended : Appended s (body .init s).2 ((irom s.par.toParams).flatMap commandEvents) false false :=
    ⟨frame.bus, frame.ready, frame.eInit, trace, eTimeout.trans (Bool.or_false _).symm,
      eNack.trans (Bool.or_false _).symm⟩
  exact ⟨⟨ok, appended, closed.1, closed.atRest⟩, ackl (by simp [irom])⟩

/-- Settles O34: the loop returns Ok, and INIT ends in success. -/
theorem initSendsTheSequence : Obligations.InitSendsTheSequence := by
  intro s en opn ready good
  obtain ⟨returned, ackl⟩ := init_good good
  obtain ⟨ended, ready', eInit⟩ := returned.initSucceeds
  exact ⟨_, exec_init_runs en opn ready, ended, ready', eInit, by rw [endInit_ok returned.result]; exact ackl⟩

/-! ### INIT that stops at the first step that fails (R140, R142, R183) -/

/-- INIT ended in failure after the events `evs`: READY stays 0, E_INIT and code 3. -/
def InitFails (s : State) (evs : List Event) (timedOut nacked : Bool) : Prop :=
  ∃ t, exec .init s = .next t ∧ Ended s t evs false 3 timedOut nacked ∧ t.ready = false ∧ t.eInit = true

/-- The answers that let `k` steps pass and a start that then expires, as the next answers. -/
theorem GoodDraws.thenExpired {k : Nat} {s : State} (good : GoodDraws k (3 * k) k s)
    (expired : s.starts[k]? = some .expired) :
    NextDraws (List.replicate k .free ++ [.expired]) (List.replicate (3 * k) .acked) (List.replicate k .done) s where
  starts := by
    have next : s.starts.take (k + 1) = List.replicate k .free ++ [.expired] := by
      rw [List.take_add_one, good.starts, expired]; rfl
    exact next ▸ List.take_prefix _ _
  bytes := good.bytes ▸ List.take_prefix _ _
  stops := good.stops ▸ List.take_prefix _ _

section
variable {s : State} {k : Nat} (range : k < 23) (en : s.en = true) (opn : s.opn = false) (ready : s.ready = false)
include range en opn ready

/-- The loop of INIT reaches step `k` and ends with it, if its `sendCommand` does not return Ok. -/
theorem init_fails_at {starts : List StartOutcome} {bytes : List ByteOutcome} {stops : List StopOutcome} {r : Result}
    {evs : List Event} {timedOut nacked : Bool}
    (draws : NextDraws (List.replicate k .free ++ starts) (List.replicate (3 * k) .acked ++ bytes)
      (List.replicate k .done ++ stops) s) (failed : r ≠ .ok)
    (step : ∀ u, u.par = s.par → NextDraws starts bytes stops u →
      Returned u (sendCommand ((irom s.par.toParams).getD k 0) u) r evs false timedOut nacked) :
    InitFails s (((irom s.par.toParams).take k).flatMap commandEvents ++ evs) timedOut nacked := by
  have begun : Appended s (clearIpc (runs .sInit s)) [] false false := (runs_appended _ _).trans (clearIpc_appended _)
  obtain ⟨good, listed⟩ := NextDraws.steps (s := clearIpc (runs .sInit s)) ⟨draws.starts, draws.bytes, draws.stops⟩
  obtain ⟨u, passed, hs, hb, hp, last⟩ := sendCommands_reaches (bs := irom s.par.toParams) range good
  have here := step u (begun.trans passed).bus.par (listed u hs hb hp)
  have loop : body .init s = sendCommand ((irom s.par.toParams).getD k 0) u := last (by rwa [here.result])
  have notOk : (sendCommand ((irom s.par.toParams).getD k 0) u).1 ≠ .ok := by rwa [here.result]
  obtain ⟨ended, ready', eInit⟩ := (here.after (begun.trans passed)).initFails
  have run : exec .init s = .next (fail .initFailure (sendCommand ((irom s.par.toParams).getD k 0) u).2) := by
    rw [exec_init_runs en opn ready, loop, endInit_failed notOk]
  exact ⟨_, run, ended, ready'.trans ready, eInit⟩

/-- Byte `j` of step `k` is the first not acknowledged: the closing stop is done or runs out of time. -/
theorem init_nacked_at {j : Nat} {o : StopOutcome} (hj : j < 3) (policy : s.par.nackPolicy = .report)
    (draws : NextDraws (List.replicate (k + 1) .free) (List.replicate (3 * k + j) .acked ++ [.nacked])
      (List.replicate k .done ++ [o]) s) :
    InitFails s (((irom s.par.toParams).take k).flatMap commandEvents ++
      nackedAt [0x78, 0x00, (irom s.par.toParams).getD k 0] j ++ [closingEvent o]) (o == .expired) true := by
  rw [List.replicate_succ', List.replicate_add, List.append_assoc] at draws
  rw [List.append_assoc]
  exact init_fails_at range en opn ready draws (by simp) fun u par answers =>
    ((sendCommand_transaction _).nacked hj answers.starts ⟨par ▸ policy, answers.bytes, answers.stops⟩).returned

end

/-- Settles O35: step `k` is a transaction that runs out of time or is abandoned, and it ends the loop. -/
theorem initStopsAtFirstFailure : Obligations.InitStopsAtFirstFailure := by
  refine ⟨fun s k range en opn ready good expired => ?start,
    fun s k range en opn ready => ⟨?nacked, ?nackedExpired, ?byte, ?stop⟩⟩
  case start =>
    have draws := good.thenExpired expired
    exact init_fails_at (bytes := []) (stops := []) range en opn ready (by simpa using draws) (by simp) fun u _ answers =>
      (sendCommand_transaction _).start_timedOut answers.starts
  case nacked => exact fun j hj => init_nacked_at range en opn ready hj
  case nackedExpired => exact fun j hj => init_nacked_at range en opn ready hj
  case byte =>
    intro j hj draws
    rw [List.replicate_succ', List.replicate_add, List.append_assoc] at draws
    exact init_fails_at (stops := []) range en opn ready (by simpa using draws) (by simp) fun u _ answers =>
      (sendCommand_transaction _).timedOut answers.starts (.inl ⟨hj, answers.bytes⟩)
  case stop =>
    intro draws
    rw [List.replicate_succ', List.replicate_add] at draws
    exact init_fails_at range en opn ready draws (by simp) fun u _ answers =>
      (sendCommand_transaction _).timedOut answers.starts (.inr ⟨rfl, answers.bytes, answers.stops⟩)

/-! ### Whatever the environment answers (R140, R143, R183, R190) -/

/-- The two ends of INIT, after a loop that kept READY and E_INIT and left the bus closed. -/
theorem endInit_ends {s : State} {x : Result × State} (frame : BodyFrame s x.2) (closed : Closed x.2) :
    (endInit x).opn = false ∧ BusFrame s (endInit x) ∧
      (((endInit x).ready = true ∧ (endInit x).last = 0 ∧ (endInit x).eInit = s.eInit) ∨
        ((endInit x).ready = s.ready ∧ (endInit x).last = 3 ∧ (endInit x).eInit = true)) := by
  by_cases ok : x.1 = .ok
  · rw [endInit_ok ok]
    exact ⟨closed.1, frame.bus.trans ((setReady_bus _).trans (endCommand_bus _ _)), .inl ⟨rfl, rfl, frame.eInit⟩⟩
  · rw [endInit_failed ok]
    exact ⟨closed.1, frame.bus.trans ((setSticky_initFailure_bus _).trans (endCommand_bus _ _)),
      .inr ⟨frame.ready, rfl, rfl⟩⟩

/-- Settles O36: the loop of INIT is such a loop (`body_frame`, `init_closed`). -/
theorem initSucceedsOrReports : Obligations.InitSucceedsOrReports := by
  intro s en opn ready
  have ends := endInit_ends (body_frame .init s) (init_closed s)
  rw [ready] at ends
  exact ⟨_, exec_init_runs en opn ready, ends⟩

end Sys2Proof.Machine
end

section
/-! Proofs of the statements about the glyph table: the codes that the lookup finds, and the pinned row of the digit zero. -/

namespace Sys2Proof.Machine

/-! ### The glyph lookup (R150, R151) -/

theorem glyphValid_iff {idx : Nat} : glyphValid idx = true ↔ idx = 0 ∨ idx = 1 ∨ (16 ≤ idx ∧ idx ≤ 25) := by
  simp [glyphValid, or_assoc]

/-- The twelve codes are those that pass the range check and whose row is marked valid (R150, R152). -/
theorem supportedCode_iff {c : Byte} :
    (c = 0x20 ∨ c = 0x21 ∨ (0x30 ≤ c.toNat ∧ c.toNat ≤ 0x39)) ↔
      ¬ (c.toNat < glyphBase ∨ glyphBase + glyphN ≤ c.toNat) ∧ glyphValid (c.toNat - glyphBase) = true := by
  rw [glyphValid_iff, ← BitVec.toNat_inj (y := 0x20), ← BitVec.toNat_inj (y := 0x21)]
  simp only [glyphBase, glyphN, BitVec.reduceToNat]
  omega

theorem glyphIndex_supported {c : Byte} (h : c = 0x20 ∨ c = 0x21 ∨ (0x30 ≤ c.toNat ∧ c.toNat ≤ 0x39)) :
    glyphIndex c = some (c.toNat - glyphBase) := by
  obtain ⟨range, valid⟩ := supportedCode_iff.mp h
  rw [glyphIndex, if_neg range, if_pos valid]

theorem glyphIndex_unsupported {c : Byte} (h : ¬ (c = 0x20 ∨ c = 0x21 ∨ (0x30 ≤ c.toNat ∧ c.toNat ≤ 0x39))) :
    glyphIndex c = none := by
  unfold glyphIndex
  split
  case isTrue => rfl
  case isFalse range => exact if_neg fun valid => h (supportedCode_iff.mpr ⟨range, valid⟩)

/-- Settles O38: the columns of the row that `glyphIndex` finds. -/
theorem glyphLookup : Obligations.GlyphLookup := by
  refine fun p c => ⟨fun supported => ?found, fun unsupported => ?rejected⟩
  case found =>
    exact glyph_eq_some_iff.mpr ⟨_, glyphIndex_supported supported, rfl⟩
  case rejected =>
    rw [glyph, glyphIndex_unsupported unsupported, Option.map_none]

/-! ### The row of the digit zero (R153) -/

/-- Row 16 is pinned at its addresses 80 to 84, so its columns do not depend on the parameter GLYPH_ROM. -/
theorem glyphColumns_zero (p : Params) : glyphColumns p 16 = [0x7C, 0x12, 0x11, 0x12, 0x7C] := rfl

/-- Settles O39: the code `0x30` finds row 16. -/
theorem zeroGlyphRow : Obligations.ZeroGlyphRow := by
  intro p
  have row : glyphIndex 0x30 = some 16 := glyphIndex_supported (by decide)
  exact ⟨rfl, rfl, rfl, rfl, rfl, glyph_eq_some_iff.mpr ⟨16, row, glyphColumns_zero p⟩⟩

end Sys2Proof.Machine
end

section
/-! Proofs of the statements about the text renderer: SETCUR and WCHAR with a well-behaved display, and the two in a row as
the trace shows them. -/

namespace Sys2Proof.Machine

/-! ### SETCUR with a well-behaved display (R160) -/

/-- The loop of INIT and SETCUR with a well-behaved display, as it returns. -/
theorem sendCommands_returned {bs : List Byte} {s : State} (some_byte : bs ≠ [])
    (good : GoodDraws bs.length (3 * bs.length) bs.length s) :
    Returned s (sendCommands bs s) .ok (bs.flatMap commandEvents) false false false ∧ (sendCommands bs s).2.ackl = false := by
  obtain ⟨ok, ackl, trace, -, -, -, eTimeout, eNack⟩ := sendCommands_good bs s good.starts good.bytes good.stops
  have frame := sendCommands_body bs s
  have closed := sendCommands_closed bs s some_byte
  have appended : Appended s (sendCommands bs s).2 (bs.flatMap commandEvents) false false :=
    ⟨frame.bus, frame.ready, frame.eInit, trace, by simpa using eTimeout, by simpa using eNack⟩
  exact ⟨⟨ok, appended, closed.1, closed.atRest⟩, ackl some_byte⟩

/-- The three command transactions of SETCUR: page, low nibble, high nibble. -/
theorem cursorEvents_eq (p : BitVec 3) (c : BitVec 7) :
    (cursorBytes p c).flatMap commandEvents =
      commandEvents (0xB0 ||| p.setWidth 8) ++ commandEvents ((c.extractLsb' 0 4).setWidth 8) ++
        commandEvents (0x10 ||| (c.extractLsb' 4 3).setWidth 8) := by
  simp [cursorBytes_eq]

/-- SETCUR with a well-behaved display: its three command transactions, its draws used up. -/
theorem exec_setcur_good (p : BitVec 3) (c : BitVec 7) {s : State} (en : s.en = true) (opn : s.opn = false)
    (ready : s.ready = true) (good : GoodDraws 3 9 3 s) :
    ∃ t, exec (.setcur p c) s = .next t ∧
      EndedPlain s t ((cursorBytes p c).flatMap commandEvents) false 0 false false ∧ t.ackl = false ∧
      t.starts = s.starts.drop 3 ∧ t.bytes = s.bytes.drop 9 ∧ t.stops = s.stops.drop 3 := by
  have begun : Appended s (clearIpc (runs .sCur s)) [] false false := (runs_appended _ _).trans (clearIpc_appended _)
  have draws : GoodDraws 3 9 3 (clearIpc (runs .sCur s)) := ⟨good.starts, good.bytes, good.stops⟩
  obtain ⟨returned, ackl⟩ := sendCommands_returned (bs := cursorBytes p c) (by simp [cursorBytes]) draws
  obtain ⟨-, -, -, starts, bytes, stops, -⟩ := sendCommands_good (cursorBytes p c) _ draws.starts draws.bytes draws.stops
  exact ⟨_, exec_setcur_runs p c en opn ready, (returned.after begun).endWithResult, ackl, starts, bytes, stops⟩

/-- Settles O37: the loop runs over the three bytes of `cursorBytes`. -/
theorem setcurSendsThreeCommands : Obligations.SetcurSendsThreeCommands := by
  intro p c s en opn ready good
  obtain ⟨t, run, ended, ackl, -⟩ := exec_setcur_good p c en opn ready good
  exact ⟨t, run, by simpa [cursorEvents_eq] using ended, ackl⟩

/-! ### WCHAR with a well-behaved display (R161) -/

/-- Settles O40: WCHAR is `sendDataBytes` of the five columns and the separator, and its end. -/
theorem wcharSendsOneCell : Obligations.WcharSendsOneCell := by
  intro k g s en opn ready supported good
  obtain ⟨idx, run⟩ := exec_wchar_runs en opn ready supported
  have begun : Appended s (loadGidx idx (runs .sChr s)) [] false false :=
    (runs_appended _ _).trans (loadGidx_appended _ _)
  have length : (g ++ [0x00]).length + 2 = 8 := by simp [glyph_length supported]
  obtain ⟨ok, ackl, sent⟩ := sendDataBytes_good (g ++ [0x00]) (loadGidx idx (runs .sChr s))
    (by rw [length]; exact ⟨good.starts, good.bytes, good.stops⟩)
  have closed := sendDataBytes_closed (g ++ [0x00]) (loadGidx idx (runs .sChr s))
  have returned : Returned _ _ .ok (dataEvents (g ++ [0x00])) false false false :=
    ⟨ok, sent.appended, closed.1, closed.atRest⟩
  exact ⟨_, run, (returned.after begun).endWithResult, ackl⟩

/-! ### The transactions read back from the trace (R33, R166) -/

/-- The bytes of an open transaction are collected up to its stop. -/
theorem transactionsFrom_bytes (cur bs : List Byte) (rest : List Event) :
    transactionsFrom (some cur) (bs.map (fun b => .byte b true) ++ .stop :: rest) = (cur ++ bs) :: transactions rest := by
  induction bs generalizing cur with
  | nil => simp [transactionsFrom, transactions]
  | cons b bs ih => simp [transactionsFrom, ih]

theorem transactions_commandEvents (op : Byte) (rest : List Event) :
    transactions (commandEvents op ++ rest) = [0x78, 0x00, op] :: transactions rest :=
  transactionsFrom_bytes [] [0x78, 0x00, op] rest

theorem transactions_dataEvents (bs : List Byte) : transactions (dataEvents bs) = [0x78 :: 0x40 :: bs] := by
  rw [dataEvents, List.append_assoc]
  exact transactionsFrom_bytes [] (0x78 :: 0x40 :: bs) []

/-- Settles O42: SETCUR leaves a state that allows WCHAR, with its own draws used up. -/
theorem cursorThenCharacter : Obligations.CursorThenCharacter := by
  intro p c k g s en opn ready supported good evs
  have split : GoodDraws (3 + 1) (9 + 8) (3 + 1) s := good
  obtain ⟨u, moves, moved, -, starts, bytes, stops⟩ := exec_setcur_good p c en opn ready split.first
  have frame := moved.ended.frame
  obtain ⟨t, writes, wrote, -⟩ := wcharSendsOneCell k g u (frame.en.trans en) moved.ended.opn (moved.ready.trans ready)
    (by rwa [frame.par]) (split.second starts bytes stops)
  have run : execAll [.setcur p c, .wchar k] s = .next t := (execAll_cons _ moves).trans (execAll_cons [] writes)
  have trace : t.trace = s.trace ++ evs := by
    rw [wrote.ended.trace, moved.ended.trace, cursorEvents_eq, List.append_assoc]
  have columns := glyph_length supported
  have sent : transactions evs = [[0x78, 0x00, 0xB0 ||| p.setWidth 8], [0x78, 0x00, (c.extractLsb' 0 4).setWidth 8],
      [0x78, 0x00, 0x10 ||| (c.extractLsb' 4 3).setWidth 8], 0x78 :: 0x40 :: (g ++ [0x00])] := by
    simp only [evs, List.append_assoc, transactions_commandEvents, transactions_dataEvents]
  exact ⟨t, run, trace, sent, by simp [sent, columns], by simp [columns], wrote.ended.last,
    wrote.ready.trans (moved.ready.trans ready), wrote.ended.opn⟩

end Sys2Proof.Machine
end

section
/-! Proofs of the statements about the system commands: a word presented while a command runs, the acceptance and the refusal
of a word at an idle block, NOP and CLRERR. -/

namespace Sys2Proof.Machine

/-! ### A word presented while a command runs (R176) -/

/-- The passage of an edge drops the port's next entry, whatever it holds. -/
theorem consume_port_head (h h' : PortIn) (rest : List PortIn) (s : State) :
    consume { s with port := h :: rest } = consume { s with port := h' :: rest } := by
  unfold consume; cases s.grain <;> rfl

/-- A step of a busy block without reset: the running command goes on as with a quiet port, and a presented word is dropped
(R176, R189). -/
theorem step_busy {s : State} (h : PortIn) (rest : List PortIn) (busy : s.busy = true) (rst : h.rst = false) :
    step { s with port := h :: rest } =
      dropIf h (goOn (pullHead s) (consume { s with port := .quiet :: rest })) := by
  change edge h (pullHead s) (consume { s with port := h :: rest }) = _
  rw [consume_port_head h .quiet, edge, rst, consume_busy, busy]
  rfl

theorem dropIf_quiet (x : Host.Outcome State Fault Refusal) : dropIf .quiet x = x := by cases x <;> rfl

/-- Settles O9: the running command goes on from the same state with the same pulls, whether or not a word is presented, and
the flag is set on what it answers. -/
theorem wordDroppedWhileBusy : Obligations.WordDroppedWhileBusy := by
  intro s t w rest busy undisturbed
  have goesOn : goOn (pullHead s) (consume { s with port := .quiet :: rest }) = .next t := by
    rw [← dropIf_quiet (goOn _ _), ← step_busy .quiet rest busy rfl]
    exact undisturbed
  have dropped := step_busy (presents w) rest busy rfl
  rw [goesOn] at dropped
  exact dropped

/-! ### The acceptance of a word at an idle block (R172, R173) -/

theorem step_quiet {s : State} (idle : s.busy = false) (quiet : portHead s = .quiet) : step s = .next (consume s) := by
  simp [step, stepOf, edge, quiet, PortIn.quiet, idle]

/-- A legal command that completes at the accepting edge, or that is accepted at command grain, runs to its end (R172). -/
theorem accept_runs {w : Word16} {i : Instr} {s : State} (decoded : decode w = .ok i)
    (whole : s.grain = .command ∨ immediate i { s with cmd := w } = true) :
    accept w s = exec i { s with cmd := w } := by
  simp only [accept, decoded, runAccepted]
  exact if_pos whole

/-- A bus command accepted at primitive grain begins (R172). -/
theorem accept_begins_primitive {w : Word16} {i : Instr} {s : State} (decoded : decode w = .ok i)
    (grain : s.grain = .primitive) (runs : immediate i { s with cmd := w } = false) :
    accept w s = .next (begin i { s with cmd := w }) := by
  simp only [accept, decoded, runAccepted]
  rw [if_neg (by rw [runs, grain]; simp)]
  simp only [beginAt, grain]

/-- An illegal word is taken into CMD and refused (R172, R173). -/
theorem accept_illegal {w : Word16} {e : Illegal} {s : State} (illegal : decode w = .error e) :
    accept w s = .next (refuse { s with cmd := w }) := by
  simp only [accept, illegal]

/-- Settles O6: the step is the acceptance of the word after the passage of the edge, by the grain. -/
theorem acceptedCommandRuns : Obligations.AcceptedCommandRuns := by
  refine ⟨fun s rest port idle => step_quiet idle (by rw [portHead, port]; rfl), ?_⟩
  rintro s ⟨rst, valid, w⟩ rest i port rfl rfl idle decoded a
  have accepted : step s = accept w (consume s) := step_presented idle (by rw [portHead, port]; rfl)
  rw [accepted, ← consume_grain s]
  exact ⟨fun grain => accept_runs decoded (.inl grain), fun whole => accept_runs decoded (.inr whole),
    accept_begins_primitive decoded, accept_begins decoded⟩

/-! ### NOP and CLRERR (R170, R171) -/

/-- A word of a command without operands is illegal where one of the twelve bits below the opcode is set (R72, R73 (b)). -/
theorem bare_illegal {w : Word16} (i : Instr) (low : w.extractLsb' 0 12 ≠ 0) : bare w i = .error .reservedBits := by
  have fields : hiField w ++ loField w = w.extractLsb' 0 12 := BitVec.extractLsb'_append_extractLsb'_eq_extractLsb' rfl
  exact if_neg fun ⟨hi, lo⟩ => low (by rw [← fields, hi, lo]; rfl)

theorem decode_nop_illegal {w : Word16} (op : opField w = 0) (low : w.extractLsb' 0 12 ≠ 0) :
    decode w = .error .reservedBits := by
  simp only [decode, op]
  exact bare_illegal .nop low

theorem decode_clrerr_illegal {w : Word16} (op : opField w = 9) (low : w.extractLsb' 0 12 ≠ 0) :
    decode w = .error .reservedBits := by
  simp only [decode, op]
  exact bare_illegal .clrerr low

theorem exec_nop (s : State) : exec .nop s = .next { s with last := 0 } := rfl

theorem exec_clrerr (s : State) : exec .clrerr s =
    .next { s with eTimeout := false, eNack := false, eInit := false, eGlyph := false, eCmd := false, last := 0 } := rfl

/-- Settles O20: NOP writes LAST alone, and its code has no other bit set. -/
theorem nopClearsLast : Obligations.NopClearsLast :=
  ⟨exec_nop, by decide, fun _ op low => ⟨_, decode_nop_illegal op low⟩⟩

/-- Settles O21: CLRERR writes the five flags and LAST alone, and its code has no other bit set. -/
theorem clrerrClearsFlags : Obligations.ClrerrClearsFlags :=
  ⟨exec_clrerr, by decide, fun _ op low => ⟨_, decode_clrerr_illegal op low⟩⟩

/-! ### The refusals (R173, R174) -/

/-- A host command in a state that forbids it sets E_CMD and LAST = 5 and nothing else. -/
theorem exec_refused {i : Instr} {s : State} (host : isHostCommand i) (refused : stateRefuses i s = true) :
    exec i s = .next { s with eCmd := true, last := 5 } := by
  rw [exec_effect host, unlessRefused_refused refused]
  rfl

/-- Settles O8: an illegal word by the acceptance, each row of the table of R174 by `stateRefuses`, and NOP and CLRERR by what
they do in every state. -/
theorem refusalOnlyRecords : Obligations.RefusalOnlyRecords := by
  refine ⟨?illegal, ?binit, ?start, ?read, ?wbyte, ?stop, ?scmd, ?init, ?setcur, ?wchar, exec_nop, ?clrerr⟩
  case illegal =>
    intro s w rest e port idle illegal
    rw [step_presented idle (by rw [portHead, port]; rfl), accept_illegal illegal]
    rfl
  case binit => exact fun s en => exec_refused ⟨_, rfl⟩ en
  case start => exact fun s a en => exec_refused ⟨_, rfl⟩ (by simp [stateRefuses, en])
  case read => exact fun s a => exec_refused ⟨_, rfl⟩ rfl
  case wbyte => exact fun s v h => exec_refused ⟨_, rfl⟩ (by simpa [stateRefuses] using h)
  case stop => exact fun s h => exec_refused ⟨_, rfl⟩ (by simpa [stateRefuses] using h)
  case scmd => exact fun s v h => exec_refused ⟨_, rfl⟩ (by simpa [stateRefuses] using h)
  case init => exact fun s h => exec_refused ⟨_, rfl⟩ (by simpa [stateRefuses, or_assoc] using h)
  case setcur => exact fun s p c h => exec_refused ⟨_, rfl⟩ (by simpa [stateRefuses, or_assoc] using h)
  case wchar => exact fun s k h => exec_refused ⟨_, rfl⟩ (by simpa [stateRefuses, or_assoc] using h)
  case clrerr =>
    intro s t run
    rw [exec_clrerr] at run
    cases run
    exact ⟨rfl, rfl⟩

end Sys2Proof.Machine
end

section
/-! Proofs of the statements about the exceptions: the codes that each command can end with, and WCHAR of an unsupported
character. -/

namespace Sys2Proof.Machine

/-! ### The code a host command ends with (R186, R187) -/

/-- A host command is refused or has its effect (R173, R174). -/
theorem exec_cases {i : Instr} {s t : State} (host : isHostCommand i) (run : exec i s = .next t) :
    t = refuse s ∨ t = effect i s := by
  rw [exec_effect host] at run
  cases h : stateRefuses i s with
  | true => rw [unlessRefused_refused h] at run; cases run; exact .inl rfl
  | false => rw [unlessRefused_runs h] at run; cases run; exact .inr rfl

/-- The code of a result is 0, 1 or 2 (R90). -/
theorem endWithResult_last (x : Result × State) :
    (endWithResult x).last = 0 ∨ (endWithResult x).last = 1 ∨ (endWithResult x).last = 2 := by
  obtain ⟨r, s⟩ := x
  cases r with
  | ok => exact .inl rfl
  | timeout => exact .inr (.inl rfl)
  | nack => exact .inr (.inr rfl)

/-- The code of a result that is no Nack is 0 or 1 (R90). -/
theorem endWithResult_last_ne_nack {x : Result × State} (h : x.1 ≠ .nack) :
    (endWithResult x).last = 0 ∨ (endWithResult x).last = 1 := by
  obtain ⟨r, s⟩ := x
  cases r with
  | ok => exact .inl rfl
  | timeout => exact .inr rfl
  | nack => exact absurd rfl h

/-- INIT ends with code 0 or, whatever the cause of its failure, with code 3 (R183). -/
theorem endInit_last (x : Result × State) : (endInit x).last = 0 ∨ (endInit x).last = 3 := by
  by_cases h : x.1 = .ok
  · rw [endInit_ok h]; exact .inl rfl
  · rw [endInit_failed h]; exact .inr rfl

/-- A host command whose effect is to end with the code of a result (R93, R95, R130, R160, R161). -/
theorem exec_last_of_result {i : Instr} {s t : State} {x : Result × State} (host : isHostCommand i)
    (ends : effect i s = endWithResult x) (run : exec i s = .next t) :
    t.last = 0 ∨ t.last = 1 ∨ t.last = 2 ∨ t.last = 5 := by
  obtain rfl | rfl := exec_cases host run
  · simp
  · rw [ends]
    obtain h | h | h := endWithResult_last x <;> simp [h]

theorem primStop_ne_nack (s : State) : (primStop s).1 ≠ .nack := by
  cases h : (drawStop s).1 with
  | done => simp [primStop_done s h]
  | expired => simp [primStop_expired s h]

/-! ### WCHAR by its character (R161, R184) -/

theorem effect_wchar_supported {k : Byte} {idx : Nat} (s : State) (glyph : glyphIndex k = some idx) :
    effect (.wchar k) s = endWithResult (body (.wchar k) s) := by
  simp only [effect, glyph]
  rfl

theorem effect_wchar_unsupported {k : Byte} (s : State) (glyph : glyphIndex k = none) :
    effect (.wchar k) s = { s with eGlyph := true, last := 4 } := by
  simp only [effect, glyph]
  rfl

/-- Settles O41: the codes but the twelve have no glyph, so WCHAR reports where it is not refused. -/
theorem unsupportedGlyphReported : Obligations.UnsupportedGlyphReported := by
  refine fun k s unsupported => ⟨fun en opn ready => ?reports, fun refused => ?refused⟩
  case reports =>
    rw [exec_effect ⟨_, rfl⟩, unlessRefused_runs (by simp [stateRefuses, en, opn, ready]),
      effect_wchar_unsupported s (glyphIndex_unsupported unsupported)]
  case refused => exact exec_refused ⟨_, rfl⟩ (by simpa [stateRefuses, or_assoc] using refused)

/-! ### The policy Ignore (R99) -/

/-- What a part of a command answers under Ignore: no Nack, and the policy is still Ignore. -/
structure NackIgnored (x : Result × State) : Prop where
  result : x.1 ≠ .nack
  policy : x.2.par.nackPolicy = .ignore

theorem xmit_nackIgnored (v : Byte) {s : State} (policy : s.par.nackPolicy = .ignore) : NackIgnored (xmit v s) where
  result := by
    cases h : (drawByte s).1 with
    | acked => simp [xmit_acked v s h]
    | nacked => rw [xmit_nacked v s h, byteDone_ignore _ _ (by simpa using policy)]; simp
    | expired => simp [xmit_expired v s h]
  policy := by rw [(xmit_frame v s).bus.par, policy]

theorem primStart_nackIgnored (ab : Byte) {s : State} (policy : s.par.nackPolicy = .ignore) :
    NackIgnored (primStart ab s) where
  result := by
    cases h : (drawStart s).1 with
    | free => rw [primStart_free ab s h]; exact (xmit_nackIgnored ab (by simpa using policy)).result
    | expired => simp [primStart_expired ab s h]
  policy := by rw [(primStart_frame ab s).bus.par, policy]

theorem primStop_nackIgnored {s : State} (policy : s.par.nackPolicy = .ignore) : NackIgnored (primStop s) where
  result := primStop_ne_nack s
  policy := by rw [(primStop_frame s).bus.par, policy]

theorem andThen_nackIgnored {x : Result × State} {k : State → Result × State} (first : NackIgnored x)
    (rest : ∀ {t : State}, t.par.nackPolicy = .ignore → NackIgnored (k t)) : NackIgnored (andThen x k) := by
  obtain ⟨r, s⟩ := x
  cases r with
  | ok => exact rest first.policy
  | timeout => exact first
  | nack => exact absurd rfl first.result

theorem sendCommand_nackIgnored (op : Byte) {s : State} (policy : s.par.nackPolicy = .ignore) :
    NackIgnored (sendCommand op s) :=
  andThen_nackIgnored (primStart_nackIgnored _ policy) fun policy =>
  andThen_nackIgnored (xmit_nackIgnored _ policy) fun policy =>
  andThen_nackIgnored (xmit_nackIgnored _ policy) fun policy => primStop_nackIgnored policy

theorem sendPayload_nackIgnored (j : Nat) (bs : List Byte) {s : State} (policy : s.par.nackPolicy = .ignore) :
    NackIgnored (sendPayload j bs s) := by
  induction bs generalizing j s with
  | nil => exact primStop_nackIgnored policy
  | cons b rest ih => exact andThen_nackIgnored (xmit_nackIgnored b policy) (ih (j + 1))

theorem sendDataBytes_nackIgnored (bs : List Byte) {s : State} (policy : s.par.nackPolicy = .ignore) :
    NackIgnored (sendDataBytes bs s) :=
  andThen_nackIgnored (primStart_nackIgnored _ policy) fun policy =>
  andThen_nackIgnored (xmit_nackIgnored _ policy) fun policy => sendPayload_nackIgnored 0 bs policy

theorem sendCommands_nackIgnored (bs : List Byte) {s : State} (policy : s.par.nackPolicy = .ignore) :
    NackIgnored (sendCommands bs s) := by
  induction bs generalizing s with
  | nil => exact ⟨nofun, policy⟩
  | cons b rest ih =>
    have first := sendCommand_nackIgnored b policy
    cases rest with
    | nil => exact first
    | cons c rest =>
      rw [sendCommands_cons]
      split
      · exact ih first.policy
      · exact first

/-- The body of a bus command under Ignore, by its primitive, procedure or loop. -/
theorem body_nackIgnored (i : Instr) {s : State} (policy : s.par.nackPolicy = .ignore) : NackIgnored (body i s) := by
  cases i with
  | start a r => exact primStart_nackIgnored _ policy
  | wbyte v => exact xmit_nackIgnored _ policy
  | stop => exact primStop_nackIgnored policy
  | scmd v => exact sendCommand_nackIgnored _ policy
  | init => exact sendCommands_nackIgnored _ policy
  | setcur p c => exact sendCommands_nackIgnored _ policy
  | wchar k => exact sendDataBytes_nackIgnored _ policy
  | _ => exact ⟨nofun, policy⟩

/-- INIT's end has other codes than 2, and no other body answers Nack under Ignore. -/
theorem finish_last_of_ignore (i : Instr) {s : State} (policy : s.par.nackPolicy = .ignore) :
    (finish i (body i s)).last ≠ 2 := by
  unfold finish
  split
  · obtain h | h := endInit_last (body i s) <;> simp [h]
  · obtain h | h := endWithResult_last_ne_nack (body_nackIgnored i policy).result <;> simp [h]

/-- The immediate commands have other codes than 2, and a bus command is its body and its end. -/
theorem exec_last_of_ignore {i : Instr} {s t : State} (host : isHostCommand i) (policy : s.par.nackPolicy = .ignore)
    (run : exec i s = .next t) : t.last ≠ 2 := by
  cases him : immediate i s with
  | true => cases exec_of_immediate host him run <;> simp [codeBits]
  | false =>
    rw [exec_of_not_immediate him] at run
    cases run
    exact finish_last_of_ignore i policy

/-- Settles O44, row by row of the table of R187: a command is refused, with code 5, or has its effect, and its effect ends with
the code of a result, of INIT's end, or of an unsupported character. -/
theorem possibleResultCodes : Obligations.PossibleResultCodes := by
  intro s t
  refine ⟨?system, ?illegal, ?binit, ?start, ?wbyte, ?stop, ?scmd, ?init, ?setcur, ?wchar, ?ignore⟩
  case system => rintro (run | run) <;> cases run <;> rfl
  case illegal =>
    intro w rest e port idle illegal run
    rw [step_presented idle (by rw [portHead, port]; rfl), accept_illegal illegal] at run
    cases run
    rfl
  case binit =>
    intro run
    obtain rfl | rfl := exec_cases ⟨_, rfl⟩ run
    · exact .inr rfl
    · exact .inl rfl
  case start => exact fun a r => exec_last_of_result ⟨_, rfl⟩ rfl
  case wbyte => exact fun v => exec_last_of_result ⟨_, rfl⟩ rfl
  case stop =>
    intro run
    obtain rfl | rfl := exec_cases ⟨_, rfl⟩ run
    · simp
    · exact (endWithResult_last_ne_nack (primStop_ne_nack (runs .prim s))).imp_right .inl
  case scmd => exact fun v => exec_last_of_result ⟨_, rfl⟩ rfl
  case init =>
    intro run
    obtain rfl | rfl := exec_cases ⟨_, rfl⟩ run
    · simp
    · exact (endInit_last (body .init s)).imp_right .inl
  case setcur => exact fun p c => exec_last_of_result ⟨_, rfl⟩ rfl
  case wchar =>
    intro k run
    cases glyph : glyphIndex k with
    | some idx =>
      obtain h | h | h | h := exec_last_of_result ⟨_, rfl⟩ (effect_wchar_supported s glyph) run <;> simp [h]
    | none =>
      obtain rfl | rfl := exec_cases ⟨_, rfl⟩ run
      · simp
      · simp [effect_wchar_unsupported s glyph]
  case ignore => exact fun i => exec_last_of_ignore

end Sys2Proof.Machine
end

section
/-! Proofs of the statements about the reset edge, about the block that has just been reset, and about the parameter set. -/

namespace Sys2Proof.Machine

/-! ### The reset edge (R37, R210) -/

/-- At every grain a step uses up the port's next entry. -/
theorem consume_port (s : State) : (consume s).port = s.port.tail := by
  unfold consume; split <;> rfl

/-- A step with `rst = 1` is the reset edge, whatever runs and whatever word is presented (R210). -/
theorem step_reset {s : State} (rst : (portHead s).rst = true) : step s = .next (resetEdge (consume s)) := by
  rw [step, stepOf, edge, rst]
  rfl

theorem status_reset : status State.reset = 0x0000 := by decide

/-- The status word shows no field that a reset edge keeps. -/
theorem status_resetEdge (s : State) : status (resetEdge s) = 0x0000 := status_reset

/-- Settles O10: the reset edge takes every register from the reset state; the parameter set and what is left of the port
are what the passage of the edge leaves of them. -/
theorem resetEdgeTakesResetValues : Obligations.ResetEdgeTakesResetValues := by
  intro s h rest port rst
  have par : (resetEdge (consume s)).par = s.par := consume_par s
  have left : (resetEdge (consume s)).port = rest := (consume_port s).trans (by rw [port]; rfl)
  have word : status (resetEdge (consume s)) = 0x0000 := status_resetEdge (consume s)
  refine ⟨_, step_reset (by rw [portHead, port]; exact rst), ?_⟩
  rw [par, left, word]
  simp [resetEdge, State.reset]

/-! ### The block after reset (R211) -/

/-- An edge at which the host presents nothing leaves the reset state as it is. -/
theorem step_reset_state_quiet (rest : List PortIn) :
    step { State.reset with port := .quiet :: rest } = .next { State.reset with port := rest } :=
  step_quiet rfl rfl

theorem run_reset_state_quiet (n : Nat) :
    Host.Core.run core n { State.reset with port := List.replicate n .quiet } = .next State.reset := by
  induction n with
  | zero => rfl
  | succ n ih => exact (run_succ n (step_reset_state_quiet (List.replicate n .quiet))).trans ih

/-- Settles O11: the values read off the reset state, and the edges are taken by induction on their number. -/
theorem resetStateStays : Obligations.ResetStateStays :=
  ⟨status_reset, rfl, rfl, rfl, rfl, run_reset_state_quiet⟩

/-! ### The parameter set and the grain (00_scope.md section 5) -/

/-- Both states belong to one instance of the block, stepped at one grain. -/
structure SameInstance (s t : State) : Prop where
  par : t.par = s.par
  grain : t.grain = s.grain

theorem SameInstance.trans {s t u : State} (h : SameInstance s t) (k : SameInstance t u) : SameInstance s u :=
  ⟨k.par.trans h.par, k.grain.trans h.grain⟩

theorem BusFrame.sameInstance {s t : State} (f : BusFrame s t) : SameInstance s t := ⟨f.par, f.grain⟩

theorem Moved.sameInstance {s t : State} (m : Moved s t) : SameInstance s t := by
  cases m with
  | stays | channel | data | command => exact ⟨rfl, rfl⟩
  | ends how => exact how.bus.sameInstance

theorem goOn_sameInstance {p : Pull} {s t : State} (h : goOn p s = .next t) : SameInstance s t := by
  obtain ⟨u, w, before, move, after⟩ := goOn_cases h
  exact (before.bus.sameInstance.trans move.sameInstance).trans after.bus.sameInstance

theorem Immediate.sameInstance {i : Instr} {s t : State} (h : Immediate s i t) : SameInstance s t := by
  cases h <;> exact ⟨rfl, rfl⟩

theorem exec_sameInstance {i : Instr} {s t : State} (host : isHostCommand i) (run : exec i s = .next t) :
    SameInstance s t := by
  cases him : immediate i s with
  | true => exact (exec_of_immediate host him run).sameInstance
  | false =>
    obtain rfl : finish i (body i s) = t := by simpa [exec_of_not_immediate him] using run
    exact (body_frame i s).bus.sameInstance.trans (finish_ends i _).bus.sameInstance

theorem begin_sameInstance (i : Instr) (s : State) : SameInstance s (begin i s) := by
  obtain ⟨_, _, _, _, _, _, e⟩ := begin_keeps i s
  rw [e]; exact ⟨rfl, rfl⟩

theorem accept_sameInstance {w : Word16} {s t : State} (h : accept w s = .next t) : SameInstance s t := by
  have load : SameInstance s { s with cmd := w } := ⟨rfl, rfl⟩
  obtain ⟨_, -, rfl⟩ | ⟨i, decoded, -, run⟩ | ⟨i, -, -, -, begun⟩ := accept_cases h
  · exact ⟨rfl, rfl⟩
  · exact load.trans (exec_sameInstance (decode_ok decoded).isHostCommand run)
  · exact (load.trans (begin_sameInstance i _)).trans (beginAt_frame begun).bus.sameInstance

/-- Settles O19: a reset edge keeps the arguments of the step, and a running command, an acceptance and the passage of the
edge write neither field. -/
theorem parametersNeverChange : Obligations.ParametersNeverChange := by
  intro s t h
  have passage : SameInstance s (consume s) := ⟨consume_par s, consume_grain s⟩
  suffices kept : SameInstance s t from ⟨kept.par, kept.grain⟩
  obtain ⟨-, rfl⟩ | ⟨-, -, v, going, rfl⟩ | ⟨-, -, -, accepted⟩ | ⟨-, -, -, rfl⟩ := step_cases h
  · exact passage.trans ⟨rfl, rfl⟩
  · have gone := passage.trans (goOn_sameInstance going)
    split
    · exact gone.trans ⟨rfl, rfl⟩
    · exact gone
  · exact passage.trans (accept_sameInstance accepted)
  · exact passage

end Sys2Proof.Machine
end
